-- ==== Sys2Proof/Word.lean ====
section
/-! DEFINITION. The word and byte types of the block and their plainest arithmetic (00_scope.md R12, R13). -/

namespace Sys2Proof

/-- A 64-bit register, storage word or hash value (R8, R12). -/
abbrev Word := BitVec 64

/-- One byte of a key, an image or the transfer buffer (R12). -/
abbrev Byte := BitVec 8

end Sys2Proof
end

