-- ==== Sys2Proof/Config.lean ====
section
/-! DEFINITION. What an implementation fixes (the parameters of 00_scope.md R7) and the free values: every value
the spec calls a draw or unspecified is an opaque function here, applied to a number that State holds. -/

namespace Sys2Proof

/-- The `BaseHash` parameter (R7, R150): the reference function of R152, or any other total function, of which
nothing is known (`Config.otherHash`). -/
inductive HashChoice where
  | refHash
  | other (id : Nat)
  deriving DecidableEq, Repr, Inhabited

/-- The `SIZING_BAND` parameter (R7), a real number: the quotient of two naturals, or the number in `0 .. 2^-30` whose
binary digits are `Config.bandDigit id`, of which nothing is known. Every number R7 allows is one with such digits. -/
inductive BandChoice where
  | ratio (num den : Nat)
  | digits (id : Nat)
  deriving DecidableEq, Repr, Inhabited

/-- The implementation parameters of R7, as plain data. Which values are a configuration of the block is
`Params.legal`. -/
structure Params where
  /-- `MAX_BITLEN_LOG2`, written L in R7 -/
  maxBitLenLog2 : Nat
  /-- `W_BL`, width of the serialized bitLength field -/
  wBL : Nat
  /-- `W_HR`, width of the serialized hashRounds field -/
  wHR : Nat
  /-- `W_SEED`, width of the serialized seed field and of the seed -/
  wSeed : Nat
  /-- `XFER_BYTES`, size of the transfer buffer -/
  xferBytes : Nat
  /-- `BaseHash` -/
  hash : HashChoice
  /-- `SIZING_BAND`, written ε in R7 -/
  sizingBand : BandChoice
  /-- `REG_BASE` -/
  regBase : Nat
  /-- `XFER_BASE` -/
  xferBase : Nat
  deriving DecidableEq, Repr, Inhabited

/-- The reference configuration RC of R7. -/
def Params.rc : Params where
  maxBitLenLog2 := 20
  wBL := 64
  wHR := 32
  wSeed := 64
  xferBytes := 262144
  hash := .refHash
  sizingBand := .ratio 0 1
  regBase := 0x00000000
  xferBase := 0x00100000

/-! Free values. None has a body, so nothing can be proved about a value of one. -/

/-- A base hash other than the reference one: a total function of the seed and the key alone (R150). -/
opaque Config.otherHash (id : Nat) (seed : Word) (key : List Byte) : Word × Word

/-- A `SIZING_BAND` that is not given as a quotient (R7): `2^-30` times the number with these binary digits after the
point, place 0 the first. -/
opaque Config.bandDigit (id place : Nat) : Fin 2

/-- The entropy source's draw (R287), one for each index of the draw counter. -/
opaque Config.entropy (draw : Nat) : Word

/-- Which of the admitted `m_raw` values a sizing takes, where more than one is admitted (R131). -/
opaque Config.sizingDraw (draw : Nat) : Nat

/-- Which of the admitted `hashRounds` values a sizing takes, where more than one is admitted (R131). -/
opaque Config.roundsDraw (draw : Nat) : Nat

/-- Content of a transfer-buffer byte nothing has written since the reset numbered `epoch` (R38). -/
opaque Config.xferDraw (epoch addr : Nat) : Byte

/-- Content of a storage word nothing has written since the reset or the fault numbered `epoch` (R38, R276). -/
opaque Config.bvDraw (epoch index : Nat) : Word

/-- `CFG.VALID` after a FAULT: unspecified (R276). -/
opaque Config.faultValid (draw : Nat) : Bool

/-- `CFG.BITLEN` after a FAULT: unspecified (R276). -/
opaque Config.faultBitLen (draw : Nat) : Word

/-- `CFG.HROUNDS` after a FAULT: unspecified (R276). -/
opaque Config.faultHRounds (draw : Nat) : Word

/-- `CFG.SEED` after a FAULT: unspecified (R276). -/
opaque Config.faultSeed (draw : Nat) : Word

/-- `STATUS.ERR` after a FAULT: unspecified (R276). -/
opaque Config.faultErr (draw : Nat) : Byte

/-- `STATUS.RESULT` after a FAULT: unspecified (R276). -/
opaque Config.faultResult (draw : Nat) : Bool

end Sys2Proof
end

