-- ==== Sys2Proof/Syntax.lean ====
section
/-! DEFINITION. The commands of spec/opcode_table.json, one constructor a row, and the fields of a command word
(30_encoding.md R91, R92). No row has operand bits: a command's operands are the copies of ARG0, ARG1 and ARG2 that
acceptance latched (R94), so the constructors carry none. -/

namespace Sys2Proof

/-- The six commands of R92. -/
inductive Instr where
  /-- `NEW`: construct a filter, the seed a draw (R142) -/
  | new
  /-- `NEW.S`: construct a filter, the seed from ARG2 (R142) -/
  | newS
  /-- `INSERT`: add a key (R200) -/
  | insert
  /-- `EXIST`: query a key (R205) -/
  | exist
  /-- `SERIALIZE`: write the filter's image into XFER (R230) -/
  | serialize
  /-- `DESERIALIZE`: replace the filter by the one an image describes (R233) -/
  | deserialize
  deriving DecidableEq, Repr

/-- The three fields of a command word (R91). -/
structure CommandFields where
  /-- bits 7:0 -/
  op : BitVec 8
  /-- bit 8 -/
  seedSel : Bool
  /-- bits 63:9 -/
  rsvd : BitVec 55
  deriving DecidableEq, Repr

end Sys2Proof
end

