-- ==== Sys2Proof/WellFormed.lean ====
section
/-! DEFINITION. Which command fields are a legal command (30_encoding.md R91 to R93). Every term of `Instr` is
well-formed: a row of the opcode table has no operand field; what can be ill-formed is the field record. -/

namespace Sys2Proof

/-- The reserved field is 0 (R91, R93). -/
def CommandFields.rsvdClear (f : CommandFields) : Bool := f.rsvd == 0

/-- The operation is assigned: 0x01 to 0x05 (R92, R93). -/
def CommandFields.opAssigned (f : CommandFields) : Bool := 1 ≤ f.op.toNat && f.op.toNat ≤ 5

/-- `SEEDSEL` is set only for `NEW` (R93). -/
def CommandFields.seedSelAllowed (f : CommandFields) : Bool := !f.seedSel || f.op == 1

/-- A legal command word's fields: one of the six words of R92. -/
def CommandFields.wf (f : CommandFields) : Bool := f.rsvdClear && f.opAssigned && f.seedSelAllowed

end Sys2Proof
end

