-- ==== Sys2Proof/Decode.lean ====
section
/-! DEFINITION. Decoding a command word, total and rejecting by name, and encoding a command (30_encoding.md R90 to
R93). There is one command length, one 64-bit value on the host bus; its byte order on the bus is the bus's own
(20_memory.md R66 (c)), so the decoder's input is the 64-bit value. -/

namespace Sys2Proof

/-- Why a command word is none of the six of R92 (the causes R93 lists). All are `ILLEGAL_COMMAND` to the host. -/
inductive Reject where
  /-- a bit of `RSVD` is set -/
  | reservedBits
  /-- `SEEDSEL = 1` with an `OP` other than 0x01 -/
  | seedSelWithoutNew
  /-- `OP` is 0x00 or 0x06 to 0xFF -/
  | unassignedOp
  deriving DecidableEq, Repr

/-- The fields of a command word (R91). -/
def fieldsOf (c : Word) : CommandFields where
  op := c.extractLsb' 0 8
  seedSel := c.getLsbD 8
  rsvd := c.extractLsb' 9 55

/-- The command a word stands for, or why it stands for none (R92, R93). -/
def decode (c : Word) : Except Reject Instr :=
  if (fieldsOf c).rsvd ≠ 0 then .error .reservedBits
  else if (fieldsOf c).seedSel then
    if (fieldsOf c).op = 0x01 then .ok .newS else .error .seedSelWithoutNew
  else if (fieldsOf c).op = 0x01 then .ok .new
  else if (fieldsOf c).op = 0x02 then .ok .insert
  else if (fieldsOf c).op = 0x03 then .ok .exist
  else if (fieldsOf c).op = 0x04 then .ok .serialize
  else if (fieldsOf c).op = 0x05 then .ok .deserialize
  else .error .unassignedOp

/-- The fields of a command's word (R92). -/
def instrFields : Instr → CommandFields
  | .new => ⟨0x01, false, 0⟩
  | .newS => ⟨0x01, true, 0⟩
  | .insert => ⟨0x02, false, 0⟩
  | .exist => ⟨0x03, false, 0⟩
  | .serialize => ⟨0x04, false, 0⟩
  | .deserialize => ⟨0x05, false, 0⟩

/-- The word with the given fields (R91). -/
def packFields (f : CommandFields) : Word := (f.rsvd ++ BitVec.ofBool f.seedSel) ++ f.op

/-- The command word of a command (R92). -/
def encode (i : Instr) : Word := packFields (instrFields i)

/-- The instruction the decoder reads from an instruction whose bits are `w` (bit 0 the least significant). A row of
the table gives 64 bits; there is no other command length (R90). -/
def decodeTableWord (nbits w : Nat) : Option Instr :=
  if nbits ≤ 64 ∧ w < 2 ^ nbits then
    match decode (BitVec.ofNat 64 w) with
    | .ok i => some i
    | .error _ => none
  else none

end Sys2Proof
end

