-- ==== Sys2Proof/Machine/Cells.lean ====
section
/-! DEFINITION. Sparse storage as a list of (index, value) pairs with strictly rising indices, and little-endian byte
strings (00_scope.md R13). The transfer buffer and the bit vector are both kept this way. -/

namespace Sys2Proof.Machine

/-- The canonical form: indices strictly rising. -/
abbrev Cells.Rising {α : Type} (m : List (Nat × α)) : Prop := m.Pairwise fun x y => x.1 < y.1

/-- The value listed at an index. -/
def Cells.get? {α : Type} : List (Nat × α) → Nat → Option α
  | [], _ => none
  | (b, v) :: rest, a => if b = a then some v else Cells.get? rest a

/-- Values listed at consecutive indices from `a`. -/
def Cells.number {α : Type} : Nat → List α → List (Nat × α)
  | _, [] => []
  | a, v :: vs => (a, v) :: Cells.number (a + 1) vs

/-- The entries below index `a`. -/
def Cells.below {α : Type} (a : Nat) (m : List (Nat × α)) : List (Nat × α) := m.filter fun c => c.1 < a

/-- The entries from index `a` on. -/
def Cells.onward {α : Type} (a : Nat) (m : List (Nat × α)) : List (Nat × α) := m.filter fun c => a ≤ c.1

/-- The values `vs` written at consecutive indices from `a`. -/
def Cells.splice {α : Type} (a : Nat) (vs : List α) (m : List (Nat × α)) : List (Nat × α) :=
  Cells.below a m ++ Cells.number a vs ++ Cells.onward (a + vs.length) m

/-- `LE_w(v)` as `n = w/8` bytes: byte `j` is `v[8j+7:8j]` (R13). -/
def leBytes : Nat → Nat → List Byte
  | 0, _ => []
  | n + 1, v => BitVec.ofNat 8 v :: leBytes n (v / 256)

/-- `fromLE(s) = sum_j s[j] * 2^(8j)` (R13). -/
def fromLE : List Byte → Nat
  | [] => 0
  | b :: bs => b.toNat + 256 * fromLE bs

/-- `trunc_w(v)`: bits `[w-1:0]` of `v` (R12). -/
def truncTo (w : Nat) (v : Word) : Word := BitVec.ofNat 64 (v.toNat % 2 ^ w)

end Sys2Proof.Machine
end

