-- ==== Sys2Proof/Machine/Params.lean ====
section
/-! DEFINITION. The derived constants of the parameters and their constraints (00_scope.md R7, R9; 10_state.md R31). -/

namespace Sys2Proof

/-- `CAP_BITS = 2^L` (R7). -/
def Params.capBits (p : Params) : Nat := 2 ^ p.maxBitLenLog2

/-- `CAP_WORDS = 2^(L-6)` (R7). -/
def Params.capWords (p : Params) : Nat := 2 ^ (p.maxBitLenLog2 - 6)

/-- `HDR`, the image header's bytes (R7). -/
def Params.hdr (p : Params) : Nat := (p.wBL + p.wHR + p.wSeed) / 8

/-- The constraint on `MAX_BITLEN_LOG2` (R7). -/
def Params.capacityLegal (p : Params) : Bool := 6 ≤ p.maxBitLenLog2 && p.maxBitLenLog2 ≤ p.wBL - 1

/-- The constraints on the three field widths (R7). -/
def Params.widthsLegal (p : Params) : Bool :=
  [8, 16, 32, 64].contains p.wBL && [16, 32, 64].contains p.wHR && [8, 16, 32, 64].contains p.wSeed

/-- The constraint on `XFER_BYTES` (R7). -/
def Params.xferLegal (p : Params) : Bool :=
  p.xferBytes % 8 == 0 && p.hdr + 8 * p.capWords ≤ p.xferBytes && p.xferBytes < 2 ^ 32

/-- The constraint on `SIZING_BAND`: `0 <= ε <= 2^-30` (R7). One given by digits is within it. -/
def BandChoice.legal : BandChoice → Bool
  | .ratio num den => den != 0 && num * 2 ^ 30 ≤ den
  | .digits _ => true

/-- Whether the parameters are a configuration of this block (R7, R9). -/
def Params.legal (p : Params) : Bool := p.widthsLegal && p.capacityLegal && p.xferLegal && p.sizingBand.legal

/-- The constant `CAPS` (R31): `XFER_BYTES` in bits 63:32, `W_SEED` in 31:24, `W_HR` in 23:16, `W_BL` in 15:8,
`MAX_BITLEN_LOG2` in 7:0. -/
def Params.caps (p : Params) : Word :=
  (BitVec.ofNat 32 p.xferBytes ++ BitVec.ofNat 8 p.wSeed ++ BitVec.ofNat 8 p.wHR ++ BitVec.ofNat 8 p.wBL
    ++ BitVec.ofNat 8 p.maxBitLenLog2).setWidth 64

/-- `wc = ceil(bitLength / 64)` (R180). -/
def wordCount (bitLen : Nat) : Nat := (bitLen + 63) / 64

/-- `imageLen(bitLength) = HDR + 8 * ceil(bitLength / 64)` (R101). -/
def Params.imageLen (p : Params) (bitLen : Nat) : Nat := p.hdr + 8 * wordCount bitLen

end Sys2Proof
end

