-- ==== Sys2Proof/Machine/State.lean ====
section
/-! DEFINITION. The state of the block (10_state.md R20 to R38) and of its host port, as plain data; the faults and
refusals a step can end in; the state after reset. -/

namespace Sys2Proof.Machine

/-- The filter configuration `CFG` (R21). `BITLEN`, `HROUNDS` and `SEED` are held zero-extended to 64 bits. -/
structure FilterCfg where
  valid : Bool
  bitLen : Word
  hRounds : Word
  seed : Word
  deriving DecidableEq, Repr, Inhabited

/-- The pending-command latch's record (R35). -/
structure Pending where
  cmd : Word
  a0 : Word
  a1 : Word
  a2 : Word
  deriving DecidableEq, Repr, Inhabited

/-- The bytes of `XFER` written since reset, by offset, strictly rising (`Memory.wf`). A byte not listed has no value
of its own: it reads as the draw of R38. -/
abbrev Memory := List Host.Cell

/-- The storage `BV` (R22). Words below `cleared` have been written since `epoch` and hold 0 unless `cells` lists
them; words from `cleared` on read as the draw of R38. -/
structure BitStore where
  epoch : Nat
  cleared : Nat
  cells : List (Nat × Word)
  deriving DecidableEq, Repr, Inhabited

/-- The reason of the sticky FAULT, which a model records (R276). -/
inductive FaultReason where
  /-- a bit index outside `[0, bitLength)` at SetBit or TestBit (R185) -/
  | indexRange
  deriving DecidableEq, Repr

/-- What the outside world does to the block next: one entry of the host port's list. The order of the list is the
interleaving of host and engine (R10, R73). -/
inductive Input where
  /-- the engine agent gets its turn (R96) -/
  | engine
  /-- a host load of `width` bytes at host-bus address `addr` (R61, R62) -/
  | load (addr width : Nat)
  /-- a host store of `width` bytes at host-bus address `addr` (R61, R62) -/
  | store (addr width : Nat) (value : Word)
  /-- the WAIT of R103: read STATUS until BUSY = 0 -/
  | wait
  /-- the `RD OUTLEN -> L ; XRD 0, L` of R104 -/
  | readImage
  /-- the platform resets the block (R300) -/
  | reset
  deriving DecidableEq, Repr

/-- The reasons a run ends in a fault: the two model-only faults of R279. Both are safe: the model stops where the
hardware's response is not specified. `FAULT(INDEX_RANGE)` is hardware state (R276) and no stop. -/
inductive Fault where
  /-- raised by a host access the block does not define: width, alignment, or an address outside both windows (R61,
  R62, R280). Safe. -/
  | hostBusError
  /-- raised by a defined host XFER access while BUSY = 1 (R63), or after that before BUSY = 0 has been read (R311).
  Safe. -/
  | hostRace
  deriving DecidableEq, Repr

/-- The reasons a step is refused. -/
inductive Refusal where
  /-- raised by an arm of exec that has no meaning yet. Safe. -/
  | notModelled (mnemonic : String)
  /-- raised by step where the parameters break a constraint of R7: not a configuration of this block, "and a model
  refuses it" (R9). Safe. -/
  | illegalConfiguration
  /-- raised by a command's meaning where no command is pending: the engine has no enabled step (R35). The step never
  raises it. Safe. -/
  | noCommandPending
  deriving DecidableEq, Repr

/-- The state. The fields from `params` on that the spec does not name as state are the model's own (INVENTORY.md). -/
structure State where
  /-- `CFG` (R21) -/
  cfg : FilterCfg
  /-- `BV` (R22) -/
  bv : BitStore
  /-- `ARG0` (R28) -/
  arg0 : Word
  /-- `ARG1` (R28) -/
  arg1 : Word
  /-- `ARG2` (R28) -/
  arg2 : Word
  /-- `STATUS.BUSY` (R27) -/
  busy : Bool
  /-- `STATUS.RESULT` (R27) -/
  result : Bool
  /-- `STATUS.FAULT` (R27) -/
  fault : Bool
  /-- `STATUS.OVR` (R27) -/
  ovr : Bool
  /-- `STATUS.ERR` (R27) -/
  err : BitVec 8
  /-- `OUTLEN` (R29) -/
  outlen : Word
  /-- `PEND` (R35) -/
  pend : Option Pending
  /-- `XFER` (R34) -/
  xfer : Memory
  /-- the reason a model records with the FAULT bit (R276) -/
  faultReason : Option FaultReason
  /-- the parameters of R7: no step changes them -/
  params : Params
  /-- which reset's draws the unwritten bytes of XFER read as (R38) -/
  xferEpoch : Nat
  /-- a CMD write has been accepted and the host has not read `BUSY = 0` since: the interval of R311 -/
  raceOpen : Bool
  /-- how many draws have been taken -/
  draws : Nat
  /-- what the outside world does next, first entry first (R10, R11) -/
  inbox : List Input
  /-- the values the host's loads returned, newest first (R316) -/
  returned : List Word
  deriving DecidableEq, Repr

/-- The block with parameters `p` right after power-on: every register at its value of R38, `BV` and `XFER` nothing
listed (their contents are draws), nothing in the host port's list. -/
def State.powerOn (p : Params) : State where
  cfg := ⟨false, 0, 0, 0⟩
  bv := ⟨0, 0, []⟩
  arg0 := 0
  arg1 := 0
  arg2 := 0
  busy := false
  result := false
  fault := false
  ovr := false
  err := 0
  outlen := 0
  pend := none
  xfer := []
  faultReason := none
  params := p
  xferEpoch := 0
  raceOpen := false
  draws := 0
  inbox := []
  returned := []

/-- The block of the reference configuration RC right after reset (R38). -/
def State.reset : State := State.powerOn Params.rc

end Sys2Proof.Machine
end

