-- ==== Sys2Proof/Machine/Ops.lean ====
section
/-! DEFINITION. The named operations over the two storages, the fault entry and the reset: the transfer buffer
(10_state.md R34, 20_memory.md R64), the bit vector (42_bitvector.md), FAULT (60_exceptions.md R276) and reset
(70_reset_and_hazards.md R300). -/

namespace Sys2Proof.Machine

/-! The transfer buffer. -/

/-- The canonical form of the transfer buffer: offsets strictly rising. An unlisted byte has no value in the list, so
no entry can equal it. -/
abbrev Memory.wf (m : Memory) : Prop := Cells.Rising m

/-- One byte of `XFER`: the last value written, or the draw of the last reset (R34, R38). -/
def State.xferByte (s : State) (a : Nat) : Byte := (Cells.get? s.xfer a).getD (Config.xferDraw s.xferEpoch a)

/-- `MemRead(XFER, a, n)` (R13). -/
def State.memRead (s : State) (a n : Nat) : List Byte := (List.range n).map fun j => s.xferByte (a + j)

/-- `MemWrite(XFER, a, n, bs)`, `n` the length of `bs` (R13). -/
def State.memWrite (s : State) (a : Nat) (bs : List Byte) : State := { s with xfer := Cells.splice a bs s.xfer }

/-! The bit vector. -/

/-- The canonical form of the bit vector: indices strictly rising, all of written words, no word listed as 0. -/
abbrev BitStore.wf (b : BitStore) : Prop :=
  Cells.Rising b.cells ∧ ∀ c ∈ b.cells, c.1 < b.cleared ∧ c.2 ≠ 0

/-- `BV[j]` (R13, R22). -/
def BitStore.word (b : BitStore) (j : Nat) : Word :=
  match Cells.get? b.cells j with
  | some w => w
  | none => if j < b.cleared then 0 else Config.bvDraw b.epoch j

/-- `BV[j] <- v` for a word written before. -/
def BitStore.put (b : BitStore) (j : Nat) (v : Word) : BitStore :=
  { b with
    cells := if v = 0 then Cells.below j b.cells ++ Cells.onward (j + 1) b.cells else Cells.splice j [v] b.cells }

/-- `for j in 0 .. wc-1: BV[j] <- 0` (R142). -/
def BitStore.clear (b : BitStore) (wc : Nat) : BitStore :=
  { b with cleared := max b.cleared wc, cells := Cells.onward wc b.cells }

/-- `for j in 0 .. wc-1: BV[j] <- ws[j]`, `wc` the length of `ws` (R233, R238). -/
def BitStore.load (b : BitStore) (ws : List Word) : BitStore :=
  { b with
    cleared := max b.cleared ws.length
    cells := (Cells.number 0 ws).filter (fun c => c.2 ≠ 0) ++ Cells.onward ws.length b.cells }

/-- The words `BV[0], ..., BV[wc-1]`. -/
def BitStore.words (b : BitStore) (wc : Nat) : List Word := (List.range wc).map b.word

/-- Bit `i` of the filter: offset `i mod 64` of word `i / 64`, offset `o` of weight `2^o` (R181, R182). -/
def BitStore.bit (b : BitStore) (i : Nat) : Bool := (b.word (i / 64)).getLsbD (i % 64)

/-- `BV[i / 64] <- BV[i / 64] | (1 << (i mod 64))` (R183). -/
def BitStore.orBit (b : BitStore) (i : Nat) : BitStore :=
  b.put (i / 64) (b.word (i / 64) ||| (1#64 <<< (i % 64)))

/-- `SetBit(i)` (R183): none where the contract of R185 is violated, and then the access does not happen. -/
def State.setBit (i : Word) (s : State) : Option State :=
  if s.cfg.bitLen ≤ i then none else some { s with bv := s.bv.orBit i.toNat }

/-- `TestBit(i)` (R184): none where the contract of R185 is violated. -/
def State.testBit (i : Word) (s : State) : Option Bool :=
  if s.cfg.bitLen ≤ i then none else some (s.bv.bit i.toNat)

/-! Draws, the end of a command, the fault and the reset. -/

/-- One draw taken. -/
def State.tick (s : State) : State := { s with draws := s.draws + 1 }

/-- `CFG <- c` and the storage with it: a filter is replaced whole (R142, R238). -/
def State.install (s : State) (c : FilterCfg) (b : BitStore) : State := { s with cfg := c, bv := b }

/-- `PEND <- none; STATUS.BUSY <- 0`: the end of an executed command (R96). -/
def State.retire (s : State) : State := { s with pend := none, busy := false }

/-- `raise FAULT(reason)` (R276): the sticky bit is set and its reason recorded, the command is abandoned, and `CFG`,
`BV`, `STATUS.ERR` and `STATUS.RESULT` are unspecified: each is a free value, `CFG` of its fields' widths. -/
def State.raiseFault (r : FaultReason) (s : State) : State :=
  { s with
    fault := true
    faultReason := some r
    pend := none
    busy := false
    cfg :=
      ⟨Config.faultValid s.draws, truncTo s.params.wBL (Config.faultBitLen s.draws),
        truncTo s.params.wHR (Config.faultHRounds s.draws), truncTo s.params.wSeed (Config.faultSeed s.draws)⟩
    bv := ⟨s.draws + 1, 0, []⟩
    err := Config.faultErr s.draws
    result := Config.faultResult s.draws
    draws := s.draws + 1 }

/-- A reset during a run (R300): every piece of the block's state at its value of R38, the unspecified contents drawn
afresh. The host's own list and what its loads have returned are not the block's and stay. -/
def State.resetBlock (s : State) : State :=
  { State.powerOn s.params with
    bv := ⟨s.draws + 1, 0, []⟩
    xferEpoch := s.draws + 1
    draws := s.draws + 1
    inbox := s.inbox
    returned := s.returned }

end Sys2Proof.Machine
end

