-- ==== Sys2Proof/Machine/Operands.lean ====
section
/-! DEFINITION. Operand assembly (30_encoding.md R94, R97 to R99): every operand of a command, taken from the copies
latched in PEND. -/

namespace Sys2Proof.Machine

/-- A binary64 value (R97): a finite one is `(-1)^neg * mant * 2^(expo - 1075)`, `expo` at least 1. -/
inductive Binary64 where
  | nan
  | infinite (neg : Bool)
  | finite (neg : Bool) (mant expo : Nat)
  deriving DecidableEq, Repr

/-- The value of a bit pattern: sign bit 63, biased exponent bits 62:52, fraction bits 51:0 (R97). -/
def Binary64.ofBits (b : Word) : Binary64 :=
  let neg := b.getLsbD 63
  let expo := (b.toNat / 2 ^ 52) % 2 ^ 11
  let frac := b.toNat % 2 ^ 52
  if expo = 2047 then (if frac = 0 then .infinite neg else .nan)
  else if expo = 0 then .finite neg frac 1
  else .finite neg (2 ^ 52 + frac) expo

/-- A probability strictly between 0 and 1: the real number `mant / 2^scale`. For `mant ≠ 0`, `log2 mant < scale` says
`mant < 2^scale`. -/
structure Probability where
  mant : Nat
  scale : Nat
  pos : mant ≠ 0
  below : mant.log2 < scale
  deriving DecidableEq, Repr

/-- The real number a probability denotes (R14, R97). -/
noncomputable def Probability.toReal (p : Probability) : ℝ := p.mant / 2 ^ p.scale

theorem Probability.toReal_mem (p : Probability) : 0 < p.toReal ∧ p.toReal < 1 := by
  have hlt : p.mant < 2 ^ p.scale := (Nat.log2_lt p.pos).1 p.below
  unfold Probability.toReal
  constructor
  · exact div_pos (by exact_mod_cast Nat.pos_of_ne_zero p.pos) (by positivity)
  · rw [div_lt_one (by positivity)]
    exact_mod_cast hlt

/-- The probability check (R121): a finite real strictly between 0 and 1. -/
def probabilityOf (b : Word) : Option Probability :=
  match Binary64.ofBits b with
  | .nan => none
  | .infinite _ => none
  | .finite neg mant expo =>
    if neg then none
    else if h : mant ≠ 0 ∧ mant.log2 < 1075 - expo then some ⟨mant, 1075 - expo, h.1, h.2⟩ else none

/-- The item count (R122): 0 is sized as 1. -/
def itemCount (nIn : Word) : Nat := if nIn = 0 then 1 else nIn.toNat

/-- The seed operand of `NEW.S`: `trunc_{W_SEED}(a2)` (R98). -/
def seedOperand (p : Params) (q : Pending) : Word := truncTo p.wSeed q.a2

/-- The seed of `NEW`: a draw of `W_SEED` bits (R98, R287). -/
def seedDraw (p : Params) (draw : Nat) : Word := truncTo p.wSeed (Config.entropy draw)

/-- A length operand that the transfer buffer can hold (R94); a greater one is `BAD_LENGTH`. -/
def lengthOk (p : Params) (a0 : Word) : Bool := a0.toNat ≤ p.xferBytes

/-- The key, or the image, of length `a0` at offset 0 of `XFER` (R94, R99). -/
def State.operandBytes (s : State) (a0 : Word) : List Byte := s.memRead 0 a0.toNat

end Sys2Proof.Machine
end

