-- ==== Sys2Proof/Machine/Interval.lean ====
section
/-! DEFINITION. Real numbers decided by enclosure (40_sizing.md R129: "by interval arithmetic on ln(p) and ln(2), refining
until ceil(x) and round(t) are determined"): intervals that enclose the logarithms, as tight as asked; the two integer
roundings; and the refinement, whose result is exact by its type. The proofs that the intervals enclose stand here
because the refinement carries them. -/

namespace Sys2Proof.Machine

/-- An interval of natural numbers, both ends included. -/
structure Span where
  lo : Nat
  hi : Nat
  deriving DecidableEq, Repr

/-! Logarithms, at precision `q`: scaled by `2^(256 (q+1))`, from `ln((v+u)/(v-u)) = 2 Σ (u/v)^(2k+1)/(2k+1)`, of which
`96 (q+1)` terms. -/

/-- The scale of precision `q`. -/
def unit (q : Nat) : Nat := 2 ^ (256 * (q + 1))

/-- The first `k` terms of the series, scaled, each rounded down, summed. -/
def seriesSum (q u v : Nat) : Nat → Nat
  | 0 => 0
  | k + 1 => seriesSum q u v k + unit q * u ^ (2 * k + 1) / ((2 * k + 1) * v ^ (2 * k + 1))

/-- Encloses the scaled `ln((v+u)/(v-u))` for `3u <= v`: a rounding of less than 1 a term, and a tail of less than 1. -/
def lnSpan (q u v : Nat) : Span :=
  ⟨2 * seriesSum q u v (96 * (q + 1)), 2 * (seriesSum q u v (96 * (q + 1)) + (96 * (q + 1) + 1))⟩

/-- Encloses the scaled `ln 2`. -/
def ln2Span (q : Nat) : Span := lnSpan q 1 3

/-- Encloses the scaled `-ln p`: with `mant = 2^b (1 + f)`, `-ln p = (scale - b) ln 2 - ln(mant / 2^b)`. -/
def negLnSpan (q : Nat) (p : Probability) : Span :=
  let b := p.mant.log2
  let f := lnSpan q (p.mant - 2 ^ b) (p.mant + 2 ^ b)
  ⟨(p.scale - b) * (ln2Span q).lo - f.hi, (p.scale - b) * (ln2Span q).hi - f.lo⟩

theorem unit_cast (q : Nat) : (unit q : ℝ) = 2 ^ (256 * (q + 1)) := by
  rw [unit, Nat.cast_pow, Nat.cast_ofNat]

theorem unit_pos (q : Nat) : (0 : ℝ) < unit q := by rw [unit_cast]; exact pow_pos (by norm_num) _

/-- The rounded partial sum lies within one unit a term of the exact one. -/
theorem seriesSum_bounds (q u v : Nat) (hv : 0 < v) (k : Nat) :
    (seriesSum q u v k : ℝ) ≤ unit q * ∑ j ∈ Finset.range k, 1 / (2 * (j : ℝ) + 1) * ((u : ℝ) / v) ^ (2 * j + 1) ∧
    unit q * ∑ j ∈ Finset.range k, 1 / (2 * (j : ℝ) + 1) * ((u : ℝ) / v) ^ (2 * j + 1) ≤ seriesSum q u v k + k := by
  induction k with
  | zero =>
    simp only [seriesSum, Finset.range_zero, Finset.sum_empty, mul_zero, Nat.cast_zero, add_zero, le_refl, and_self]
  | succ k ih =>
    have hv' : (0 : ℝ) < v := by exact_mod_cast hv
    have hd : 0 < (2 * k + 1) * v ^ (2 * k + 1) := Nat.mul_pos (by omega) (Nat.pow_pos hv)
    rw [Finset.sum_range_succ, mul_add, seriesSum]
    generalize unit q = w at ih ⊢
    have e : (w : ℝ) * (1 / (2 * (k : ℝ) + 1) * ((u : ℝ) / v) ^ (2 * k + 1)) =
        ((w * u ^ (2 * k + 1) : Nat) : ℝ) / ((2 * k + 1) * v ^ (2 * k + 1) : Nat) := by
      push_cast
      rw [div_pow]
      field_simp
    have h1 := @Nat.cast_div_le ℝ _ _ _ (w * u ^ (2 * k + 1)) ((2 * k + 1) * v ^ (2 * k + 1))
    have h2 : ((w * u ^ (2 * k + 1) : Nat) : ℝ) / ((2 * k + 1) * v ^ (2 * k + 1) : Nat) ≤
        (w * u ^ (2 * k + 1) / ((2 * k + 1) * v ^ (2 * k + 1)) : Nat) + 1 := by
      rw [div_le_iff₀ (by exact_mod_cast hd)]
      have := Nat.lt_div_mul_add (a := w * u ^ (2 * k + 1)) hd
      have h3 : w * u ^ (2 * k + 1) ≤
          (w * u ^ (2 * k + 1) / ((2 * k + 1) * v ^ (2 * k + 1)) + 1) * ((2 * k + 1) * v ^ (2 * k + 1)) := by
        rw [Nat.add_mul, Nat.one_mul]
        omega
      exact_mod_cast h3
    rw [e, Nat.cast_add, Nat.cast_succ]
    constructor
    · linarith [ih.1]
    · linarith [ih.2]

/-- The tail of the series is below one unit. -/
theorem tail_small (q : Nat) : (unit q : ℝ) * (2 * (1 / 3 : ℝ) ^ (2 * (96 * (q + 1)) + 1) * (1 - 1 / 9)⁻¹) ≤ 1 := by
  have e : (unit q : ℝ) * (2 * (1 / 3 : ℝ) ^ (2 * (96 * (q + 1)) + 1) * (1 - 1 / 9)⁻¹) =
      (2 ^ 256 * (1 / 3) ^ 192) ^ (q + 1) * (3 / 4) := by
    rw [unit_cast, pow_succ, show 2 * (96 * (q + 1)) = 192 * (q + 1) by ring, pow_mul, pow_mul, mul_pow]
    ring
  rw [e]
  have h : (2 ^ 256 * (1 / 3) ^ 192 : ℝ) ^ (q + 1) ≤ 1 := pow_le_one₀ (by positivity) (by norm_num)
  linarith

/-- The interval encloses the scaled `ln((v + u) / (v - u))`. -/
theorem lnSpan_encloses (q : Nat) {u v : Nat} (hv : 0 < v) (h : 3 * u ≤ v) :
    ((lnSpan q u v).lo : ℝ) ≤ unit q * Real.log (((v : ℝ) + u) / (v - u)) ∧
    unit q * Real.log (((v : ℝ) + u) / (v - u)) ≤ (lnSpan q u v).hi := by
  have hv' : (0 : ℝ) < v := by exact_mod_cast hv
  have hu' : (0 : ℝ) ≤ u := Nat.cast_nonneg u
  have h' : 3 * (u : ℝ) ≤ v := by exact_mod_cast h
  set x : ℝ := (u : ℝ) / v with hx
  have x0 : 0 ≤ x := div_nonneg hu' hv'.le
  have x1 : x ≤ 1 / 3 := by rw [hx, div_le_iff₀ hv']; linarith
  have hs := Real.hasSum_log_sub_log_of_abs_lt_one (x := x) (by rw [abs_of_nonneg x0]; linarith)
  have hlog : Real.log (((v : ℝ) + u) / (v - u)) = Real.log (1 + x) - Real.log (1 - x) := by
    rw [← Real.log_div (by linarith) (by linarith)]
    congr 1
    rw [hx, div_eq_div_iff (by linarith) (by rw [one_sub_div hv'.ne']; exact (div_pos (by linarith) hv').ne')]
    field_simp
  have hterm : ∀ j : ℕ, 2 * (1 / (2 * (j : ℝ) + 1)) * x ^ (2 * j + 1) = 2 * (1 / (2 * (j : ℝ) + 1) * x ^ (2 * j + 1)) :=
    fun j => by ring
  have hnn : ∀ j : ℕ, 0 ≤ 2 * (1 / (2 * (j : ℝ) + 1)) * x ^ (2 * j + 1) := fun j => by positivity
  have hb := seriesSum_bounds q u v hv (96 * (q + 1))
  have ht := tail_small q
  have hw := unit_pos q
  rw [hlog, lnSpan]
  generalize 96 * (q + 1) = k at hb ht ⊢
  generalize (unit q : ℝ) = w at hb ht hw ⊢
  constructor
  · have := sum_le_hasSum (Finset.range k) (fun j _ => hnn j) hs
    rw [Finset.sum_congr rfl (fun j _ => hterm j), ← Finset.mul_sum] at this
    simp only [Nat.cast_mul, Nat.cast_ofNat]
    nlinarith [hb.1, mul_le_mul_of_nonneg_left this hw.le]
  · have htail := (hasSum_nat_add_iff' k).2 hs
    have hgeo : HasSum (fun j : ℕ => 2 * (1 / 3 : ℝ) ^ (2 * k + 1) * (1 / 9) ^ j)
        (2 * (1 / 3 : ℝ) ^ (2 * k + 1) * (1 - 1 / 9)⁻¹) :=
      (hasSum_geometric_of_lt_one (by norm_num) (by norm_num)).mul_left _
    have hle := hasSum_le (fun j => ?_) htail hgeo
    · rw [Finset.sum_congr rfl (fun j _ => hterm j), ← Finset.mul_sum] at hle
      have h2 := hb.2
      push_cast
      nlinarith [mul_le_mul_of_nonneg_left hle hw.le]
    · have e1 : (1 / 3 : ℝ) ^ (2 * k + 1) * (1 / 9) ^ j = (1 / 3) ^ (2 * (j + k) + 1) := by
        rw [show (1 / 9 : ℝ) = (1 / 3) ^ 2 by norm_num, ← pow_mul, ← pow_add]
        congr 1
        ring
      have e2 : x ^ (2 * (j + k) + 1) ≤ (1 / 3) ^ (2 * (j + k) + 1) := pow_le_pow_left₀ x0 x1 _
      have e3 : 1 / (2 * ((j + k : ℕ) : ℝ) + 1) ≤ 1 := by
        rw [div_le_one (by positivity)]
        have : (0 : ℝ) ≤ ((j + k : ℕ) : ℝ) := Nat.cast_nonneg _
        linarith
      calc 2 * (1 / (2 * ((j + k : ℕ) : ℝ) + 1)) * x ^ (2 * (j + k) + 1)
          ≤ 2 * 1 * x ^ (2 * (j + k) + 1) :=
            mul_le_mul_of_nonneg_right (mul_le_mul_of_nonneg_left e3 (by norm_num)) (pow_nonneg x0 _)
        _ ≤ 2 * 1 * (1 / 3) ^ (2 * (j + k) + 1) := mul_le_mul_of_nonneg_left e2 (by norm_num)
        _ = 2 * (1 / 3) ^ (2 * k + 1) * (1 / 9) ^ j := by rw [mul_assoc 2 ((1 / 3 : ℝ) ^ (2 * k + 1)), e1]; ring

/-- A partial sum of at least one term holds the first. -/
theorem seriesSum_pos (q k : Nat) : 0 < seriesSum q 1 3 (k + 1) := by
  induction k with
  | zero =>
    have : 3 ≤ unit q := le_trans (by norm_num) (Nat.pow_le_pow_right (n := 2) (by omega) (show 2 ≤ 256 * (q + 1) by omega))
    simp only [seriesSum]
    omega
  | succ k ih => exact Nat.add_pos_left ih _

/-- The interval encloses the scaled `ln 2`, and is away from 0. -/
theorem ln2Span_encloses (q : Nat) :
    ((ln2Span q).lo : ℝ) ≤ unit q * Real.log 2 ∧ unit q * Real.log 2 ≤ (ln2Span q).hi ∧ 0 < (ln2Span q).lo := by
  have h := lnSpan_encloses q (u := 1) (v := 3) (by omega) (by omega)
  have e : (((3 : ℕ) : ℝ) + (1 : ℕ)) / ((3 : ℕ) - (1 : ℕ)) = 2 := by norm_num
  rw [e] at h
  refine ⟨h.1, h.2, ?_⟩
  have := seriesSum_pos q (96 * (q + 1) - 1)
  rw [Nat.sub_add_cancel (by omega)] at this
  simp only [ln2Span, lnSpan]
  omega

/-- The lower end of a difference of intervals, cut off at 0. -/
theorem span_lo {c t f : Nat} {w y z : ℝ} (hw : 0 ≤ w) (hneg : 0 ≤ c * z - y) (h1 : (t : ℝ) ≤ w * z)
    (h2 : w * y ≤ f) : ((c * t - f : ℕ) : ℝ) ≤ w * (c * z - y) := by
  rcases Nat.le_total f (c * t) with g | g
  · rw [Nat.cast_sub g, Nat.cast_mul]
    have := mul_le_mul_of_nonneg_left h1 (Nat.cast_nonneg (α := ℝ) c)
    linarith
  · rw [Nat.sub_eq_zero_of_le g, Nat.cast_zero]
    exact mul_nonneg hw hneg

/-- The upper end of a difference of intervals, cut off at 0. -/
theorem span_hi {c t f : Nat} {w y z : ℝ} (h1 : w * z ≤ t) (h2 : (f : ℝ) ≤ w * y) :
    w * (c * z - y) ≤ ((c * t - f : ℕ) : ℝ) := by
  have hs : ((c * t : ℕ) : ℝ) ≤ ((c * t - f + f : ℕ) : ℝ) := Nat.cast_le.2 (by omega)
  rw [Nat.cast_add, Nat.cast_mul] at hs
  have := mul_le_mul_of_nonneg_left h1 (Nat.cast_nonneg (α := ℝ) c)
  linarith

/-- The interval encloses the scaled `-ln p`. -/
theorem negLnSpan_encloses (q : Nat) (p : Probability) :
    ((negLnSpan q p).lo : ℝ) ≤ unit q * -Real.log p.toReal ∧ unit q * -Real.log p.toReal ≤ (negLnSpan q p).hi := by
  have ha := Nat.log2_self_le p.pos
  have hb := Nat.lt_log2_self (n := p.mant)
  have h1 := p.below
  have hneg : 0 ≤ -Real.log p.toReal := by linarith [Real.log_neg p.toReal_mem.1 p.toReal_mem.2]
  set b := p.mant.log2 with hbd
  have h2b : 0 < 2 ^ b := Nat.two_pow_pos b
  have hf := lnSpan_encloses q (u := p.mant - 2 ^ b) (v := p.mant + 2 ^ b) (by omega)
    (by rw [Nat.pow_succ] at hb; omega)
  have hm : (0 : ℝ) < p.mant := by exact_mod_cast Nat.pos_of_ne_zero p.pos
  have e : (((p.mant + 2 ^ b : ℕ) : ℝ) + (p.mant - 2 ^ b : ℕ)) / ((p.mant + 2 ^ b : ℕ) - (p.mant - 2 ^ b : ℕ)) =
      p.mant / 2 ^ b := by
    rw [Nat.cast_sub ha]
    push_cast
    rw [show (p.mant : ℝ) + 2 ^ b + (p.mant - 2 ^ b) = 2 * p.mant by ring,
      show (p.mant : ℝ) + 2 ^ b - (p.mant - 2 ^ b) = 2 * 2 ^ b by ring]
    exact mul_div_mul_left _ _ (by norm_num)
  rw [e] at hf
  obtain ⟨l1, l2, -⟩ := ln2Span_encloses q
  have hlog : -Real.log p.toReal = ((p.scale - b : ℕ) : ℝ) * Real.log 2 - Real.log (p.mant / 2 ^ b) := by
    rw [Probability.toReal, Real.log_div hm.ne' (by positivity), Real.log_div hm.ne' (by positivity), Real.log_pow,
      Real.log_pow, Nat.cast_sub (by omega)]
    ring
  rw [hlog] at hneg ⊢
  exact ⟨span_lo (unit_pos q).le hneg l1 hf.2, span_hi l2 hf.1⟩

/-! Roundings. -/

/-- Division rounded up. -/
def ceilDiv (a b : Nat) : Nat := (a + b - 1) / b

/-- `round(a / b)`, a half rounding away from zero (R14). -/
def roundDiv (a b : Nat) : Nat := (2 * a + b) / (2 * b)

/-- Division rounded up is the ceiling of the quotient. -/
theorem ceilDiv_eq (a b : Nat) : ceilDiv a b = ⌈(a : ℝ) / b⌉₊ := by
  rcases Nat.eq_zero_or_pos b with rfl | hb
  · simp [ceilDiv]
  have hb' : (0 : ℝ) < b := by exact_mod_cast hb
  refine le_antisymm ?_ (Nat.ceil_le.2 ?_)
  · unfold ceilDiv
    have h : (a : ℝ) ≤ ⌈(a : ℝ) / b⌉₊ * b := by rw [← div_le_iff₀ hb']; exact Nat.le_ceil _
    have h' : a ≤ ⌈(a : ℝ) / b⌉₊ * b := by exact_mod_cast h
    rw [Nat.le_iff_lt_add_one, Nat.div_lt_iff_lt_mul hb, Nat.add_mul, Nat.one_mul]
    omega
  · rw [div_le_iff₀ hb']
    have : a ≤ ceilDiv a b * b := by
      unfold ceilDiv
      have := Nat.lt_div_mul_add (a := a + b - 1) hb
      omega
    exact_mod_cast this

/-- Rounded division is the floor of the quotient plus a half: the nearest integer, a half rounding up. -/
theorem roundDiv_eq (a b : Nat) : roundDiv a b = ⌊(a : ℝ) / b + 1 / 2⌋₊ := by
  rcases Nat.eq_zero_or_pos b with rfl | hb
  · norm_num [roundDiv]
  have hb' : (0 : ℝ) < b := by exact_mod_cast hb
  have e : (a : ℝ) / b + 1 / 2 = ((2 * a + b : ℕ) : ℝ) / ((2 * b : ℕ) : ℝ) := by
    push_cast
    field_simp
  rw [e, Nat.floor_div_eq_div]
  rfl

/-! The refinement. -/

/-- Enclosures of the number that `P` names: `e 0`, `e 1`, … -/
abbrev Encloses (P : Nat → Prop) (e : Nat → Span) : Prop := ∀ q m, P m → (e q).lo ≤ m ∧ m ≤ (e q).hi

/-- An enclosure with one member is the number. -/
theorem Encloses.eq {P : Nat → Prop} {e : Nat → Span} (h : Encloses P e) (hP : Nonempty {m : Nat // P m}) {q : Nat}
    (d : (e q).lo = (e q).hi) : P (e q).lo := by
  obtain ⟨m, hm⟩ := hP
  have := h q m hm
  rwa [show (e q).lo = m by omega]

/-- The number, from the first precision from `q` on that determines it. It is that number by its type even where no
precision did, so the recursion needs no bound. -/
def refine {P : Nat → Prop} [hP : Nonempty {m : Nat // P m}] {e : Nat → Span} (h : Encloses P e) (q : Nat) :
    {m : Nat // P m} :=
  if d : (e q).lo = (e q).hi then ⟨(e q).lo, h.eq hP d⟩ else refine h (q + 1)
partial_fixpoint

/-- The number, with the first precision tried apart: where that determines it, this evaluates by arithmetic alone. -/
def determine {P : Nat → Prop} [hP : Nonempty {m : Nat // P m}] {e : Nat → Span} (h : Encloses P e) : {m : Nat // P m} :=
  if d : (e 0).lo = (e 0).hi then ⟨(e 0).lo, h.eq hP d⟩ else refine h 1

end Sys2Proof.Machine
end

