-- ==== Sys2Proof/Machine/Band.lean ====
section
/-! DEFINITION. `SIZING_BAND` as a real number (00_scope.md R7), and enclosures of the two factors `1 - ε` and `1 + ε` of
40_sizing.md R131, as tight as asked. -/

namespace Sys2Proof.Machine

/-- A quotient known up to its numerator: between `lo / den` and `hi / den`. -/
structure Ratio where
  lo : Nat
  hi : Nat
  den : Nat
  deriving DecidableEq, Repr

/-- The quotient may be `x`. -/
abbrev Ratio.Holds (r : Ratio) (x : ℝ) : Prop := (r.lo : ℝ) / r.den ≤ x ∧ x ≤ (r.hi : ℝ) / r.den

theorem Ratio.Holds.nonneg {r : Ratio} {x : ℝ} (h : r.Holds x) : 0 ≤ x :=
  (div_nonneg (Nat.cast_nonneg _) (Nat.cast_nonneg _)).trans h.1

/-- The two ends of the tie band. -/
inductive Edge where
  | lower
  | upper
  deriving DecidableEq, Repr

/-- `2^-30` times the number with these binary digits after the point. -/
noncomputable def bandOfDigits (d : Nat → Fin 2) : ℝ := Real.ofDigits d / 2 ^ 30

/-- The first `k` digits, as a natural number. -/
def digitPrefix (d : Nat → Fin 2) : Nat → Nat
  | 0 => 0
  | k + 1 => 2 * digitPrefix d k + d k

theorem digitPrefix_lt (d : Nat → Fin 2) (k : Nat) : digitPrefix d k < 2 ^ k := by
  induction k with
  | zero => exact Nat.one_pos
  | succ k ih =>
    have := (d k).isLt
    rw [digitPrefix, Nat.pow_succ]
    omega

/-- The sum of the first `k` places. -/
theorem digitPrefix_eq (d : Nat → Fin 2) (k : Nat) :
    ∑ i ∈ Finset.range k, Real.ofDigitsTerm d i = (digitPrefix d k : ℝ) / 2 ^ k := by
  induction k with
  | zero => simp [digitPrefix]
  | succ k ih =>
    rw [Finset.sum_range_succ, ih, digitPrefix, Real.ofDigitsTerm]
    push_cast
    field_simp
    ring

/-- The first `k` digits give the number up to one unit of the last place. -/
theorem digitPrefix_bounds (d : Nat → Fin 2) (k : Nat) :
    (digitPrefix d k : ℝ) / 2 ^ (30 + k) ≤ bandOfDigits d ∧
    bandOfDigits d ≤ ((digitPrefix d k + 1 : ℕ) : ℝ) / 2 ^ (30 + k) := by
  have h := Real.ofDigits_eq_sum_add_ofDigits d k
  have h0 := Real.ofDigits_nonneg fun i => d (i + k)
  have h1 := Real.ofDigits_le_one fun i => d (i + k)
  rw [digitPrefix_eq] at h
  have e : bandOfDigits d = (digitPrefix d k + Real.ofDigits fun i => d (i + k)) / 2 ^ (30 + k) := by
    rw [bandOfDigits, h, pow_add]
    push_cast
    field_simp
  rw [e]
  push_cast
  constructor <;> gcongr
  exact le_add_of_nonneg_right h0

end Sys2Proof.Machine

namespace Sys2Proof

open Machine

/-- `ε` (R7). -/
noncomputable def BandChoice.toReal : BandChoice → ℝ
  | .ratio num den => num / den
  | .digits id => bandOfDigits (Config.bandDigit id)

/-- An edge of the tie band as a factor: `1 - ε` or `1 + ε` (R131). The difference of naturals is exact for a legal
band. -/
noncomputable def BandChoice.factor : BandChoice → Edge → ℝ
  | .ratio num den, .lower => ((den - num : ℕ) : ℝ) / den
  | .ratio num den, .upper => ((den + num : ℕ) : ℝ) / den
  | .digits id, .lower => 1 - bandOfDigits (Config.bandDigit id)
  | .digits id, .upper => 1 + bandOfDigits (Config.bandDigit id)

/-- Encloses the factor, with `256 (q + 1)` of the digits at precision `q`. -/
def BandChoice.factorSpan (b : BandChoice) (e : Edge) (q : Nat) : Ratio :=
  let k := 256 * (q + 1)
  match b, e with
  | .ratio num den, .lower => ⟨den - num, den - num, den⟩
  | .ratio num den, .upper => ⟨den + num, den + num, den⟩
  | .digits id, .lower =>
    let s := digitPrefix (Config.bandDigit id) k
    ⟨2 ^ (30 + k) - (s + 1), 2 ^ (30 + k) - s, 2 ^ (30 + k)⟩
  | .digits id, .upper =>
    let s := digitPrefix (Config.bandDigit id) k
    ⟨2 ^ (30 + k) + s, 2 ^ (30 + k) + (s + 1), 2 ^ (30 + k)⟩

theorem BandChoice.factorSpan_holds (b : BandChoice) (e : Edge) (q : Nat) : (b.factorSpan e q).Holds (b.factor e) := by
  cases b with
  | ratio num den => cases e <;> exact ⟨le_rfl, le_rfl⟩
  | digits id =>
    cases e <;> simp only [factorSpan, factor, Ratio.Holds] <;> generalize 256 * (q + 1) = k <;>
      generalize Config.bandDigit id = d <;> obtain ⟨h0, h1⟩ := digitPrefix_bounds d k
    · have hp : 2 ^ k ≤ 2 ^ (30 + k) := Nat.pow_le_pow_right (by omega) (by omega)
      have hs := digitPrefix_lt d k
      rw [Nat.cast_sub (by omega), Nat.cast_sub (by omega), sub_div, sub_div]
      push_cast at h1 ⊢
      rw [div_self (by positivity)]
      constructor <;> linarith
    · rw [Nat.cast_add, Nat.cast_add, add_div, add_div]
      push_cast at h1 ⊢
      rw [div_self (by positivity)]
      constructor <;> linarith

end Sys2Proof
end

