-- ==== Sys2Proof/Machine/Flags.lean ====
section
/-! DEFINITION. STATUS: its error codes, its word, and the three things that write it: a command's report, the
acceptance of a CMD write, and the end of a command (10_state.md R27, 30_encoding.md R95, 60_exceptions.md R270,
R271). -/

namespace Sys2Proof.Machine

/-- The error codes a command can report (R270). -/
inductive ErrorCode where
  | ok
  | invalidParameter
  | decodeError
  | noFilter
  | capacityExceeded
  | illegalCommand
  | badLength
  deriving DecidableEq, Repr

/-- The numeric value of an error code (R270). -/
def ErrorCode.code : ErrorCode → BitVec 8
  | .ok => 0
  | .invalidParameter => 1
  | .decodeError => 2
  | .noFilter => 3
  | .capacityExceeded => 4
  | .illegalCommand => 5
  | .badLength => 6

/-- The value of `STATUS` (R27): bits 63:16 are 0, `ERR` in 15:8, bits 7:5 are 0, `OVR` bit 4, `FAULT` bit 3,
`RESULT` bit 2, `VALID` bit 1 (a view of `CFG.VALID`), `BUSY` bit 0. -/
def State.status (s : State) : Word :=
  (0#48 ++ s.err ++ 0#3 ++ BitVec.ofBool s.ovr ++ BitVec.ofBool s.fault ++ BitVec.ofBool s.result
    ++ BitVec.ofBool s.cfg.valid ++ BitVec.ofBool s.busy).setWidth 64

/-- The end of an executed command: `STATUS.ERR <- e`, `STATUS.RESULT <- r` (R271). -/
def State.report (e : ErrorCode) (r : Bool) (s : State) : State := { s with err := e.code, result := r }

/-- `raise ERR(e)`: RESULT is 0 and nothing else changes (R13, R271). -/
def State.fail (e : ErrorCode) (s : State) : State := s.report e false

/-- The acceptance of a host write of `v` to CMD (R95). It decodes nothing. An accepted one opens the interval of R311. -/
def State.acceptCmd (v : Word) (s : State) : State :=
  if s.fault then s
  else if s.busy then { s with ovr := true }
  else { s with pend := some ⟨v, s.arg0, s.arg1, s.arg2⟩, busy := true, ovr := false, raceOpen := true }

end Sys2Proof.Machine
end

