-- ==== Sys2Proof/Machine/Sizing.lean ====
section
/-! DEFINITION. The sizing calculator (40_sizing.md R120 to R131), over the exact reals: each rounding of a real number is
the one its type names, found by refining an enclosure (R129, Interval.lean). Under a SIZING_BAND the result is a draw
among the admitted ones (R131). -/

namespace Sys2Proof.Machine

/-- `x = -(n * ln(p)) / (ln(2))^2` (R123). -/
noncomputable def idealBits (n : Nat) (p : ℝ) : ℝ := -(n * Real.log p) / Real.log 2 ^ 2

/-- `t = (bitLength / n) * ln(2)`, with real division (R127). -/
noncomputable def idealRounds (n bitLen : Nat) : ℝ := bitLen / n * Real.log 2

/-- Encloses `ceil(x * y)`, for the factor `y` that an edge of the tie band is. -/
def bitsSpan (b : BandChoice) (e : Edge) (n : Nat) (p : Probability) (q : Nat) : Span :=
  let r := b.factorSpan e q
  ⟨ceilDiv (n * (negLnSpan q p).lo * unit q * r.lo) ((ln2Span q).hi * (ln2Span q).hi * r.den),
    ceilDiv (n * (negLnSpan q p).hi * unit q * r.hi) ((ln2Span q).lo * (ln2Span q).lo * r.den)⟩

theorem bitsSpan_encloses (b : BandChoice) (e : Edge) (n : Nat) (p : Probability) :
    Encloses (fun m => m = ⌈idealBits n p.toReal * b.factor e⌉₊) (bitsSpan b e n p) := by
  rintro q m rfl
  obtain ⟨a1, a2⟩ := negLnSpan_encloses q p
  obtain ⟨b1, b2, b3⟩ := ln2Span_encloses q
  have b3' : (0 : ℝ) < (ln2Span q).lo := by exact_mod_cast b3
  have hw := unit_pos q
  have hr := b.factorSpan_holds e q
  simp only [bitsSpan, ceilDiv_eq]
  generalize negLnSpan q p = s at a1 a2 ⊢
  generalize ln2Span q = t at b1 b2 b3' ⊢
  generalize b.factorSpan e q = r at hr ⊢
  push_cast
  generalize (unit q : ℝ) = w at a1 a2 b1 b2 hw ⊢
  have hL : 0 < Real.log 2 := Real.log_pos (by norm_num)
  have ex : idealBits n p.toReal = n * (w * -Real.log p.toReal) * w / (w * Real.log 2 * (w * Real.log 2)) := by
    unfold idealBits
    field_simp
  rw [ex]
  have ht : 0 < w * Real.log 2 := mul_pos hw hL
  generalize w * Real.log 2 = z at b1 b2 ht ⊢
  generalize w * -Real.log p.toReal = v at a1 a2 ⊢
  have hs : (0 : ℝ) ≤ s.lo := Nat.cast_nonneg _
  have hv : 0 ≤ v := hs.trans a1
  rw [mul_div_mul_comm _ (r.lo : ℝ), mul_div_mul_comm _ (r.hi : ℝ)]
  constructor <;> refine Nat.ceil_mono (mul_le_mul (div_le_div₀ ?_ ?_ ?_ ?_) ?_ ?_ ?_)
  all_goals first | exact hr.1 | exact hr.2 | exact hr.nonneg | positivity | gcongr

/-- `ceil(x * y)`, exactly (R123, R129, R131). -/
def bitsAt (b : BandChoice) (e : Edge) (n : Nat) (p : Probability) :
    {m : Nat // m = ⌈idealBits n p.toReal * b.factor e⌉₊} :=
  determine (bitsSpan_encloses b e n p)

/-- Encloses `round(t * y)`, for the factor `y` that an edge of the tie band is. -/
def turnsSpan (b : BandChoice) (e : Edge) (n bitLen q : Nat) : Span :=
  let r := b.factorSpan e q
  ⟨roundDiv (bitLen * (ln2Span q).lo * r.lo) (n * unit q * r.den),
    roundDiv (bitLen * (ln2Span q).hi * r.hi) (n * unit q * r.den)⟩

theorem turnsSpan_encloses (b : BandChoice) (e : Edge) (n bitLen : Nat) :
    Encloses (fun k => k = ⌊idealRounds n bitLen * b.factor e + 1 / 2⌋₊) (turnsSpan b e n bitLen) := by
  rintro q m rfl
  obtain ⟨b1, b2, -⟩ := ln2Span_encloses q
  have hw := unit_pos q
  have hr := b.factorSpan_holds e q
  simp only [turnsSpan, roundDiv_eq]
  generalize ln2Span q = t at b1 b2 ⊢
  generalize b.factorSpan e q = r at hr ⊢
  push_cast
  generalize (unit q : ℝ) = w at b1 b2 hw ⊢
  have ex : idealRounds n bitLen = bitLen * (w * Real.log 2) / (n * w) := by
    unfold idealRounds
    field_simp
  rw [ex]
  have ht : 0 ≤ w * Real.log 2 := mul_nonneg hw.le (Real.log_nonneg (by norm_num))
  generalize w * Real.log 2 = z at b1 b2 ht ⊢
  rw [mul_div_mul_comm _ (r.lo : ℝ), mul_div_mul_comm _ (r.hi : ℝ)]
  constructor <;> refine Nat.floor_mono (add_le_add (mul_le_mul ?_ ?_ ?_ ?_) le_rfl)
  all_goals first | exact hr.1 | exact hr.2 | exact hr.nonneg | positivity | gcongr

/-- `round(t * y)`, exactly, a half rounding away from zero (R14, R127, R129, R131). -/
def roundsAt (b : BandChoice) (e : Edge) (n bitLen : Nat) :
    {k : Nat // k = ⌊idealRounds n bitLen * b.factor e + 1 / 2⌋₊} :=
  determine (turnsSpan_encloses b e n bitLen)

/-- The admitted `m_raw`: `ceil(y)` for `y` in `x (1 - ε) .. x (1 + ε)`; `ceil(x)` alone for `ε = 0` (R123, R131). -/
def mRawSpan (c : Params) (n : Nat) (p : Probability) : Span :=
  ⟨bitsAt c.sizingBand .lower n p, bitsAt c.sizingBand .upper n p⟩

/-- The admitted `hashRounds`: `max(1, round(u))` for `u` in `t (1 - ε) .. t (1 + ε)` (R127, R131). -/
def roundsSpan (c : Params) (n bitLen : Nat) : Span :=
  ⟨max 1 (roundsAt c.sizingBand .lower n bitLen).val,
    max 1 (roundsAt c.sizingBand .upper n bitLen).val⟩

/-- The member of a span that the draw `d` selects; no draw is needed where there is one member. -/
def Span.pick (r : Span) (d : Nat) : Nat := if r.hi ≤ r.lo then r.lo else r.lo + d % (r.hi - r.lo + 1)

/-- `pow2ceil(m)`: the smallest power of two that is at least `m` (R125). -/
def pow2ceil (m : Nat) : Nat := if m ≤ 1 then 1 else 2 ^ ((m - 1).log2 + 1)

/-- The zero clamp (R126). -/
def clampZero (bitLen : Nat) : Nat := if bitLen = 0 then 64 else bitLen

/-- `Size(nIn, pBits)` (R120 to R131): the errors in the order of R130, else `bitLength` and `hashRounds`. `draw` numbers
the draws it may need. -/
def size (c : Params) (draw : Nat) (nIn pBits : Word) : Except ErrorCode (Nat × Nat) :=
  match probabilityOf pBits with
  | none => .error .invalidParameter
  | some p =>
    let n := itemCount nIn
    let m := (mRawSpan c n p).pick (Config.sizingDraw draw)
    if c.capBits < m then .error .capacityExceeded
    else
      let bitLen := clampZero (pow2ceil m)
      .ok (bitLen, (roundsSpan c n bitLen).pick (Config.roundsDraw draw))

end Sys2Proof.Machine
end

