-- ==== Sys2Proof/Machine/New.lean ====
section
/-! DEFINITION. NEW and NEW.S (40_sizing.md R142, R143), and the pending command every command's meaning runs on. -/

namespace Sys2Proof.Machine

/-- A command runs on the copies latched in PEND (R94); the engine has no enabled step without (R35). -/
def withPending (s : State) (run : Pending → State) : Host.Outcome State Fault Refusal :=
  match s.pend with
  | some q => .next (run q)
  | none => .refused .noCommandPending

/-- The command of R142 with its seed given. One index of the draw counter is taken, whatever the outcome. DESIGN CHOICE
(log entry 22): with a tie band each NEW draws its size afresh (R131), also a repeated one, so where the admitted `m_raw`
lie on both sides of CAP_BITS a repeated NEW need not give the code that R274 says it repeats. Safe. -/
def construct (seed : Word) (q : Pending) (s : State) : State :=
  match size s.params s.draws q.a0 q.a1 with
  | .error e => s.tick.fail e
  | .ok (bitLen, k) =>
    (s.tick.install ⟨true, BitVec.ofNat 64 bitLen, BitVec.ofNat 64 k, seed⟩ (s.bv.clear (wordCount bitLen))).report
      .ok false

/-- `NEW`: the seed is a draw, taken after the checks (R142, R274), which do not depend on it. -/
def execNew (s : State) : Host.Outcome State Fault Refusal :=
  withPending s fun q => construct (seedDraw s.params s.draws) q s

/-- `NEW.S`: the seed is `trunc_{W_SEED}(a2)` (R142). -/
def execNewS (s : State) : Host.Outcome State Fault Refusal :=
  withPending s fun q => construct (seedOperand s.params q) q s

end Sys2Proof.Machine
end

