-- ==== Sys2Proof/Machine/Codec.lean ====
section
/-! DEFINITION. The image (30_encoding.md R100), SERIALIZE and DESERIALIZE (44_codec.md R230, R233). -/

namespace Sys2Proof.Machine

/-- The image of a configuration and its storage words: `LE(bitLength) ++ LE(hashRounds) ++ LE(seed) ++ LE_64(W[0]) ++
…` (R100). -/
def imageOf (p : Params) (c : FilterCfg) (ws : List Word) : List Byte :=
  leBytes (p.wBL / 8) c.bitLen.toNat ++ leBytes (p.wHR / 8) c.hRounds.toNat ++ leBytes (p.wSeed / 8) c.seed.toNat
    ++ ws.flatMap fun w => leBytes 8 w.toNat

/-- The image of the current filter (R230). -/
def State.image (s : State) : List Byte := imageOf s.params s.cfg (s.bv.words (wordCount s.cfg.bitLen.toNat))

/-- `SERIALIZE` (R230, R231). -/
def serializeFilter (s : State) : State :=
  if s.cfg.valid then
    { s.memWrite 0 s.image with outlen := BitVec.ofNat 64 s.image.length }.report .ok false
  else { s with outlen := 0 }.fail .noFilter

/-- The fields of an image's header (R100). -/
structure Header where
  bitLen : Nat
  hRounds : Nat
  seed : Nat
  deriving DecidableEq, Repr

/-- The header fields at their offsets (R100). -/
def headerOf (p : Params) (img : List Byte) : Header where
  bitLen := fromLE (img.take (p.wBL / 8))
  hRounds := fromLE ((img.drop (p.wBL / 8)).take (p.wHR / 8))
  seed := fromLE ((img.drop ((p.wBL + p.wHR) / 8)).take (p.wSeed / 8))

/-- `n` storage words, 8 bytes each, little-endian, word 0 first (R100). -/
def wordsFrom : Nat → List Byte → List Word
  | 0, _ => []
  | n + 1, bs => BitVec.ofNat 64 (fromLE (bs.take 8)) :: wordsFrom n (bs.drop 8)

/-- `bl` is a power of two: `bl != 0` and `bl & (bl - 1) = 0` (R233, R235). -/
def isPow2 (bl : Nat) : Bool := bl != 0 && bl &&& (bl - 1) == 0

/-- The checks of DESERIALIZE after the length check, in the order of R233 and R272, on an image of `len` bytes. -/
def imageError (p : Params) (len : Nat) (img : List Byte) : Option ErrorCode :=
  if len < p.hdr then some .decodeError
  else if isPow2 (headerOf p img).bitLen = false then some .decodeError
  else if (headerOf p img).hRounds = 0 then some .decodeError
  else if p.capBits < (headerOf p img).bitLen then some .capacityExceeded
  else if len < p.imageLen (headerOf p img).bitLen then some .decodeError
  else if p.imageLen (headerOf p img).bitLen < len then some .decodeError
  else none

/-- The filter an accepted image describes, put in the place of any other (R238). -/
def loadImage (img : List Byte) (s : State) : State :=
  let h := headerOf s.params img
  s.install ⟨true, BitVec.ofNat 64 h.bitLen, BitVec.ofNat 64 h.hRounds, BitVec.ofNat 64 h.seed⟩
    (s.bv.load (wordsFrom (wordCount h.bitLen) (img.drop s.params.hdr)))

/-- `DESERIALIZE` on the latched operands (R233). -/
def deserializeFilter (s : State) (q : Pending) : State :=
  if lengthOk s.params q.a0 then
    match imageError s.params q.a0.toNat (s.operandBytes q.a0) with
    | some e => s.fail e
    | none => (loadImage (s.operandBytes q.a0) s).report .ok false
  else s.fail .badLength

/-- `SERIALIZE` (R230). -/
def execSerialize (s : State) : Host.Outcome State Fault Refusal := withPending s fun _ => serializeFilter s

/-- `DESERIALIZE` (R233). -/
def execDeserialize (s : State) : Host.Outcome State Fault Refusal := withPending s (deserializeFilter s)

end Sys2Proof.Machine
end

