-- ==== Sys2Proof/Machine/Hash.lean ====
section
/-! DEFINITION. The base hash and the index sequence (41_hash.md R150 to R154). -/

namespace Sys2Proof.Machine

/-- `FNV_PRIME` (R152). -/
def fnvPrime : Word := 0x00000100000001B3

/-- `B1` (R152). -/
def laneBasis1 : Word := 0xCBF29CE484222325

/-- `B2`: `B1` with its 32-bit halves swapped (R152). -/
def laneBasis2 : Word := 0x84222325CBF29CE4

/-- One hash lane over the key bytes, in order (R152). -/
def hashLane (init : Word) (key : List Byte) : Word :=
  key.foldl (fun x b => (x ^^^ b.zeroExtend 64) * fnvPrime) init

/-- `z ^ (z >> 33)`. -/
def xorShift33 (z : Word) : Word := z ^^^ (z >>> 33)

/-- The 64-bit finaliser (R153). -/
def fmix64 (z : Word) : Word :=
  xorShift33 (xorShift33 (xorShift33 z * 0xFF51AFD7ED558CCD) * 0xC4CEB9FE1A85EC53)

/-- The reference base hash (R152): two lanes, each finalised, the second forced odd. -/
def refHash (s : Word) (key : List Byte) : Word × Word :=
  (fmix64 (hashLane (laneBasis1 ^^^ s) key), fmix64 (hashLane (laneBasis2 ^^^ s) key) ||| 1)

/-- `BaseHash`, the parameter (R150). -/
def baseHash (h : HashChoice) (s : Word) (key : List Byte) : Word × Word :=
  match h with
  | .refHash => refHash s key
  | .other id => Config.otherHash id s key

/-- `idx_i = (h1 +64 (zext_64(i) *64 h2)) & (bitLength - 1)` (R154). -/
def hashIndex (h : Word × Word) (bitLen : Word) (i : Nat) : Word := (h.1 + BitVec.ofNat 64 i * h.2) &&& (bitLen - 1)

/-- The indices of rounds `i`, `i + 1`, …, `k` of them. -/
def indicesFrom (h : Word × Word) (bitLen : Word) : Nat → Nat → List Word
  | _, 0 => []
  | i, k + 1 => hashIndex h bitLen i :: indicesFrom h bitLen (i + 1) k

/-- `Indices(seed, hashRounds, bitLength, key)` (R154). The seed is held zero-extended to 64 bits. -/
def indices (h : HashChoice) (seed : Word) (hashRounds : Nat) (bitLen : Word) (key : List Byte) : List Word :=
  indicesFrom (baseHash h seed key) bitLen 0 hashRounds

/-- The indices of a key under the current filter: the seed used is `CFG.SEED` (R158). -/
def State.indicesOf (s : State) (key : List Byte) : List Word :=
  indices s.params.hash s.cfg.seed s.cfg.hRounds.toNat s.cfg.bitLen key

end Sys2Proof.Machine
end

