-- ==== Sys2Proof/Machine/Engine.lean ====
section
/-! DEFINITION. INSERT and EXIST (43_engine.md R200, R205). -/

namespace Sys2Proof.Machine

/-- The checks of INSERT and EXIST, in the order of R272: `NO_FILTER`, then `BAD_LENGTH`. -/
def keyError (s : State) (q : Pending) : Option ErrorCode :=
  if s.cfg.valid = false then some .noFilter
  else if lengthOk s.params q.a0 = false then some .badLength
  else none

/-- `SetBit` of every index, in order (R200, R201); none where one violates its contract. -/
def setBits : List Word → State → Option State
  | [], s => some s
  | i :: is, s =>
    match s.setBit i with
    | some s' => setBits is s'
    | none => none

/-- `TestBit` of the indices, in order, up to the first whose bit is 0 (R205, R206); none where one violates its
contract. -/
def allBitsSet : List Word → State → Option Bool
  | [], _ => some true
  | i :: is, s =>
    match s.testBit i with
    | some true => allBitsSet is s
    | some false => some false
    | none => none

/-- `INSERT` on the latched operands (R200). -/
def insertKey (s : State) (q : Pending) : State :=
  match keyError s q with
  | some e => s.fail e
  | none =>
    match setBits (s.indicesOf (s.operandBytes q.a0)) s with
    | some t => t.report .ok false
    | none => s.raiseFault .indexRange

/-- `EXIST` on the latched operands (R205). -/
def queryKey (s : State) (q : Pending) : State :=
  match keyError s q with
  | some e => s.fail e
  | none =>
    match allBitsSet (s.indicesOf (s.operandBytes q.a0)) s with
    | some r => s.report .ok r
    | none => s.raiseFault .indexRange

/-- `INSERT` (R200). -/
def execInsert (s : State) : Host.Outcome State Fault Refusal := withPending s (insertKey s)

/-- `EXIST` (R205). -/
def execExist (s : State) : Host.Outcome State Fault Refusal := withPending s (queryKey s)

end Sys2Proof.Machine
end

