-- ==== Sys2Proof/Machine/HostPort.lean ====
section
/-! DEFINITION. The host's accesses: the two windows, the register map and the transfer buffer's accesses (10_state.md
R25 to R32, 20_memory.md R60 to R72). -/

namespace Sys2Proof.Machine

/-- The registers of the block's register window (R25). -/
inductive HostReg where
  | cmd | status | arg0 | arg1 | arg2 | outlen | cfgBitLen | cfgHRounds | cfgSeed | caps
  /-- the reserved offsets 0x50 to 0xF8 (R32) -/
  | reserved
  deriving DecidableEq, Repr

/-- The register at an 8-byte aligned offset (R25). -/
def regAt (o : Nat) : HostReg :=
  if o = 0x00 then .cmd
  else if o = 0x08 then .status
  else if o = 0x10 then .arg0
  else if o = 0x18 then .arg1
  else if o = 0x20 then .arg2
  else if o = 0x28 then .outlen
  else if o = 0x30 then .cfgBitLen
  else if o = 0x38 then .cfgHRounds
  else if o = 0x40 then .cfgSeed
  else if o = 0x48 then .caps
  else .reserved

/-- What a host load of a register returns; no read has a side effect (R25 to R32, R70). -/
def State.readReg (s : State) : HostReg → Word
  | .cmd => 0
  | .status => s.status
  | .arg0 => s.arg0
  | .arg1 => s.arg1
  | .arg2 => s.arg2
  | .outlen => s.outlen
  | .cfgBitLen => s.cfg.bitLen
  | .cfgHRounds => s.cfg.hRounds
  | .cfgSeed => s.cfg.seed
  | .caps => s.params.caps
  | .reserved => 0

/-- A host store to a register: CMD starts a command, the operand registers are written, a store to any other register
is ignored (R25 to R32). -/
def State.writeReg (r : HostReg) (v : Word) (s : State) : State :=
  match r with
  | .cmd => s.acceptCmd v
  | .arg0 => { s with arg0 := v }
  | .arg1 => { s with arg1 := v }
  | .arg2 => { s with arg2 := v }
  | .status | .outlen | .cfgBitLen | .cfgHRounds | .cfgSeed | .caps | .reserved => s

/-- A place of one of the block's two host-visible spaces (R60). -/
inductive Place where
  | reg (offset : Nat)
  | xfer (offset : Nat)
  deriving DecidableEq, Repr

/-- The place a host-bus address names; none outside the two windows (R71, R7). -/
def route (p : Params) (addr : Nat) : Option Place :=
  if p.regBase ≤ addr ∧ addr < p.regBase + 256 then some (.reg (addr - p.regBase))
  else if p.xferBase ≤ addr ∧ addr < p.xferBase + p.xferBytes then some (.xfer (addr - p.xferBase))
  else none

/-- A register access the block defines (R61). -/
def regAccessOk (o width : Nat) : Bool := width == 8 && o % 8 == 0 && o ≤ 0xF8

/-- A transfer-buffer access the block defines (R62). -/
def xferAccessOk (p : Params) (a width : Nat) : Bool :=
  [1, 2, 4, 8].contains width && a % width == 0 && a + width ≤ p.xferBytes

/-- What the block makes of a host access. -/
inductive Access where
  | reg (r : HostReg)
  | xfer (offset : Nat)
  | fault (f : Fault)
  deriving DecidableEq, Repr

/-- A host access to XFER would be a race: a command is in execution (R63), or the host has not yet read BUSY = 0 after
the CMD write that started one (R311). -/
def State.racing (s : State) : Bool := s.busy || s.raceOpen

/-- The access at a host-bus address (R61 to R63, R280, R311): an undefined one is a host bus error; a defined one to XFER
in the interval of a race is a race. -/
def State.access (s : State) (addr width : Nat) : Access :=
  match route s.params addr with
  | none => .fault .hostBusError
  | some (.reg o) => if regAccessOk o width then .reg (regAt o) else .fault .hostBusError
  | some (.xfer a) =>
    if xferAccessOk s.params a width then (if s.racing then .fault .hostRace else .xfer a) else .fault .hostBusError

/-- A host load returns a value (R316). -/
def State.returnLoad (v : Word) (s : State) : State := { s with returned := v :: s.returned }

/-- The host has read STATUS: a read of BUSY = 0 closes the interval of R311. Nothing of the block changes (R70). -/
def State.polled (s : State) : State := { s with raceOpen := s.busy && s.raceOpen }

/-- A host load of a register returns its value. -/
def State.loadReg (r : HostReg) (s : State) : State :=
  (if r = .status then s.polled else s).returnLoad (s.readReg r)

/-- A host load of `width` bytes: a register's value, or `fromLE(MemRead(XFER, a, n))` (R61, R62). -/
def hostLoad (addr width : Nat) (s : State) : Host.Outcome State Fault Refusal :=
  match s.access addr width with
  | .reg r => .next (s.loadReg r)
  | .xfer a => .next (s.returnLoad (BitVec.ofNat 64 (fromLE (s.memRead a width))))
  | .fault f => .fault f

/-- A host store of `width` bytes: a register write, or `MemWrite(XFER, a, n, LE_{8n}(v))` (R61, R62). -/
def hostStore (addr width : Nat) (v : Word) (s : State) : Host.Outcome State Fault Refusal :=
  match s.access addr width with
  | .reg r => .next (s.writeReg r v)
  | .xfer a => .next (s.memWrite a (leBytes width v.toNat))
  | .fault f => .fault f

/-- One poll of `WAIT` (R103): STATUS is read; while BUSY = 1 the engine gets its turn and the host polls again
(R315). -/
def hostWait (s : State) : State :=
  if s.busy then { s.loadReg .status with inbox := .engine :: .wait :: s.inbox } else s.loadReg .status

/-- `RD OUTLEN -> L ; XRD 0, L` (R104): OUTLEN is read, and `L` one-byte loads from the start of XFER follow. -/
def hostReadImage (s : State) : State :=
  { s.returnLoad s.outlen with
    inbox := (List.range s.outlen.toNat).map (fun j => .load (s.params.xferBase + j) 1) ++ s.inbox }

end Sys2Proof.Machine
end

