-- ==== Sys2Proof/Machine/Sequencer.lean ====
section
/-! DEFINITION. Who moves: the engine's step (30_encoding.md R96) and the host port's next entry (00_scope.md R10,
20_memory.md R73). -/

namespace Sys2Proof.Machine

/-- The engine's step (R96): enabled when a command is pending and FAULT is 0 (R35, R277); a word that is none of R92
ends with `ILLEGAL_COMMAND`; every path retires the command. Where it is not enabled its turn changes nothing. -/
def engineTurn (s : State) : Host.Outcome State Fault Refusal :=
  match s.pend with
  | none => .next s
  | some q =>
    if s.fault then .next s
    else
      match decode q.cmd with
      | .error _ => .next (s.fail .illegalCommand).retire
      | .ok i =>
        match exec i s with
        | .next t => .next t.retire
        | .fault f => .fault f
        | .refused r => .refused r

/-- One entry of the host port's list, already taken off it. -/
def serve (i : Input) (s : State) : Host.Outcome State Fault Refusal :=
  match i with
  | .engine => engineTurn s
  | .load addr width => hostLoad addr width s
  | .store addr width v => hostStore addr width v s
  | .wait => .next (hostWait s)
  | .readImage => .next (hostReadImage s)
  | .reset => .next s.resetBlock

/-- One step: the next entry of the host port's list, or, when the list is empty, the engine's turn (R315). Parameters
that are no configuration of the block are refused (R9). -/
def advance (s : State) : Host.Outcome State Fault Refusal :=
  if s.params.legal then
    match s.inbox with
    | [] => engineTurn s
    | i :: rest => serve i { s with inbox := rest }
  else .refused .illegalConfiguration

/-- The block with the command word `w` accepted (its operands the current ARG registers) and the engine to move:
FAULT clear, so that the engine's step is enabled. -/
def State.withCommand (s : State) (w : Word) : State :=
  { s with pend := some ⟨w, s.arg0, s.arg1, s.arg2⟩, busy := true, fault := false, faultReason := none,
           raceOpen := true, inbox := .engine :: s.inbox }

end Sys2Proof.Machine
end

