-- ==== Sys2Proof/Machine/Step.lean ====
section
/-! DEFINITION. One step of the machine, and a state whose next step runs a given command word. -/

namespace Sys2Proof.Machine

/-- One step of the block and its host port. -/
def step (s : State) : Host.Outcome State Fault Refusal := advance s

/-- `s` with the command word of value `w` where the engine takes its next command: PEND (there is no instruction
memory, R77). A command word has 64 bits (R90), so `nbits` does not matter. -/
def State.withFetchWord (s : State) (_nbits w : Nat) : State := s.withCommand (BitVec.ofNat 64 w)

end Sys2Proof.Machine
end

