-- ==== Sys2Proof/Machine/HostAsm.lean ====
section
/-! DEFINITION. The host assembly and its pseudo-instructions, each as the entries of the host port's list it stands for
(30_encoding.md R103, R104). -/

namespace Sys2Proof.Machine

/-- The offset of a register by its name (R25); a reserved one is taken at the first reserved offset. -/
def HostReg.offset : HostReg → Nat
  | .cmd => 0x00
  | .status => 0x08
  | .arg0 => 0x10
  | .arg1 => 0x18
  | .arg2 => 0x20
  | .outlen => 0x28
  | .cfgBitLen => 0x30
  | .cfgHRounds => 0x38
  | .cfgSeed => 0x40
  | .caps => 0x48
  | .reserved => 0x50

/-- `a / b` rounded to the nearest natural number, a half to even. -/
def roundHalfEven (a b : Nat) : Nat :=
  let q := a / b
  let r := 2 * (a % b)
  if b < r ∨ (r = b ∧ q % 2 = 1) then q + 1 else q

/-- `bits(x)` for the non-negative real `x = num / den`: its binary64 pattern, rounded to nearest-even (R103). `e` is
1074 plus the exponent of the last place. -/
def bitsOf (num den : Nat) : Word :=
  if num = 0 then 0
  else
    let up := 1074 + num.log2 + 1
    let e := up - (den.log2 + 53)
    let e := if num * 2 ^ 1074 < den * 2 ^ (e + 52) then e - 1 else e
    let q := roundHalfEven (num * 2 ^ 1074) (den * 2 ^ e)
    BitVec.ofNat 64 (min (e * 2 ^ 52 + q) 0x7FF0000000000000)

/-- A line of host assembly (R103) or a pseudo-instruction (R104). A probability is the real `num / den`. -/
inductive Asm where
  | wr (r : HostReg) (v : Word)
  | rd (r : HostReg)
  | xwr (off : Nat) (bytes : List Byte)
  | xrd (off len : Nat)
  | wait
  | cmd (i : Instr)
  | new (n : Word) (num den : Nat)
  | newS (n : Word) (num den : Nat) (seed : Word)
  | insert (key : List Byte)
  | exist (key : List Byte)
  | serialize
  | deserialize (img : List Byte)
  | check
  deriving DecidableEq, Repr

/-- `WR` at `REG_BASE + offset` (R103). -/
def asmWr (p : Params) (r : HostReg) (v : Word) : Input := .store (p.regBase + r.offset) 8 v

/-- `RD` (R103). -/
def asmRd (p : Params) (r : HostReg) : Input := .load (p.regBase + r.offset) 8

/-- `XWR`: one 1-byte store a byte, in increasing offset order (R103). -/
def asmXwr (p : Params) : Nat → List Byte → List Input
  | _, [] => []
  | off, b :: bs => .store (p.xferBase + off) 1 (b.zeroExtend 64) :: asmXwr p (off + 1) bs

/-- `XRD`: 1-byte loads (R103). -/
def asmXrd (p : Params) (off len : Nat) : List Input :=
  (List.range len).map fun j => .load (p.xferBase + (off + j)) 1

/-- `CMD <mnemonic>`: `WR CMD` with the command's word (R103). -/
def asmCmd (p : Params) (i : Instr) : Input := asmWr p .cmd (encode i)

/-- The bytes of a key written from offset 0, its length in ARG0, the command, and WAIT (R104). -/
def asmKeyed (p : Params) (i : Instr) (bs : List Byte) : List Input :=
  asmXwr p 0 bs ++ [asmWr p .arg0 (BitVec.ofNat 64 bs.length), asmCmd p i, .wait]

/-- The expansion of a line (R103, R104). -/
def Asm.expand (p : Params) : Asm → List Input
  | .wr r v => [asmWr p r v]
  | .rd r => [asmRd p r]
  | .xwr off bs => asmXwr p off bs
  | .xrd off len => asmXrd p off len
  | .wait => [.wait]
  | .cmd i => [asmCmd p i]
  | .new n num den => [asmWr p .arg0 n, asmWr p .arg1 (bitsOf num den), asmCmd p .new, .wait]
  | .newS n num den seed =>
    [asmWr p .arg0 n, asmWr p .arg1 (bitsOf num den), asmWr p .arg2 seed, asmCmd p .newS, .wait]
  | .insert key => asmKeyed p .insert key
  | .exist key => asmKeyed p .exist key ++ [asmRd p .status]
  | .serialize => [asmCmd p .serialize, .wait, .readImage]
  | .deserialize img => asmKeyed p .deserialize img
  | .check => [asmRd p .status]

/-- `r := s[2]` of `exist "k" -> r`, `s` the STATUS value read (R104). -/
def existAnswer (status : Word) : Bool := status.getLsbD 2

/-- `check` passes on the STATUS value read: `s[15:8] = 0` (R104). -/
def checkPasses (status : Word) : Bool := status.extractLsb' 8 8 == 0

end Sys2Proof.Machine
end

