-- ==== Sys2Proof/Safety.lean ====
section
/-! DEFINITION. What the claims are stated in: the invariant of the block, what its commands leave unchanged, and a filter's lifetime. -/

namespace Sys2Proof

/-- The host-visible windows do not overlap (R7 leaves their bases to the platform). -/
def Params.windowsApart (p : Params) : Prop :=
  p.regBase + 256 ≤ p.xferBase ∨ p.xferBase + p.xferBytes ≤ p.regBase

/-- `SIZING_BAND` (R7). -/
noncomputable def Params.band (c : Params) : ℝ := c.sizingBand.toReal

end Sys2Proof

namespace Sys2Proof.Machine

/-- The configuration's fields fit their widths (R21). -/
abbrev FilterCfg.Fits (p : Params) (c : FilterCfg) : Prop :=
  c.bitLen.toNat < 2 ^ p.wBL ∧ c.hRounds.toNat < 2 ^ p.wHR ∧ c.seed.toNat < 2 ^ p.wSeed

/-- R21's invariant while `VALID = 1`. -/
abbrev FilterCfg.Legal (p : Params) (c : FilterCfg) : Prop :=
  isPow2 c.bitLen.toNat = true ∧ c.bitLen.toNat ≤ p.capBits ∧ 1 ≤ c.hRounds.toNat

/-- What every step keeps. -/
structure State.Inv (s : State) : Prop where
  /-- the parameters are a configuration of the block (R9) -/
  config : s.params.legal = true
  /-- `CFG` fits its widths (R21) -/
  fits : s.cfg.Fits s.params
  /-- a filter is legal and its words have been written (R21, R39) -/
  filter : s.fault = false → s.cfg.valid = true →
    s.cfg.Legal s.params ∧ wordCount s.cfg.bitLen.toNat ≤ s.bv.cleared
  /-- without a filter the `CFG_*` views read 0 (R30) -/
  noFilter : s.fault = false → s.cfg.valid = false → s.cfg = ⟨false, 0, 0, 0⟩
  /-- `PEND != none` exactly when `BUSY = 1` (R35) -/
  latch : s.busy = s.pend.isSome
  /-- a command in execution is within the interval of R311 -/
  interval : s.busy = true → s.raceOpen = true
  /-- the storage's canonical form, within `CAP_WORDS` words (R22) -/
  storage : s.bv.wf ∧ s.bv.cleared ≤ s.params.capWords
  /-- the transfer buffer's canonical form, within `XFER_BYTES` bytes (R34) -/
  buffer : Memory.wf s.xfer ∧ ∀ c ∈ s.xfer, c.1 < s.params.xferBytes
  /-- codes 7 to 255 are never produced (R270), and RESULT is 0 but for a successful EXIST (R271) -/
  report : s.fault = false → s.err.toNat ≤ 6 ∧ (s.result = true → s.err = 0)
  /-- an image's length (R29, R64) -/
  length : s.outlen.toNat ≤ s.params.xferBytes
  /-- a faulted block has no command pending, and its reason is recorded (R276) -/
  faulted : s.fault = true → s.pend = none ∧ s.faultReason = some .indexRange
  /-- no reason without a fault -/
  sound : s.fault = false → s.faultReason = none

/-- What no command of the engine changes, seen before the command retires: the operand registers (R28), BUSY, FAULT,
OVR and PEND (R95, R96), and the model's own fields but the draw counter. -/
structure EngineFrame (s t : State) : Prop where
  arg0 : t.arg0 = s.arg0
  arg1 : t.arg1 = s.arg1
  arg2 : t.arg2 = s.arg2
  busy : t.busy = s.busy
  fault : t.fault = s.fault
  ovr : t.ovr = s.ovr
  pend : t.pend = s.pend
  faultReason : t.faultReason = s.faultReason
  params : t.params = s.params
  xferEpoch : t.xferEpoch = s.xferEpoch
  raceOpen : t.raceOpen = s.raceOpen
  inbox : t.inbox = s.inbox
  returned : t.returned = s.returned

/-- The next step is the engine's. -/
def State.engineMoves (s : State) : Prop := s.inbox = [] ∨ s.inbox.head? = some .engine

/-- The step from `s` to `t` ended the filter's lifetime: a reset, or a NEW, NEW.S or DESERIALIZE that succeeded (R186,
R302). -/
def EndsLifetime (s t : State) : Prop :=
  s.inbox.head? = some .reset ∨
    (s.engineMoves ∧ s.fault = false ∧ t.err = ErrorCode.ok.code ∧
      ∃ q, s.pend = some q ∧
        (decode q.cmd = .ok .new ∨ decode q.cmd = .ok .newS ∨ decode q.cmd = .ok .deserialize))

/-- `t` is reached from `s` by steps none of which ends the filter's lifetime. -/
inductive SameLifetime (s : State) : State → Prop where
  | refl : SameLifetime s s
  | step {t u : State} : SameLifetime s t → Machine.step t = .next u → ¬ EndsLifetime t u → SameLifetime s u

end Sys2Proof.Machine
end

