-- ==== Sys2Proof/Certificates/Slice0/Obligations.lean ====
section
/-! DEFINITION. The statements about the model, for the provers. -/

open Sys2Proof Sys2Proof.Machine

/-! Reset and the configuration. -/

/-- R38: every piece of state after power-on, for every configuration. The free values of R38 are the draws. That the
operand registers and the rest are 0 is R38's own table; `State.reset` is the reference configuration. No interval of R311
is open (the model's field, log entry 20). -/
def Obligations.ResetLeavesTheListedValues : Prop :=
  State.reset = State.powerOn Params.rc ∧
  ∀ p : Params, ∀ s : State, s = State.powerOn p →
    s.cfg = ⟨false, 0, 0, 0⟩ ∧ s.status = 0 ∧ s.busy = false ∧ s.result = false ∧ s.fault = false ∧ s.ovr = false ∧
    s.err = 0 ∧ s.arg0 = 0 ∧ s.arg1 = 0 ∧ s.arg2 = 0 ∧ s.outlen = 0 ∧ s.pend = none ∧ s.readReg .caps = p.caps ∧ s.raceOpen = false ∧
    (∀ j, s.bv.word j = Config.bvDraw 0 j) ∧ ∀ a, s.xferByte a = Config.xferDraw 0 a

/-- R300: a reset served during a run, whatever the block was doing: the values of R38, the pending command abandoned,
FAULT and OVR cleared, no filter, and the contents of BV and XFER fresh draws. That it closes the interval of R311 is the
model's choice (log entry 10). -/
def Obligations.ResetInARunAbandonsEverything : Prop :=
  ∀ (s : State) (rest : List Input), s.params.legal = true → s.inbox = .reset :: rest →
    ∃ t, step s = .next t ∧ t.cfg = ⟨false, 0, 0, 0⟩ ∧ t.status = 0 ∧ t.pend = none ∧ t.fault = false ∧ t.ovr = false ∧ t.raceOpen = false ∧
      t.arg0 = 0 ∧ t.arg1 = 0 ∧ t.arg2 = 0 ∧ t.outlen = 0 ∧ t.params = s.params ∧ t.inbox = rest ∧
      t.returned = s.returned ∧ (∀ j, t.bv.word j = Config.bvDraw (s.draws + 1) j) ∧
      ∀ a, t.xferByte a = Config.xferDraw (s.draws + 1) a

/-- R7 and R9: the step is refused, whatever the state, exactly where the parameters break a constraint of R7: L, the
three field widths, XFER_BYTES (a multiple of 8, at least `HDR + 8*CAP_WORDS`, below 2^32), SIZING_BAND
(`0 <= ε <= 2^-30`, which one given by its digits meets: SizingIsTheIdealBitCount). -/
def Obligations.IllegalConfigurationIsRefused : Prop :=
  ∀ (s : State) (p : Params), p = s.params →
    (step s = .refused .illegalConfiguration ↔
      p.maxBitLenLog2 < 6 ∨ p.wBL < p.maxBitLenLog2 + 1 ∨ p.wBL ∉ [8, 16, 32, 64] ∨ p.wHR ∉ [16, 32, 64] ∨
      p.wSeed ∉ [8, 16, 32, 64] ∨ p.xferBytes % 8 ≠ 0 ∨
      p.xferBytes < (p.wBL + p.wHR + p.wSeed) / 8 + 8 * 2 ^ (p.maxBitLenLog2 - 6) ∨ 2 ^ 32 ≤ p.xferBytes ∨
      ∃ num den, p.sizingBand = .ratio num den ∧ (den = 0 ∨ den < num * 2 ^ 30))

/-- R31: the fields of CAPS in every configuration whose parameters fit them, and its value in RC. -/
def Obligations.CapsShowsTheParameters : Prop :=
  Params.rc.caps = 0x0004000040204014 ∧
  ∀ p : Params, p.legal = true →
    (p.caps.extractLsb' 0 8).toNat = p.maxBitLenLog2 ∧ (p.caps.extractLsb' 8 8).toNat = p.wBL ∧
    (p.caps.extractLsb' 16 8).toNat = p.wHR ∧ (p.caps.extractLsb' 24 8).toNat = p.wSeed ∧
    (p.caps.extractLsb' 32 32).toNat = p.xferBytes

/-- The invariant holds after power-on in every configuration. -/
def Obligations.InvariantHoldsAtReset : Prop :=
  State.reset.Inv ∧ ∀ p : Params, p.legal = true → (State.powerOn p).Inv

/-- Every step keeps the invariant: canonical storages, a legal filter while VALID, PEND and BUSY together, no reserved
error code. -/
def Obligations.StepKeepsTheInvariant : Prop :=
  ∀ s t : State, s.Inv → step s = .next t → t.Inv

/-- R278: from a state that meets the invariant, no step raises FAULT. -/
def Obligations.FaultIsUnreachable : Prop :=
  ∀ s t : State, s.Inv → s.fault = false → step s = .next t → t.fault = false

/-! Encoding. -/

/-- The six words of R92, each decoding to its command (a sanity statement). -/
def Obligations.TableWordsDecode : Prop :=
  decode 0x0000000000000001 = .ok .new ∧ decode 0x0000000000000101 = .ok .newS ∧
  decode 0x0000000000000002 = .ok .insert ∧ decode 0x0000000000000003 = .ok .exist ∧
  decode 0x0000000000000004 = .ok .serialize ∧ decode 0x0000000000000005 = .ok .deserialize

/-- Decode and encode agree: a word decodes to a command exactly when it is that command's word, and the words are the
six of R92 and no others. -/
def Obligations.ExactlySixWordsAreLegal : Prop :=
  (∀ (c : Word) (i : Instr), decode c = .ok i ↔ c = encode i) ∧
  ∀ c : Word, (∃ i, decode c = .ok i) ↔ c ∈ ([0x1, 0x101, 0x2, 0x3, 0x4, 0x5] : List Word)

/-- R93: the words with OP 0x00 or 0x06 to 0xFF, with SEEDSEL and an OP other than 0x01, or with a reserved bit set are
exactly those that are illegal, and the execution of one, whichever way the engine comes to move, ends with
ILLEGAL_COMMAND and no other effect. -/
def Obligations.IllegalWordsOnlyReport : Prop :=
  (∀ c : Word, (∀ i, decode c ≠ .ok i) ↔
    (c.toNat % 256 = 0 ∨ 6 ≤ c.toNat % 256 ∨ (c.getLsbD 8 = true ∧ c.toNat % 256 ≠ 1) ∨ 512 ≤ c.toNat)) ∧
  ∀ (s u : State) (q : Pending), s.params.legal = true → s.fault = false → s.pend = some q →
    (∀ i, decode q.cmd ≠ .ok i) →
    ((s.inbox = [] ∧ u = s) ∨ ∃ rest, s.inbox = .engine :: rest ∧ u = { s with inbox := rest }) →
    step s = .next { u with err := 5, result := false, pend := none, busy := false }

/-! The engine's step. -/

/-- R96: where a command is pending, FAULT is 0 and it is the engine's turn, the step is exec of the decoded command,
then PEND and BUSY are cleared. -/
def Obligations.StepRunsTheDecodedCommand : Prop :=
  ∀ (s u : State) (q : Pending) (i : Instr), s.params.legal = true → s.fault = false → s.pend = some q →
    decode q.cmd = .ok i →
    ((s.inbox = [] ∧ u = s) ∨ ∃ rest, s.inbox = .engine :: rest ∧ u = { s with inbox := rest }) →
    ∃ t, exec i u = .next t ∧ step s = .next { t with pend := none, busy := false }

/-- A command word placed in PEND is what the next step runs, from every state of a legal configuration (the model's own
way of placing a program, log entry 5). -/
def Obligations.PlacedWordRunsNext : Prop :=
  ∀ (s : State) (i : Instr) (w : Nat), s.params.legal = true → decodeTableWord 64 w = some i →
    ∃ u t : State, u.cfg = s.cfg ∧ u.bv = s.bv ∧ u.xfer = s.xfer ∧ u.inbox = s.inbox ∧ u.params = s.params ∧
      u.pend = some ⟨BitVec.ofNat 64 w, s.arg0, s.arg1, s.arg2⟩ ∧ exec i u = .next t ∧
      step (s.withFetchWord 64 w) = .next { t with pend := none, busy := false }

/-- R96: the step is never refused for any value of the command word and the operands, and never faults, whichever way
the engine comes to move. -/
def Obligations.EngineStepAlwaysCompletes : Prop :=
  (∀ (s : State) (q : Pending) (i : Instr), s.pend = some q → ∃ t, exec i s = .next t) ∧
  ∀ s : State, s.params.legal = true → (s.inbox = [] ∨ ∃ rest, s.inbox = .engine :: rest) → ∃ t, step s = .next t

/-- R35: without a pending command, or with FAULT set, the engine has no enabled step: its turn changes nothing. -/
def Obligations.EngineIdlesUnlessEnabled : Prop :=
  ∀ s : State, s.params.legal = true → (s.pend = none ∨ s.fault = true) →
    (s.inbox = [] → step s = .next s) ∧
    ∀ rest, s.inbox = .engine :: rest → step s = .next { s with inbox := rest }

/-- R315: a WAIT ends: at most three steps after it reaches the head of the host's list, it is gone, BUSY is 0 and has been
read so, which ends the interval of R311. -/
def Obligations.WaitEndsWithinThreeSteps : Prop :=
  ∀ (s : State) (rest : List Input), s.Inv → s.inbox = .wait :: rest →
    ∃ k t, k ≤ 3 ∧ Host.Core.run Sys2Proof.core k s = .next t ∧ t.inbox = rest ∧ t.busy = false ∧ t.pend = none ∧
      t.raceOpen = false

/-- R271: what a command writes into STATUS, and that a command that ends with an error has no other effect, except that
SERIALIZE writes OUTLEN 0. (The draw counter is the model's own, log entry 4.) -/
def Obligations.ErrorsHaveNoOtherEffect : Prop :=
  ∀ (i : Instr) (s t : State), exec i s = .next t → s.fault = false → t.fault = false →
    (∃ e : ErrorCode, t.err = e.code) ∧ (t.result = true → i = .exist ∧ t.err = 0) ∧
    (t.err ≠ 0 → EngineFrame s t ∧ t.cfg = s.cfg ∧ t.bv = s.bv ∧ t.xfer = s.xfer ∧
      t.outlen = if i = .serialize then 0 else s.outlen)

/-- R28, R33 and R34: no command of the engine changes ARG0, ARG1 or ARG2, and none but SERIALIZE changes XFER; R24 and
R27: none changes OVR, which R95 alone writes. The parameters and the host's lists stay too. That this holds of a command
that raises FAULT as well is the model's choice (log entry 9): R276 does not name these registers. -/
def Obligations.EngineNeverWritesOperandRegisters : Prop :=
  ∀ (i : Instr) (s t : State), exec i s = .next t →
    t.arg0 = s.arg0 ∧ t.arg1 = s.arg1 ∧ t.arg2 = s.arg2 ∧ t.ovr = s.ovr ∧ t.params = s.params ∧ t.inbox = s.inbox ∧
    t.returned = s.returned ∧ t.raceOpen = s.raceOpen ∧ (i ≠ .serialize → t.xfer = s.xfer ∧ ∀ a, t.xferByte a = s.xferByte a)

/-- R29: OUTLEN is changed by no step but one that executes SERIALIZE, and by a reset; SERIALIZE writes the image length
on success and 0 on failure. -/
def Obligations.OutlenIsWrittenOnlyBySerialize : Prop :=
  (∀ s t : State, step s = .next t → t.outlen ≠ s.outlen →
    s.inbox.head? = some .reset ∨ (s.engineMoves ∧ ∃ q, s.pend = some q ∧ decode q.cmd = .ok .serialize)) ∧
  ∀ (s t : State), exec .serialize s = .next t → s.Inv → s.fault = false →
    (t.err = 0 → t.outlen.toNat = s.params.imageLen s.cfg.bitLen.toNat) ∧ (t.err ≠ 0 → t.outlen = 0)

/-- R272, R200, R205 and R231: the errors of INSERT, EXIST and SERIALIZE, in the order of their checks: NO_FILTER, then
BAD_LENGTH; SERIALIZE without a filter writes OUTLEN 0 and no byte of XFER. -/
def Obligations.NoFilterComesBeforeBadLength : Prop :=
  ∀ (s : State) (q : Pending), s.pend = some q →
    (s.cfg.valid = false →
      exec .insert s = .next { s with err := 3, result := false } ∧
      exec .exist s = .next { s with err := 3, result := false } ∧
      exec .serialize s = .next { s with err := 3, result := false, outlen := 0 }) ∧
    (s.cfg.valid = true → s.params.xferBytes < q.a0.toNat →
      exec .insert s = .next { s with err := 6, result := false } ∧
      exec .exist s = .next { s with err := 6, result := false })

/-- R33: who writes what. Apart from a reset, ARG0 to ARG2 change only by an 8-byte host store at the register's own
address, to the value stored; a byte of XFER only by a host store that covers it or by a SERIALIZE; CFG, BV, RESULT, ERR,
FAULT and OUTLEN only by the engine's step of a pending command; PEND, BUSY and OVR only by that step or by a host write
of CMD. -/
def Obligations.WriteAccessIsComplete : Prop :=
  ∀ s t : State, step s = .next t → s.inbox.head? ≠ some .reset →
    (t.arg0 ≠ s.arg0 → s.inbox.head? = some (.store (s.params.regBase + 0x10) 8 t.arg0)) ∧
    (t.arg1 ≠ s.arg1 → s.inbox.head? = some (.store (s.params.regBase + 0x18) 8 t.arg1)) ∧
    (t.arg2 ≠ s.arg2 → s.inbox.head? = some (.store (s.params.regBase + 0x20) 8 t.arg2)) ∧
    (∀ a, t.xferByte a ≠ s.xferByte a →
      (∃ off w v, s.inbox.head? = some (.store (s.params.xferBase + off) w v) ∧ off ≤ a ∧ a < off + w) ∨
      (s.engineMoves ∧ s.fault = false ∧ ∃ q, s.pend = some q ∧ decode q.cmd = .ok .serialize)) ∧
    ((t.cfg ≠ s.cfg ∨ t.bv ≠ s.bv ∨ t.result ≠ s.result ∨ t.err ≠ s.err ∨ t.fault ≠ s.fault ∨ t.outlen ≠ s.outlen) →
      s.engineMoves ∧ s.fault = false ∧ s.pend ≠ none) ∧
    ((t.pend ≠ s.pend ∨ t.busy ≠ s.busy ∨ t.ovr ≠ s.ovr) →
      (s.engineMoves ∧ s.fault = false ∧ s.pend ≠ none) ∨ ∃ v, s.inbox.head? = some (.store s.params.regBase 8 v))

/-! FAULT. -/

/-- R276: INSERT or EXIST with an index outside `[0, bitLength)` (here every index, `bitLength` being 0) sets the sticky
FAULT, records its reason and abandons the command. CFG, BV, ERR and RESULT are free values after it. That this is a next
state, and that ARG0 to ARG2, OVR, OUTLEN and XFER survive it, is the model's choice (log entry 9), not R276's words. -/
def Obligations.IndexOutOfRangeRaisesTheFault : Prop :=
  ∀ (s : State) (q : Pending) (i : Instr), i = .insert ∨ i = .exist → s.pend = some q → s.cfg.valid = true →
    q.a0.toNat ≤ s.params.xferBytes → s.cfg.bitLen = 0 → s.cfg.hRounds ≠ 0 →
    ∃ t, exec i s = .next t ∧ t.fault = true ∧ t.faultReason = some .indexRange ∧ t.pend = none ∧ t.busy = false ∧
      t.arg0 = s.arg0 ∧ t.arg1 = s.arg1 ∧ t.arg2 = s.arg2 ∧ t.ovr = s.ovr ∧ t.outlen = s.outlen ∧ t.xfer = s.xfer ∧
      t.xferEpoch = s.xferEpoch ∧ t.params = s.params ∧ t.inbox = s.inbox ∧ t.returned = s.returned ∧
      t.raceOpen = s.raceOpen

/-- R277: after FAULT every CMD write is discarded, the engine takes no step, FAULT stays 1 until a reset, and host
reads and XFER accesses keep working (an XFER access once BUSY = 0 has been read, R311: log entry 10). That CFG, BV, ERR and RESULT then stay what they were drawn to be at the fault is
the model's choice (log entry 9): R276 leaves them unspecified. -/
def Obligations.FaultIsStickyUntilReset : Prop :=
  ∀ s : State, s.Inv → s.fault = true →
    (∀ t, step s = .next t → s.inbox.head? ≠ some .reset →
      t.fault = true ∧ t.pend = none ∧ t.busy = false ∧ t.ovr = s.ovr ∧ t.cfg = s.cfg ∧ t.bv = s.bv ∧ t.err = s.err ∧
      t.result = s.result ∧ t.outlen = s.outlen) ∧
    (∀ v rest, s.inbox = .store s.params.regBase 8 v :: rest → step s = .next { s with inbox := rest }) ∧
    (∀ o rest, o % 8 = 0 → o ≤ 0xF8 → s.inbox = .load (s.params.regBase + o) 8 :: rest → ∃ t, step s = .next t) ∧
    (∀ a rest, s.params.windowsApart → a < s.params.xferBytes → s.raceOpen = false →
      s.inbox = .load (s.params.xferBase + a) 1 :: rest →
      step s = .next { s with inbox := rest, returned := (s.xferByte a).zeroExtend 64 :: s.returned }) ∧
    (∀ a v rest, s.params.windowsApart → a < s.params.xferBytes → s.raceOpen = false →
      s.inbox = .store (s.params.xferBase + a) 1 v :: rest →
      ∃ t, step s = .next t ∧ t.xferByte a = v.extractLsb' 0 8) ∧
    ∀ rest, s.inbox = .reset :: rest → ∃ t, step s = .next t ∧ t.fault = false

/-! The host's accesses. -/

/-- R95: the three things a host write to CMD can do. (An accepted one opens the interval of R311, which the model keeps
in a field of its own, log entry 10.) -/
def Obligations.CommandAcceptance : Prop :=
  ∀ (s : State) (v : Word) (rest : List Input), s.params.legal = true →
    s.inbox = .store s.params.regBase 8 v :: rest →
    (s.fault = true → step s = .next { s with inbox := rest }) ∧
    (s.fault = false → s.busy = true → step s = .next { s with inbox := rest, ovr := true }) ∧
    (s.fault = false → s.busy = false →
      step s = .next { s with
        inbox := rest, pend := some ⟨v, s.arg0, s.arg1, s.arg2⟩, busy := true, ovr := false, raceOpen := true })

/-- R28: the operand registers are write-any-read-same, whether or not a command is pending, and a write to one leaves
the copies in PEND, and everything else, as they were. -/
def Obligations.OperandRegistersReadBack : Prop :=
  ∀ (s : State) (v : Word) (rest : List Input), s.params.legal = true →
    (s.inbox = .store (s.params.regBase + 0x10) 8 v :: .load (s.params.regBase + 0x10) 8 :: rest →
      Host.Core.run Sys2Proof.core 2 s = .next { s with inbox := rest, arg0 := v, returned := v :: s.returned }) ∧
    (s.inbox = .store (s.params.regBase + 0x18) 8 v :: .load (s.params.regBase + 0x18) 8 :: rest →
      Host.Core.run Sys2Proof.core 2 s = .next { s with inbox := rest, arg1 := v, returned := v :: s.returned }) ∧
    (s.inbox = .store (s.params.regBase + 0x20) 8 v :: .load (s.params.regBase + 0x20) 8 :: rest →
      Host.Core.run Sys2Proof.core 2 s = .next { s with inbox := rest, arg2 := v, returned := v :: s.returned })

/-- R61: which accesses to the register window are defined; every other one is a host bus error. -/
def Obligations.RegisterAccessesDefined : Prop :=
  ∀ (s : State) (o width : Nat) (v : Word) (rest : List Input), s.params.legal = true → o < 256 →
    (width = 8 ∧ o % 8 = 0 →
      (s.inbox = .load (s.params.regBase + o) width :: rest → ∃ t, step s = .next t) ∧
      (s.inbox = .store (s.params.regBase + o) width v :: rest → ∃ t, step s = .next t)) ∧
    (¬ (width = 8 ∧ o % 8 = 0) →
      (s.inbox = .load (s.params.regBase + o) width :: rest → step s = .fault .hostBusError) ∧
      (s.inbox = .store (s.params.regBase + o) width v :: rest → step s = .fault .hostBusError))

/-- R25, R26, R30, R32 and R70: what a load of each register returns, and that it has no other effect on the block; R311:
a load of STATUS that returns BUSY = 0 closes the interval (the model's own field, log entry 10). -/
def Obligations.RegisterReads : Prop :=
  ∀ (s : State) (o : Nat) (rest : List Input), s.params.legal = true → o % 8 = 0 → o ≤ 0xF8 →
    s.inbox = .load (s.params.regBase + o) 8 :: rest →
    ∃ v : Word, step s = .next { s with
        inbox := rest, returned := v :: s.returned,
        raceOpen := if o = 0x08 then s.busy && s.raceOpen else s.raceOpen } ∧
      (o = 0x00 → v = 0) ∧ (o = 0x08 → v = s.status) ∧ (o = 0x10 → v = s.arg0) ∧ (o = 0x18 → v = s.arg1) ∧
      (o = 0x20 → v = s.arg2) ∧ (o = 0x28 → v = s.outlen) ∧ (o = 0x30 → v = s.cfg.bitLen) ∧
      (o = 0x38 → v = s.cfg.hRounds) ∧ (o = 0x40 → v = s.cfg.seed) ∧ (o = 0x48 → v = s.params.caps) ∧
      (0x50 ≤ o → v = 0)

/-- R25 and R32: a host write to a read-only or reserved register changes no state. -/
def Obligations.WritesToReadOnlyRegistersAreIgnored : Prop :=
  ∀ (s : State) (o : Nat) (v : Word) (rest : List Input), s.params.legal = true → o % 8 = 0 → o ≤ 0xF8 →
    (o = 0x08 ∨ 0x28 ≤ o) → s.inbox = .store (s.params.regBase + o) 8 v :: rest →
    step s = .next { s with inbox := rest }

/-- R27: the fields of STATUS. -/
def Obligations.StatusLayout : Prop :=
  ∀ s : State, s.status.getLsbD 0 = s.busy ∧ s.status.getLsbD 1 = s.cfg.valid ∧ s.status.getLsbD 2 = s.result ∧
    s.status.getLsbD 3 = s.fault ∧ s.status.getLsbD 4 = s.ovr ∧ s.status.extractLsb' 5 3 = 0 ∧
    s.status.extractLsb' 8 8 = s.err ∧ s.status.extractLsb' 16 48 = 0

/-- R62 and R280: which XFER accesses are defined, what a load returns and what a store writes outside the interval of a
race (R63, R311: TransferBufferRace); every other access is a host bus error. The model's choices in it: an access outside
both windows is one too (log entry 12), and an undefined access is one within the interval as well (log entry 11). -/
def Obligations.TransferBufferAccesses : Prop :=
  ∀ (s : State) (a width : Nat) (v : Word) (rest : List Input), s.params.legal = true → s.params.windowsApart →
    a < s.params.xferBytes →
    (width ∈ [1, 2, 4, 8] ∧ a % width = 0 ∧ a + width ≤ s.params.xferBytes → s.busy = false → s.raceOpen = false →
      (s.inbox = .load (s.params.xferBase + a) width :: rest →
        step s = .next { s with
          inbox := rest, returned := BitVec.ofNat 64 (fromLE (s.memRead a width)) :: s.returned }) ∧
      (s.inbox = .store (s.params.xferBase + a) width v :: rest →
        ∃ t, step s = .next t ∧ t = { s with inbox := rest, xfer := t.xfer } ∧
          ∀ b, t.xferByte b = if a ≤ b ∧ b < a + width then v.extractLsb' (8 * (b - a)) 8 else s.xferByte b)) ∧
    (¬ (width ∈ [1, 2, 4, 8] ∧ a % width = 0 ∧ a + width ≤ s.params.xferBytes) →
      (s.inbox = .load (s.params.xferBase + a) width :: rest → step s = .fault .hostBusError) ∧
      (s.inbox = .store (s.params.xferBase + a) width v :: rest → step s = .fault .hostBusError)) ∧
    ∀ addr, (addr < s.params.regBase ∨ s.params.regBase + 256 ≤ addr) →
      (addr < s.params.xferBase ∨ s.params.xferBase + s.params.xferBytes ≤ addr) →
      (s.inbox = .load addr width :: rest → step s = .fault .hostBusError) ∧
      (s.inbox = .store addr width v :: rest → step s = .fault .hostBusError)

/-- R63 and R311: a defined host access to XFER while BUSY = 1, or from an accepted CMD write until BUSY = 0 is read, is the
fault HOST_RACE; the interval opens at the acceptance of a CMD write and closes at the first poll or load of STATUS that
finds BUSY = 0, and at no other step but a reset (that a reset closes it: the model's choice, log entry 10). -/
def Obligations.TransferBufferRace : Prop :=
  (∀ (s : State) (a width : Nat) (v : Word) (rest : List Input), s.params.legal = true → s.params.windowsApart →
    width ∈ [1, 2, 4, 8] → a % width = 0 → a + width ≤ s.params.xferBytes → s.busy = true ∨ s.raceOpen = true →
    (s.inbox = .load (s.params.xferBase + a) width :: rest → step s = .fault .hostRace) ∧
    (s.inbox = .store (s.params.xferBase + a) width v :: rest → step s = .fault .hostRace)) ∧
  ∀ s t : State, step s = .next t →
    (t.raceOpen = true ↔
      (s.fault = false ∧ s.busy = false ∧ ∃ v, s.inbox.head? = some (.store s.params.regBase 8 v)) ∨
      (s.raceOpen = true ∧ s.inbox.head? ≠ some .reset ∧
        ¬ (s.busy = false ∧
          (s.inbox.head? = some .wait ∨ s.inbox.head? = some (.load (s.params.regBase + 0x08) 8)))))

/-- R67: mixed-width accesses to XFER see the bytes: an 8-byte store then a 1-byte load, and a 1-byte store then a wider
load that covers it. -/
def Obligations.MixedWidthsSeeTheBytes : Prop :=
  ∀ (s : State) (v : Word) (rest : List Input), s.params.legal = true → s.params.windowsApart → s.busy = false →
    s.raceOpen = false →
    (∀ a j, a % 8 = 0 → a + 8 ≤ s.params.xferBytes → j < 8 →
      s.inbox = .store (s.params.xferBase + a) 8 v :: .load (s.params.xferBase + (a + j)) 1 :: rest →
      ∃ t, Host.Core.run Sys2Proof.core 2 s = .next t ∧
        t.returned = (v.extractLsb' (8 * j) 8).zeroExtend 64 :: s.returned) ∧
    ∀ a j width, width ∈ [2, 4, 8] → a % width = 0 → a + width ≤ s.params.xferBytes → j < width →
      s.inbox = .store (s.params.xferBase + (a + j)) 1 v :: .load (s.params.xferBase + a) width :: rest →
      ∃ t r, Host.Core.run Sys2Proof.core 2 s = .next t ∧ t.returned = r :: s.returned ∧
        r.extractLsb' (8 * j) 8 = v.extractLsb' 0 8

/-- R103: the host assembly's XWR leaves its bytes in XFER from its offset on, one step a byte. -/
def Obligations.HostAssemblyWritesItsBytes : Prop :=
  ∀ (bs : List Byte) (s : State) (off : Nat) (rest : List Input), s.params.legal = true → s.params.windowsApart →
    s.busy = false → s.raceOpen = false → off + bs.length ≤ s.params.xferBytes →
    s.inbox = (Asm.xwr off bs).expand s.params ++ rest →
    ∃ t, Host.Core.run Sys2Proof.core bs.length s = .next t ∧ t.memRead off bs.length = bs ∧ t.inbox = rest ∧
      ∀ a, (a < off ∨ off + bs.length ≤ a) → t.xferByte a = s.xferByte a

/-! The sizing calculator. -/

/-- R121: the valid probability patterns, and the error of every other one. -/
def Obligations.ValidProbabilityPatterns : Prop :=
  ∀ (c : Params) (draw : Nat) (n b : Word),
    size c draw n b = .error .invalidParameter ↔ ¬ (1 ≤ b.toNat ∧ b.toNat ≤ 0x3FEFFFFFFFFFFFFF)

/-- R97 and R121: the real number a valid pattern denotes under IEEE 754 binary64, strictly between 0 and 1. -/
def Obligations.ProbabilityIsTheBinary64Value : Prop :=
  ∀ (b : Word) (p : Probability), probabilityOf b = some p →
    0 < p.toReal ∧ p.toReal < 1 ∧
    (b.toNat / 2 ^ 52 % 2 ^ 11 = 0 → p.toReal = (b.toNat % 2 ^ 52 : Nat) / (2 : ℝ) ^ 1074) ∧
    (b.toNat / 2 ^ 52 % 2 ^ 11 ≠ 0 →
      p.toReal = (1 + (b.toNat % 2 ^ 52 : Nat) / (2 : ℝ) ^ 52) * (2 : ℝ) ^ ((b.toNat / 2 ^ 52 % 2 ^ 11 : Nat) - 1023 : ℤ))

/-- R123, R129 and R131: the `m_raw` admitted are exactly `ceil(y)` for `y` in `x (1 - ε) .. x (1 + ε)` over the exact
reals, every draw takes one of them, and under `ε = 0` every draw takes `ceil(x)`. `ε` is within R7's bounds. -/
def Obligations.SizingIsTheIdealBitCount : Prop :=
  ∀ (c : Params) (p : Probability) (n : Nat), c.legal = true → 1 ≤ n →
    0 ≤ c.band ∧ c.band ≤ 1 / 2 ^ 30 ∧
    (∀ m : Nat, (mRawSpan c n p).lo ≤ m ∧ m ≤ (mRawSpan c n p).hi ↔
      ∃ y : ℝ, idealBits n p.toReal * (1 - c.band) ≤ y ∧ y ≤ idealBits n p.toReal * (1 + c.band) ∧ m = ⌈y⌉₊) ∧
    (∀ d, (mRawSpan c n p).lo ≤ (mRawSpan c n p).pick d ∧ (mRawSpan c n p).pick d ≤ (mRawSpan c n p).hi) ∧
    (c.band = 0 → ∀ d, (mRawSpan c n p).pick d = ⌈idealBits n p.toReal⌉₊)

/-- R127, R129 and R131: the same for `hashRounds = max(1, round(t))`, with the `bitLength` given. -/
def Obligations.SizingIsTheIdealRoundCount : Prop :=
  ∀ (c : Params) (n bitLen : Nat), c.legal = true →
    (∀ k : Nat, (roundsSpan c n bitLen).lo ≤ k ∧ k ≤ (roundsSpan c n bitLen).hi ↔
      ∃ y : ℝ, idealRounds n bitLen * (1 - c.band) ≤ y ∧ y ≤ idealRounds n bitLen * (1 + c.band) ∧
        k = max 1 ⌊y + 1 / 2⌋₊) ∧
    (∀ d, (roundsSpan c n bitLen).lo ≤ (roundsSpan c n bitLen).pick d ∧
      (roundsSpan c n bitLen).pick d ≤ (roundsSpan c n bitLen).hi) ∧
    (c.band = 0 → ∀ d, (roundsSpan c n bitLen).pick d = max 1 ⌊idealRounds n bitLen + 1 / 2⌋₊)

/-- R125: the power of two is the smallest that is at least `m_raw`, a power of two maps to itself, and a `bitLength`
within the capacity comes of an `m_raw` within it. -/
def Obligations.PowerOfTwoRounding : Prop :=
  ∀ m : Nat, 1 ≤ m →
    (∃ k, pow2ceil m = 2 ^ k) ∧ m ≤ pow2ceil m ∧ (∀ k, m ≤ 2 ^ k → pow2ceil m ≤ 2 ^ k) ∧ (∀ k, pow2ceil (2 ^ k) = 2 ^ k) ∧
    ∀ c : Params, m ≤ c.capBits → pow2ceil m ≤ c.capBits

/-- R122, R124, R125, R127, R130 and R131: a count of 0 is sized as 1; with a valid probability an admitted `m_raw` is
taken; the only error is CAPACITY_EXCEEDED, exactly when that `m_raw` is above CAP_BITS; otherwise `bitLength` is that
`m_raw` rounded up to a power of two, and `hashRounds` is one of those admitted for it. Which of several admitted values is
taken is a free value (log entry 7); under `ε = 0` there is exactly one result, the rules' own (R129). -/
def Obligations.CapacityIsCheckedAfterTheProbability : Prop :=
  (∀ (c : Params) (draw : Nat) (b : Word), size c draw 0 b = size c draw 1 b) ∧
  ∀ (c : Params) (draw : Nat) (n b : Word) (p : Probability), c.legal = true → probabilityOf b = some p →
    ∃ m : Nat, m = (mRawSpan c (itemCount n) p).pick (Config.sizingDraw draw) ∧
      (∃ y : ℝ, idealBits (itemCount n) p.toReal * (1 - c.band) ≤ y ∧
        y ≤ idealBits (itemCount n) p.toReal * (1 + c.band) ∧ m = ⌈y⌉₊) ∧
      (c.capBits < m → size c draw n b = .error .capacityExceeded) ∧
      (m ≤ c.capBits → ∃ k, size c draw n b = .ok (pow2ceil m, k) ∧
        ∃ y : ℝ, idealRounds (itemCount n) (pow2ceil m) * (1 - c.band) ≤ y ∧
          y ≤ idealRounds (itemCount n) (pow2ceil m) * (1 + c.band) ∧ k = max 1 ⌊y + 1 / 2⌋₊) ∧
      (c.band = 0 → size c draw n b =
        if c.capBits < ⌈idealBits (itemCount n) p.toReal⌉₊ then .error .capacityExceeded
        else .ok (pow2ceil m, max 1 ⌊idealRounds (itemCount n) (pow2ceil m) + 1 / 2⌋₊))

/-- R132, with the bounds of R140 on a successful result: `bitLength` a power of two between 1 and CAP_BITS,
`hashRounds` between 1 and 2149. -/
def Obligations.SizingSanity : Prop :=
  ∀ (c : Params) (draw : Nat) (n b : Word) (bitLen k : Nat), c.legal = true → size c draw n b = .ok (bitLen, k) →
    isPow2 bitLen = true ∧ 1 ≤ bitLen ∧ bitLen ≤ c.capBits ∧ 1 ≤ k ∧ k ≤ 2149

/-! NEW and NEW.S. -/

/-- R142: a NEW or NEW.S that sizes successfully completes: CFG is the sized configuration with the drawn or the given
seed, the filter's words are 0, ERR is OK and RESULT 0, and nothing else of the block changes. -/
def Obligations.NewInstallsAFreshFilter : Prop :=
  ∀ (s : State) (q : Pending) (i : Instr) (seed : Word) (bitLen k : Nat), s.params.legal = true → s.pend = some q →
    (i = .new ∧ seed = truncTo s.params.wSeed (Config.entropy s.draws) ∨
      i = .newS ∧ seed = truncTo s.params.wSeed q.a2) →
    size s.params s.draws q.a0 q.a1 = .ok (bitLen, k) →
    ∃ t, exec i s = .next t ∧ EngineFrame s t ∧ t.cfg.valid = true ∧ t.cfg.bitLen.toNat = bitLen ∧
      t.cfg.hRounds.toNat = k ∧ t.cfg.seed = seed ∧ (∀ j < wordCount bitLen, t.bv.word j = 0) ∧
      (∀ j, wordCount bitLen ≤ j → t.bv.word j = s.bv.word j) ∧ t.err = 0 ∧ t.result = false ∧ t.outlen = s.outlen ∧
      t.xfer = s.xfer ∧ (∀ a, t.xferByte a = s.xferByte a) ∧ t.draws = s.draws + 1

/-- R143: a NEW or NEW.S that does not size writes only ERR and RESULT (and the model's draw counter, log entry 4). -/
def Obligations.FailedNewChangesNothing : Prop :=
  ∀ (s : State) (q : Pending) (i : Instr) (e : ErrorCode), i = .new ∨ i = .newS → s.pend = some q →
    size s.params s.draws q.a0 q.a1 = .error e →
    exec i s = .next { s with err := e.code, result := false, draws := s.draws + 1 }

/-- R144: a fresh filter answers EXIST with 0 for every key. -/
def Obligations.FreshFilterHoldsNoKey : Prop :=
  ∀ (s t u : State) (q q' : Pending) (i : Instr), s.params.legal = true → s.pend = some q → i = .new ∨ i = .newS →
    exec i s = .next t → t.err = 0 → u.params = t.params → u.cfg = t.cfg → u.bv = t.bv → u.pend = some q' →
    q'.a0.toNat ≤ u.params.xferBytes →
    ∃ v, exec .exist u = .next v ∧ v.err = 0 ∧ v.result = false

/-! The hash and the bit vector. -/

/-- R155: the masked, wrapping index equals the sum over the unbounded integers modulo `bitLength`. -/
def Obligations.MaskedIndexIsTheResidue : Prop :=
  ∀ (h : Word × Word) (b i : Nat), b ≤ 63 →
    (hashIndex h (BitVec.ofNat 64 (2 ^ b)) i).toNat = (h.1.toNat + i * h.2.toNat) % 2 ^ b

/-- R154 and R156, for every base hash: exactly `hashRounds` indices, the i-th of them `(h1 + i * h2) & (bitLength - 1)` in
wrapping arithmetic, each in `[0, bitLength)`. -/
def Obligations.IndicesLengthAndRange : Prop :=
  ∀ (h : HashChoice) (seed bitLen : Word) (k : Nat) (key : List Byte),
    (indices h seed k bitLen key).length = k ∧
    (∀ i < k, (indices h seed k bitLen key)[i]? =
      some (((baseHash h seed key).1 + BitVec.ofNat 64 i * (baseHash h seed key).2) &&& (bitLen - 1))) ∧
    (bitLen ≠ 0 → ∀ w ∈ indices h seed k bitLen key, w.toNat < bitLen.toNat)

/-- R159: under RefHash the first `min(hashRounds, bitLength)` indices are pairwise distinct. -/
def Obligations.ReferenceIndicesAreDistinct : Prop :=
  ∀ (seed : Word) (b k : Nat) (key : List Byte), b ≤ 63 → k ≤ 2 ^ b →
    (indices .refHash seed k (BitVec.ofNat 64 (2 ^ b)) key).Nodup

/-- R161: the worked example of the reference hash and its indices. -/
def Obligations.ReferenceHashExample : Prop :=
  refHash 0x0123456789ABCDEF [0x52, 0x41, 0x47, 0x4E, 0x41, 0x52] = (0xAC9D7E2EF45DC67C, 0x0EEC58E4F471E31F) ∧
  indices .refHash 0x0123456789ABCDEF 11 16384 [0x52, 0x41, 0x47, 0x4E, 0x41, 0x52] =
    [1660, 10651, 3258, 12249, 4856, 13847, 6454, 15445, 8052, 659, 9650]

/-- R183 and R185: SetBit sets its bit and no other; out of range the access does not happen. -/
def Obligations.SetBitSetsOneBit : Prop :=
  ∀ (s : State) (i : Word), s.Inv → s.fault = false → s.cfg.valid = true →
    (s.cfg.bitLen.toNat ≤ i.toNat → s.setBit i = none) ∧
    (i.toNat < s.cfg.bitLen.toNat → ∃ t, s.setBit i = some t ∧ t = { s with bv := t.bv } ∧
      ∀ k, t.bv.bit k = (s.bv.bit k || decide (k = i.toNat)))

/-! INSERT and EXIST. -/

/-- R200: INSERT with a filter and a key that fits completes: it sets exactly the bits of the key's indices, reports OK,
and changes nothing else. -/
def Obligations.InsertSetsExactlyTheIndexedBits : Prop :=
  ∀ (s : State) (q : Pending), s.Inv → s.fault = false → s.cfg.valid = true → s.pend = some q →
    q.a0.toNat ≤ s.params.xferBytes →
    ∃ t, exec .insert s = .next t ∧ EngineFrame s t ∧ t.cfg = s.cfg ∧ t.err = 0 ∧ t.result = false ∧
      t.outlen = s.outlen ∧ t.xfer = s.xfer ∧ (∀ a, t.xferByte a = s.xferByte a) ∧ t.draws = s.draws ∧
      ∀ i, t.bv.bit i = true ↔ s.bv.bit i = true ∨
        ∃ w ∈ indices s.params.hash s.cfg.seed s.cfg.hRounds.toNat s.cfg.bitLen (s.memRead 0 q.a0.toNat), w.toNat = i

/-- R205: EXIST with a filter and a key that fits completes: RESULT is 1 exactly when every indexed bit is 1, ERR is OK,
and nothing else changes. -/
def Obligations.ExistTestsEveryIndexedBit : Prop :=
  ∀ (s : State) (q : Pending), s.Inv → s.fault = false → s.cfg.valid = true → s.pend = some q →
    q.a0.toNat ≤ s.params.xferBytes →
    ∃ r : Bool, exec .exist s = .next { s with err := 0, result := r } ∧
      (r = true ↔ ∀ w ∈ indices s.params.hash s.cfg.seed s.cfg.hRounds.toNat s.cfg.bitLen (s.memRead 0 q.a0.toNat),
        s.bv.bit w.toNat = true)

/-- R211: RESULT of EXIST is a function of CFG, the filter's words and the key alone. -/
def Obligations.ExistDependsOnFilterAndKeyAlone : Prop :=
  ∀ (s u v : State) (q q' : Pending) (t : State), s.Inv → u.Inv → s.fault = false → u.fault = false →
    s.params.hash = u.params.hash → s.cfg = u.cfg → (∀ j < wordCount s.cfg.bitLen.toNat, s.bv.word j = u.bv.word j) →
    s.pend = some q → u.pend = some q' → s.memRead 0 q.a0.toNat = u.memRead 0 q'.a0.toNat →
    exec .exist s = .next t → exec .exist u = .next v → t.err = 0 → v.err = 0 → t.result = v.result

/-- R186 and R187: within a filter's lifetime its configuration does not change and a bit only goes from 0 to 1. -/
def Obligations.BitsOnlyRiseWithinALifetime : Prop :=
  ∀ s t : State, s.Inv → s.fault = false → SameLifetime s t →
    t.cfg = s.cfg ∧ ∀ i, s.cfg.valid = true → i < s.cfg.bitLen.toNat → s.bv.bit i = true → t.bv.bit i = true

/-- R210: after an INSERT of a key that ends with OK, every later EXIST of that key in the same lifetime of the filter
ends with OK and RESULT 1. -/
def Obligations.NoFalseNegatives : Prop :=
  ∀ (s t u : State) (q q' : Pending), s.Inv → s.fault = false → s.pend = some q → decode q.cmd = .ok .insert →
    s.engineMoves → step s = .next t → t.err = 0 → SameLifetime t u → u.pend = some q' →
    u.memRead 0 q'.a0.toNat = s.memRead 0 q.a0.toNat →
    ∃ v, exec .exist u = .next v ∧ v.err = 0 ∧ v.result = true

/-- R188: the bits of word 0 beyond a short filter are changed by no INSERT and matter to no EXIST. -/
def Obligations.TailBitsAreOutsideTheFilter : Prop :=
  (∀ (s t : State), s.Inv → s.fault = false → s.cfg.valid = true → exec .insert s = .next t →
    ∀ i, s.cfg.bitLen.toNat ≤ i → t.bv.bit i = s.bv.bit i) ∧
  ∀ (s u t v : State) (b : BitStore), s.Inv → u.Inv → s.fault = false → u = { s with bv := b } →
    (∀ i < s.cfg.bitLen.toNat, b.bit i = s.bv.bit i) → exec .exist s = .next t → exec .exist u = .next v →
    t.result = v.result

/-! The codec. -/

/-- R230: SERIALIZE of a filter completes: the image is written at offset 0, OUTLEN is its length, no other byte of XFER
changes, and CFG, BV and the rest stay. -/
def Obligations.SerializeWritesTheImage : Prop :=
  ∀ (s : State) (q : Pending), s.Inv → s.fault = false → s.cfg.valid = true → s.pend = some q →
    ∃ t img, exec .serialize s = .next t ∧ EngineFrame s t ∧ t.cfg = s.cfg ∧ t.bv = s.bv ∧ t.err = 0 ∧
      t.result = false ∧ t.draws = s.draws ∧
      img = leBytes (s.params.wBL / 8) s.cfg.bitLen.toNat ++ leBytes (s.params.wHR / 8) s.cfg.hRounds.toNat ++
        leBytes (s.params.wSeed / 8) s.cfg.seed.toNat ++
        ((List.range ((s.cfg.bitLen.toNat + 63) / 64)).flatMap fun j => leBytes 8 (s.bv.word j).toNat) ∧
      img.length = s.params.hdr + 8 * ((s.cfg.bitLen.toNat + 63) / 64) ∧ img.length ≤ s.params.xferBytes ∧
      t.outlen.toNat = img.length ∧ t.memRead 0 img.length = img ∧
      ∀ a, img.length ≤ a → t.xferByte a = s.xferByte a

/-- R102: bit `i` of the filter is bit `i mod 8` of the image's byte `HDR + i / 8`. -/
def Obligations.ImageBitPlacement : Prop :=
  ∀ (s : State) (i : Nat), s.params.legal = true → i < 64 * wordCount s.cfg.bitLen.toNat →
    (s.image.getD (s.params.hdr + i / 8) 0).getLsbD (i % 8) = s.bv.bit i

/-- R233, R235 to R238: DESERIALIZE of a well-formed image completes: CFG is the header's, the filter's words are the
image's, ERR is OK and RESULT 0, and nothing else of the block changes. -/
def Obligations.DeserializeLoadsTheImage : Prop :=
  ∀ (s : State) (q : Pending) (img : List Byte) (bl k seed : Nat), s.params.legal = true → s.pend = some q →
    q.a0.toNat ≤ s.params.xferBytes → img = s.memRead 0 q.a0.toNat →
    bl = fromLE (img.take (s.params.wBL / 8)) → k = fromLE ((img.drop (s.params.wBL / 8)).take (s.params.wHR / 8)) →
    seed = fromLE ((img.drop ((s.params.wBL + s.params.wHR) / 8)).take (s.params.wSeed / 8)) →
    s.params.hdr ≤ q.a0.toNat → (∃ e, bl = 2 ^ e) → k ≠ 0 → bl ≤ s.params.capBits →
    q.a0.toNat = s.params.hdr + 8 * ((bl + 63) / 64) →
    ∃ t, exec .deserialize s = .next t ∧ EngineFrame s t ∧ t.cfg.valid = true ∧ t.cfg.bitLen.toNat = bl ∧
      t.cfg.hRounds.toNat = k ∧ t.cfg.seed.toNat = seed ∧
      (∀ j < (bl + 63) / 64, (t.bv.word j).toNat = fromLE ((img.drop (s.params.hdr + 8 * j)).take 8)) ∧
      (∀ j, (bl + 63) / 64 ≤ j → t.bv.word j = s.bv.word j) ∧ t.err = 0 ∧ t.result = false ∧ t.outlen = s.outlen ∧
      t.xfer = s.xfer ∧ (∀ a, t.xferByte a = s.xferByte a) ∧ t.draws = s.draws

/-- R272 and R239: the errors of DESERIALIZE, the first that applies in the order of the table, each changing only ERR
and RESULT. -/
def Obligations.DeserializeErrorsInOrder : Prop :=
  ∀ (s : State) (q : Pending) (img : List Byte) (bl k : Nat), s.pend = some q → img = s.memRead 0 q.a0.toNat →
    bl = fromLE (img.take (s.params.wBL / 8)) → k = fromLE ((img.drop (s.params.wBL / 8)).take (s.params.wHR / 8)) →
    (s.params.xferBytes < q.a0.toNat → exec .deserialize s = .next { s with err := 6, result := false }) ∧
    (q.a0.toNat ≤ s.params.xferBytes →
      (q.a0.toNat < s.params.hdr → exec .deserialize s = .next { s with err := 2, result := false }) ∧
      (s.params.hdr ≤ q.a0.toNat →
        ((¬ ∃ e, bl = 2 ^ e) → exec .deserialize s = .next { s with err := 2, result := false }) ∧
        ((∃ e, bl = 2 ^ e) →
          (k = 0 → exec .deserialize s = .next { s with err := 2, result := false }) ∧
          (k ≠ 0 →
            (s.params.capBits < bl → exec .deserialize s = .next { s with err := 4, result := false }) ∧
            (bl ≤ s.params.capBits → q.a0.toNat ≠ s.params.hdr + 8 * ((bl + 63) / 64) →
              exec .deserialize s = .next { s with err := 2, result := false })))))

/-- R240: a filter serialized and deserialized is the same filter: the DESERIALIZE of exactly the image a SERIALIZE wrote
succeeds, and gives the same configuration and the same words. -/
def Obligations.RoundTripKeepsTheFilter : Prop :=
  ∀ (s t u : State) (q : Pending), s.Inv → s.fault = false → s.cfg.valid = true → exec .serialize s = .next t →
    u.params = s.params → u.pend = some q → q.a0 = t.outlen →
    u.memRead 0 t.outlen.toNat = t.memRead 0 t.outlen.toNat →
    ∃ v, exec .deserialize u = .next v ∧ v.err = 0 ∧ v.cfg = s.cfg ∧
      (∀ j < wordCount s.cfg.bitLen.toNat, v.bv.word j = s.bv.word j) ∧
      ∀ i < s.cfg.bitLen.toNat, v.bv.bit i = s.bv.bit i

/-- R241: SERIALIZE after a successful DESERIALIZE of an image writes exactly that image again, tail bits included. -/
def Obligations.RoundTripKeepsTheImage : Prop :=
  ∀ (s t u : State) (q q' : Pending), s.params.legal = true → s.pend = some q → exec .deserialize s = .next t →
    t.err = 0 → u.params = t.params → u.cfg = t.cfg → u.bv = t.bv → u.pend = some q' →
    ∃ v, exec .serialize u = .next v ∧ v.err = 0 ∧ v.outlen = q.a0 ∧
      v.memRead 0 q.a0.toNat = s.memRead 0 q.a0.toNat

/-- R21 and R302 (while FAULT is 0): VALID goes back to 0 at a reset and never otherwise; CFG changes only by a reset or
by a NEW, NEW.S or DESERIALIZE that succeeds, and the storage by those and by INSERT; and what succeeds replaces the
storage with CFG: every word of the new filter is 0 after a NEW or NEW.S, the image's after a DESERIALIZE, and a fresh
draw after a reset. -/
def Obligations.FilterIsReplacedWhole : Prop :=
  ∀ s t : State, s.Inv → s.fault = false → step s = .next t →
    (t.cfg ≠ s.cfg → EndsLifetime s t) ∧
    (s.cfg.valid = true → t.cfg.valid = false → s.inbox.head? = some .reset) ∧
    ((∃ j, t.bv.word j ≠ s.bv.word j) →
      EndsLifetime s t ∨ (s.engineMoves ∧ ∃ q, s.pend = some q ∧ decode q.cmd = .ok .insert)) ∧
    (s.inbox.head? = some .reset → t.cfg = ⟨false, 0, 0, 0⟩ ∧ ∀ j, t.bv.word j = Config.bvDraw (s.draws + 1) j) ∧
    (EndsLifetime s t → s.inbox.head? ≠ some .reset →
      t.cfg.valid = true ∧ ∃ q, s.pend = some q ∧
        (decode q.cmd = .ok .new ∨ decode q.cmd = .ok .newS →
          ∀ j < wordCount t.cfg.bitLen.toNat, t.bv.word j = 0) ∧
        (decode q.cmd = .ok .deserialize → ∀ j < wordCount t.cfg.bitLen.toNat,
          t.bv.word j = BitVec.ofNat 64 (fromLE (s.memRead (s.params.hdr + 8 * j) 8))))
end

