-- ==== Sys2Proof/Laws/Cells.lean ====
section
/-! SUPPORT. What reading finds after a splice, that a splice keeps the canonical form, and that little-endian bytes
read back. -/

namespace Sys2Proof.Machine

variable {α : Type}

@[simp] theorem Cells.get?_nil (a : Nat) : Cells.get? ([] : List (Nat × α)) a = none := rfl

@[simp] theorem Cells.get?_cons (c : Nat × α) (m : List (Nat × α)) (a : Nat) :
    Cells.get? (c :: m) a = if c.1 = a then some c.2 else Cells.get? m a := rfl

theorem Cells.get?_append (m k : List (Nat × α)) (a : Nat) :
    Cells.get? (m ++ k) a = (Cells.get? m a).or (Cells.get? k a) := by
  induction m with
  | nil => simp
  | cons c m ih => by_cases h : c.1 = a <;> simp [h, ih]

theorem Cells.get?_below (a b : Nat) (m : List (Nat × α)) :
    Cells.get? (Cells.below a m) b = if b < a then Cells.get? m b else none := by
  induction m with
  | nil => simp [Cells.below]
  | cons c m ih =>
    simp only [Cells.below, List.filter_cons] at ih ⊢
    by_cases h : c.1 < a <;> by_cases e : c.1 = b
    · subst e; simp [h]
    · simp [h, e, ih]
    · subst e; simp [h, ih]
    · simp [h, e, ih]

theorem Cells.get?_onward (a b : Nat) (m : List (Nat × α)) :
    Cells.get? (Cells.onward a m) b = if a ≤ b then Cells.get? m b else none := by
  induction m with
  | nil => simp [Cells.onward]
  | cons c m ih =>
    simp only [Cells.onward, List.filter_cons] at ih ⊢
    by_cases h : a ≤ c.1 <;> by_cases e : c.1 = b
    · subst e; simp [h]
    · simp [h, e, ih]
    · subst e; simp [h, ih]
    · simp [h, e, ih]

theorem Cells.get?_number (a b : Nat) (vs : List α) :
    Cells.get? (Cells.number a vs) b = if a ≤ b then vs[b - a]? else none := by
  induction vs generalizing a with
  | nil => simp [Cells.number]
  | cons v vs ih =>
    simp only [Cells.number, Cells.get?_cons, ih]
    rcases Nat.lt_trichotomy a b with h | h | h
    · have e : b - a = (b - (a + 1)) + 1 := by omega
      simp [show a ≠ b by omega, show a + 1 ≤ b by omega, show a ≤ b by omega, e]
    · simp [h]
    · simp [show a ≠ b by omega, show ¬ a + 1 ≤ b by omega, show ¬ a ≤ b by omega]

/-- Reading after a splice: inside the written range the value written, outside it what was there. -/
theorem Cells.get?_splice (a b : Nat) (vs : List α) (m : List (Nat × α)) :
    Cells.get? (Cells.splice a vs m) b = if a ≤ b ∧ b < a + vs.length then vs[b - a]? else Cells.get? m b := by
  simp only [Cells.splice, Cells.get?_append, Cells.get?_below, Cells.get?_number, Cells.get?_onward]
  rcases Nat.lt_or_ge b a with h | h
  · simp [h, show ¬ a ≤ b by omega, show ¬ a + vs.length ≤ b by omega]
  · rcases Nat.lt_or_ge b (a + vs.length) with g | g
    · have : b - a < vs.length := by omega
      simp [h, g, show ¬ b < a by omega, show ¬ a + vs.length ≤ b by omega]
    · have : vs[b - a]? = none := List.getElem?_eq_none (by omega)
      simp [h, g, this, show ¬ b < a by omega, show ¬ b < a + vs.length by omega]

theorem Cells.mem_number {a : Nat} {vs : List α} {c : Nat × α} (h : c ∈ Cells.number a vs) :
    a ≤ c.1 ∧ c.1 < a + vs.length ∧ c.2 ∈ vs := by
  induction vs generalizing a with
  | nil => simp [Cells.number] at h
  | cons v vs ih =>
    rcases List.mem_cons.1 (by simpa [Cells.number] using h) with rfl | h'
    · simp
    · obtain ⟨h1, h2, h3⟩ := ih h'
      simp only [List.length_cons]
      exact ⟨by omega, by omega, List.mem_cons_of_mem _ h3⟩

theorem Cells.rising_number (a : Nat) (vs : List α) : Cells.Rising (Cells.number a vs) := by
  induction vs generalizing a with
  | nil => exact List.Pairwise.nil
  | cons v vs ih =>
    refine List.Pairwise.cons (fun c hc => ?_) (ih (a + 1))
    have := Cells.mem_number hc
    omega

theorem Cells.mem_below {a : Nat} {m : List (Nat × α)} {c : Nat × α} :
    c ∈ Cells.below a m ↔ c ∈ m ∧ c.1 < a := by simp [Cells.below]

theorem Cells.mem_onward {a : Nat} {m : List (Nat × α)} {c : Nat × α} :
    c ∈ Cells.onward a m ↔ c ∈ m ∧ a ≤ c.1 := by simp [Cells.onward]

theorem Cells.rising_below {m : List (Nat × α)} (h : Cells.Rising m) (a : Nat) : Cells.Rising (Cells.below a m) :=
  h.filter _

theorem Cells.rising_onward {m : List (Nat × α)} (h : Cells.Rising m) (a : Nat) : Cells.Rising (Cells.onward a m) :=
  h.filter _

/-- A splice keeps the canonical form. -/
theorem Cells.rising_splice {m : List (Nat × α)} (h : Cells.Rising m) (a : Nat) (vs : List α) :
    Cells.Rising (Cells.splice a vs m) := by
  refine List.pairwise_append.2 ⟨List.pairwise_append.2 ⟨rising_below h a, rising_number a vs, ?_⟩, rising_onward h _, ?_⟩
  · intro x hx y hy
    have := Cells.mem_below.1 hx
    have := Cells.mem_number hy
    omega
  · intro x hx y hy
    have hy' := Cells.mem_onward.1 hy
    rcases List.mem_append.1 hx with hx | hx
    · have := Cells.mem_below.1 hx
      omega
    · have := Cells.mem_number hx
      omega

theorem Cells.mem_splice {a : Nat} {vs : List α} {m : List (Nat × α)} {c : Nat × α} (h : c ∈ Cells.splice a vs m) :
    c ∈ m ∨ (a ≤ c.1 ∧ c.1 < a + vs.length ∧ c.2 ∈ vs) := by
  rcases List.mem_append.1 h with h | h
  · rcases List.mem_append.1 h with h | h
    · exact .inl (Cells.mem_below.1 h).1
    · exact .inr (Cells.mem_number h)
  · exact .inl (Cells.mem_onward.1 h).1

/-- In a rising list an entry is found by its index. -/
theorem Cells.get?_of_mem {m : List (Nat × α)} (h : Cells.Rising m) {c : Nat × α} (hc : c ∈ m) :
    Cells.get? m c.1 = some c.2 := by
  induction m with
  | nil => cases hc
  | cons d m ih =>
    obtain ⟨h1, h2⟩ := List.pairwise_cons.1 h
    rcases List.mem_cons.1 hc with rfl | hc
    · simp
    · have := h1 c hc
      simp [show d.1 ≠ c.1 by omega, ih h2 hc]

theorem Cells.mem_of_get? {m : List (Nat × α)} {a : Nat} {v : α} (h : Cells.get? m a = some v) : (a, v) ∈ m := by
  induction m with
  | nil => cases h
  | cons d m ih =>
    by_cases e : d.1 = a
    · have : d.2 = v := by simpa [e] using h
      subst e this
      simp
    · exact List.mem_cons_of_mem _ (ih (by simpa [e] using h))

theorem leBytes_length (n v : Nat) : (leBytes n v).length = n := by
  induction n generalizing v with
  | zero => rfl
  | succ n ih => simp [leBytes, ih]

/-- The bytes of a value read back as the value, modulo their width. -/
theorem fromLE_leBytes (n v : Nat) : fromLE (leBytes n v) = v % 2 ^ (8 * n) := by
  induction n generalizing v with
  | zero => simp [leBytes, fromLE, Nat.mod_one]
  | succ n ih =>
    have e : (2 : Nat) ^ (8 * (n + 1)) = 256 * 2 ^ (8 * n) := by rw [Nat.mul_add, Nat.pow_add]; ring
    simp only [leBytes, fromLE, ih, BitVec.toNat_ofNat, e]
    rw [Nat.mod_mul]

theorem fromLE_lt (bs : List Byte) : fromLE bs < 2 ^ (8 * bs.length) := by
  induction bs with
  | nil => simp [fromLE]
  | cons b bs ih =>
    have e : (2 : Nat) ^ (8 * (b :: bs).length) = 256 * 2 ^ (8 * bs.length) := by
      rw [List.length_cons, Nat.mul_add, Nat.pow_add]; ring
    have := b.isLt
    simp only [fromLE, e]
    omega

/-- Bytes that are read and written again are the same bytes. -/
theorem leBytes_fromLE (bs : List Byte) : leBytes bs.length (fromLE bs) = bs := by
  induction bs with
  | nil => rfl
  | cons b bs ih =>
    have hb := b.isLt
    have h2 : (b.toNat + 256 * fromLE bs) / 256 = fromLE bs := by omega
    simp only [List.length_cons, leBytes, fromLE, h2, ih, List.cons.injEq, and_true]
    apply BitVec.eq_of_toNat_eq
    simp only [BitVec.toNat_ofNat]
    omega

theorem truncTo_toNat_lt (w : Nat) (v : Word) : (truncTo w v).toNat < 2 ^ w := by
  have h := Nat.mod_lt v.toNat (Nat.two_pow_pos w)
  have h2 := Nat.mod_le v.toNat (2 ^ w)
  have h3 := v.isLt
  simp only [truncTo, BitVec.toNat_ofNat]
  rw [Nat.mod_eq_of_lt (by omega)]
  exact h

end Sys2Proof.Machine
end

