-- ==== Sys2Proof/Laws/State.lean ====
section
/-! SUPPORT. One lemma per field per update of the state, so that no proof unfolds a record update. -/

namespace Sys2Proof.Machine

variable (s : State)

@[simp] theorem State.memWrite_cfg (a : Nat) (bs : List Byte) : (s.memWrite a bs).cfg = s.cfg := rfl
@[simp] theorem State.memWrite_bv (a : Nat) (bs : List Byte) : (s.memWrite a bs).bv = s.bv := rfl
@[simp] theorem State.memWrite_arg0 (a : Nat) (bs : List Byte) : (s.memWrite a bs).arg0 = s.arg0 := rfl
@[simp] theorem State.memWrite_arg1 (a : Nat) (bs : List Byte) : (s.memWrite a bs).arg1 = s.arg1 := rfl
@[simp] theorem State.memWrite_arg2 (a : Nat) (bs : List Byte) : (s.memWrite a bs).arg2 = s.arg2 := rfl
@[simp] theorem State.memWrite_busy (a : Nat) (bs : List Byte) : (s.memWrite a bs).busy = s.busy := rfl
@[simp] theorem State.memWrite_result (a : Nat) (bs : List Byte) : (s.memWrite a bs).result = s.result := rfl
@[simp] theorem State.memWrite_fault (a : Nat) (bs : List Byte) : (s.memWrite a bs).fault = s.fault := rfl
@[simp] theorem State.memWrite_ovr (a : Nat) (bs : List Byte) : (s.memWrite a bs).ovr = s.ovr := rfl
@[simp] theorem State.memWrite_err (a : Nat) (bs : List Byte) : (s.memWrite a bs).err = s.err := rfl
@[simp] theorem State.memWrite_outlen (a : Nat) (bs : List Byte) : (s.memWrite a bs).outlen = s.outlen := rfl
@[simp] theorem State.memWrite_pend (a : Nat) (bs : List Byte) : (s.memWrite a bs).pend = s.pend := rfl
@[simp] theorem State.memWrite_xfer (a : Nat) (bs : List Byte) : (s.memWrite a bs).xfer = Cells.splice a bs s.xfer := rfl
@[simp] theorem State.memWrite_faultReason (a : Nat) (bs : List Byte) : (s.memWrite a bs).faultReason = s.faultReason := rfl
@[simp] theorem State.memWrite_params (a : Nat) (bs : List Byte) : (s.memWrite a bs).params = s.params := rfl
@[simp] theorem State.memWrite_xferEpoch (a : Nat) (bs : List Byte) : (s.memWrite a bs).xferEpoch = s.xferEpoch := rfl
@[simp] theorem State.memWrite_raceOpen (a : Nat) (bs : List Byte) : (s.memWrite a bs).raceOpen = s.raceOpen := rfl
@[simp] theorem State.memWrite_draws (a : Nat) (bs : List Byte) : (s.memWrite a bs).draws = s.draws := rfl
@[simp] theorem State.memWrite_inbox (a : Nat) (bs : List Byte) : (s.memWrite a bs).inbox = s.inbox := rfl
@[simp] theorem State.memWrite_returned (a : Nat) (bs : List Byte) : (s.memWrite a bs).returned = s.returned := rfl

@[simp] theorem State.tick_cfg : (s.tick).cfg = s.cfg := rfl
@[simp] theorem State.tick_bv : (s.tick).bv = s.bv := rfl
@[simp] theorem State.tick_arg0 : (s.tick).arg0 = s.arg0 := rfl
@[simp] theorem State.tick_arg1 : (s.tick).arg1 = s.arg1 := rfl
@[simp] theorem State.tick_arg2 : (s.tick).arg2 = s.arg2 := rfl
@[simp] theorem State.tick_busy : (s.tick).busy = s.busy := rfl
@[simp] theorem State.tick_result : (s.tick).result = s.result := rfl
@[simp] theorem State.tick_fault : (s.tick).fault = s.fault := rfl
@[simp] theorem State.tick_ovr : (s.tick).ovr = s.ovr := rfl
@[simp] theorem State.tick_err : (s.tick).err = s.err := rfl
@[simp] theorem State.tick_outlen : (s.tick).outlen = s.outlen := rfl
@[simp] theorem State.tick_pend : (s.tick).pend = s.pend := rfl
@[simp] theorem State.tick_xfer : (s.tick).xfer = s.xfer := rfl
@[simp] theorem State.tick_faultReason : (s.tick).faultReason = s.faultReason := rfl
@[simp] theorem State.tick_params : (s.tick).params = s.params := rfl
@[simp] theorem State.tick_xferEpoch : (s.tick).xferEpoch = s.xferEpoch := rfl
@[simp] theorem State.tick_raceOpen : (s.tick).raceOpen = s.raceOpen := rfl
@[simp] theorem State.tick_draws : (s.tick).draws = s.draws + 1 := rfl
@[simp] theorem State.tick_inbox : (s.tick).inbox = s.inbox := rfl
@[simp] theorem State.tick_returned : (s.tick).returned = s.returned := rfl

@[simp] theorem State.install_cfg (c : FilterCfg) (b : BitStore) : (s.install c b).cfg = c := rfl
@[simp] theorem State.install_bv (c : FilterCfg) (b : BitStore) : (s.install c b).bv = b := rfl
@[simp] theorem State.install_arg0 (c : FilterCfg) (b : BitStore) : (s.install c b).arg0 = s.arg0 := rfl
@[simp] theorem State.install_arg1 (c : FilterCfg) (b : BitStore) : (s.install c b).arg1 = s.arg1 := rfl
@[simp] theorem State.install_arg2 (c : FilterCfg) (b : BitStore) : (s.install c b).arg2 = s.arg2 := rfl
@[simp] theorem State.install_busy (c : FilterCfg) (b : BitStore) : (s.install c b).busy = s.busy := rfl
@[simp] theorem State.install_result (c : FilterCfg) (b : BitStore) : (s.install c b).result = s.result := rfl
@[simp] theorem State.install_fault (c : FilterCfg) (b : BitStore) : (s.install c b).fault = s.fault := rfl
@[simp] theorem State.install_ovr (c : FilterCfg) (b : BitStore) : (s.install c b).ovr = s.ovr := rfl
@[simp] theorem State.install_err (c : FilterCfg) (b : BitStore) : (s.install c b).err = s.err := rfl
@[simp] theorem State.install_outlen (c : FilterCfg) (b : BitStore) : (s.install c b).outlen = s.outlen := rfl
@[simp] theorem State.install_pend (c : FilterCfg) (b : BitStore) : (s.install c b).pend = s.pend := rfl
@[simp] theorem State.install_xfer (c : FilterCfg) (b : BitStore) : (s.install c b).xfer = s.xfer := rfl
@[simp] theorem State.install_faultReason (c : FilterCfg) (b : BitStore) : (s.install c b).faultReason = s.faultReason := rfl
@[simp] theorem State.install_params (c : FilterCfg) (b : BitStore) : (s.install c b).params = s.params := rfl
@[simp] theorem State.install_xferEpoch (c : FilterCfg) (b : BitStore) : (s.install c b).xferEpoch = s.xferEpoch := rfl
@[simp] theorem State.install_raceOpen (c : FilterCfg) (b : BitStore) : (s.install c b).raceOpen = s.raceOpen := rfl
@[simp] theorem State.install_draws (c : FilterCfg) (b : BitStore) : (s.install c b).draws = s.draws := rfl
@[simp] theorem State.install_inbox (c : FilterCfg) (b : BitStore) : (s.install c b).inbox = s.inbox := rfl
@[simp] theorem State.install_returned (c : FilterCfg) (b : BitStore) : (s.install c b).returned = s.returned := rfl

@[simp] theorem State.retire_cfg : (s.retire).cfg = s.cfg := rfl
@[simp] theorem State.retire_bv : (s.retire).bv = s.bv := rfl
@[simp] theorem State.retire_arg0 : (s.retire).arg0 = s.arg0 := rfl
@[simp] theorem State.retire_arg1 : (s.retire).arg1 = s.arg1 := rfl
@[simp] theorem State.retire_arg2 : (s.retire).arg2 = s.arg2 := rfl
@[simp] theorem State.retire_busy : (s.retire).busy = false := rfl
@[simp] theorem State.retire_result : (s.retire).result = s.result := rfl
@[simp] theorem State.retire_fault : (s.retire).fault = s.fault := rfl
@[simp] theorem State.retire_ovr : (s.retire).ovr = s.ovr := rfl
@[simp] theorem State.retire_err : (s.retire).err = s.err := rfl
@[simp] theorem State.retire_outlen : (s.retire).outlen = s.outlen := rfl
@[simp] theorem State.retire_pend : (s.retire).pend = none := rfl
@[simp] theorem State.retire_xfer : (s.retire).xfer = s.xfer := rfl
@[simp] theorem State.retire_faultReason : (s.retire).faultReason = s.faultReason := rfl
@[simp] theorem State.retire_params : (s.retire).params = s.params := rfl
@[simp] theorem State.retire_xferEpoch : (s.retire).xferEpoch = s.xferEpoch := rfl
@[simp] theorem State.retire_raceOpen : (s.retire).raceOpen = s.raceOpen := rfl
@[simp] theorem State.retire_draws : (s.retire).draws = s.draws := rfl
@[simp] theorem State.retire_inbox : (s.retire).inbox = s.inbox := rfl
@[simp] theorem State.retire_returned : (s.retire).returned = s.returned := rfl

@[simp] theorem State.report_cfg (e : ErrorCode) (r : Bool) : (s.report e r).cfg = s.cfg := rfl
@[simp] theorem State.report_bv (e : ErrorCode) (r : Bool) : (s.report e r).bv = s.bv := rfl
@[simp] theorem State.report_arg0 (e : ErrorCode) (r : Bool) : (s.report e r).arg0 = s.arg0 := rfl
@[simp] theorem State.report_arg1 (e : ErrorCode) (r : Bool) : (s.report e r).arg1 = s.arg1 := rfl
@[simp] theorem State.report_arg2 (e : ErrorCode) (r : Bool) : (s.report e r).arg2 = s.arg2 := rfl
@[simp] theorem State.report_busy (e : ErrorCode) (r : Bool) : (s.report e r).busy = s.busy := rfl
@[simp] theorem State.report_result (e : ErrorCode) (r : Bool) : (s.report e r).result = r := rfl
@[simp] theorem State.report_fault (e : ErrorCode) (r : Bool) : (s.report e r).fault = s.fault := rfl
@[simp] theorem State.report_ovr (e : ErrorCode) (r : Bool) : (s.report e r).ovr = s.ovr := rfl
@[simp] theorem State.report_err (e : ErrorCode) (r : Bool) : (s.report e r).err = e.code := rfl
@[simp] theorem State.report_outlen (e : ErrorCode) (r : Bool) : (s.report e r).outlen = s.outlen := rfl
@[simp] theorem State.report_pend (e : ErrorCode) (r : Bool) : (s.report e r).pend = s.pend := rfl
@[simp] theorem State.report_xfer (e : ErrorCode) (r : Bool) : (s.report e r).xfer = s.xfer := rfl
@[simp] theorem State.report_faultReason (e : ErrorCode) (r : Bool) : (s.report e r).faultReason = s.faultReason := rfl
@[simp] theorem State.report_params (e : ErrorCode) (r : Bool) : (s.report e r).params = s.params := rfl
@[simp] theorem State.report_xferEpoch (e : ErrorCode) (r : Bool) : (s.report e r).xferEpoch = s.xferEpoch := rfl
@[simp] theorem State.report_raceOpen (e : ErrorCode) (r : Bool) : (s.report e r).raceOpen = s.raceOpen := rfl
@[simp] theorem State.report_draws (e : ErrorCode) (r : Bool) : (s.report e r).draws = s.draws := rfl
@[simp] theorem State.report_inbox (e : ErrorCode) (r : Bool) : (s.report e r).inbox = s.inbox := rfl
@[simp] theorem State.report_returned (e : ErrorCode) (r : Bool) : (s.report e r).returned = s.returned := rfl

@[simp] theorem State.fail_cfg (e : ErrorCode) : (s.fail e).cfg = s.cfg := rfl
@[simp] theorem State.fail_bv (e : ErrorCode) : (s.fail e).bv = s.bv := rfl
@[simp] theorem State.fail_arg0 (e : ErrorCode) : (s.fail e).arg0 = s.arg0 := rfl
@[simp] theorem State.fail_arg1 (e : ErrorCode) : (s.fail e).arg1 = s.arg1 := rfl
@[simp] theorem State.fail_arg2 (e : ErrorCode) : (s.fail e).arg2 = s.arg2 := rfl
@[simp] theorem State.fail_busy (e : ErrorCode) : (s.fail e).busy = s.busy := rfl
@[simp] theorem State.fail_result (e : ErrorCode) : (s.fail e).result = false := rfl
@[simp] theorem State.fail_fault (e : ErrorCode) : (s.fail e).fault = s.fault := rfl
@[simp] theorem State.fail_ovr (e : ErrorCode) : (s.fail e).ovr = s.ovr := rfl
@[simp] theorem State.fail_err (e : ErrorCode) : (s.fail e).err = e.code := rfl
@[simp] theorem State.fail_outlen (e : ErrorCode) : (s.fail e).outlen = s.outlen := rfl
@[simp] theorem State.fail_pend (e : ErrorCode) : (s.fail e).pend = s.pend := rfl
@[simp] theorem State.fail_xfer (e : ErrorCode) : (s.fail e).xfer = s.xfer := rfl
@[simp] theorem State.fail_faultReason (e : ErrorCode) : (s.fail e).faultReason = s.faultReason := rfl
@[simp] theorem State.fail_params (e : ErrorCode) : (s.fail e).params = s.params := rfl
@[simp] theorem State.fail_xferEpoch (e : ErrorCode) : (s.fail e).xferEpoch = s.xferEpoch := rfl
@[simp] theorem State.fail_raceOpen (e : ErrorCode) : (s.fail e).raceOpen = s.raceOpen := rfl
@[simp] theorem State.fail_draws (e : ErrorCode) : (s.fail e).draws = s.draws := rfl
@[simp] theorem State.fail_inbox (e : ErrorCode) : (s.fail e).inbox = s.inbox := rfl
@[simp] theorem State.fail_returned (e : ErrorCode) : (s.fail e).returned = s.returned := rfl

@[simp] theorem State.returnLoad_cfg (v : Word) : (s.returnLoad v).cfg = s.cfg := rfl
@[simp] theorem State.returnLoad_bv (v : Word) : (s.returnLoad v).bv = s.bv := rfl
@[simp] theorem State.returnLoad_arg0 (v : Word) : (s.returnLoad v).arg0 = s.arg0 := rfl
@[simp] theorem State.returnLoad_arg1 (v : Word) : (s.returnLoad v).arg1 = s.arg1 := rfl
@[simp] theorem State.returnLoad_arg2 (v : Word) : (s.returnLoad v).arg2 = s.arg2 := rfl
@[simp] theorem State.returnLoad_busy (v : Word) : (s.returnLoad v).busy = s.busy := rfl
@[simp] theorem State.returnLoad_result (v : Word) : (s.returnLoad v).result = s.result := rfl
@[simp] theorem State.returnLoad_fault (v : Word) : (s.returnLoad v).fault = s.fault := rfl
@[simp] theorem State.returnLoad_ovr (v : Word) : (s.returnLoad v).ovr = s.ovr := rfl
@[simp] theorem State.returnLoad_err (v : Word) : (s.returnLoad v).err = s.err := rfl
@[simp] theorem State.returnLoad_outlen (v : Word) : (s.returnLoad v).outlen = s.outlen := rfl
@[simp] theorem State.returnLoad_pend (v : Word) : (s.returnLoad v).pend = s.pend := rfl
@[simp] theorem State.returnLoad_xfer (v : Word) : (s.returnLoad v).xfer = s.xfer := rfl
@[simp] theorem State.returnLoad_faultReason (v : Word) : (s.returnLoad v).faultReason = s.faultReason := rfl
@[simp] theorem State.returnLoad_params (v : Word) : (s.returnLoad v).params = s.params := rfl
@[simp] theorem State.returnLoad_xferEpoch (v : Word) : (s.returnLoad v).xferEpoch = s.xferEpoch := rfl
@[simp] theorem State.returnLoad_raceOpen (v : Word) : (s.returnLoad v).raceOpen = s.raceOpen := rfl
@[simp] theorem State.returnLoad_draws (v : Word) : (s.returnLoad v).draws = s.draws := rfl
@[simp] theorem State.returnLoad_inbox (v : Word) : (s.returnLoad v).inbox = s.inbox := rfl
@[simp] theorem State.returnLoad_returned (v : Word) : (s.returnLoad v).returned = v :: s.returned := rfl

@[simp] theorem State.polled_cfg : (s.polled).cfg = s.cfg := rfl
@[simp] theorem State.polled_bv : (s.polled).bv = s.bv := rfl
@[simp] theorem State.polled_arg0 : (s.polled).arg0 = s.arg0 := rfl
@[simp] theorem State.polled_arg1 : (s.polled).arg1 = s.arg1 := rfl
@[simp] theorem State.polled_arg2 : (s.polled).arg2 = s.arg2 := rfl
@[simp] theorem State.polled_busy : (s.polled).busy = s.busy := rfl
@[simp] theorem State.polled_result : (s.polled).result = s.result := rfl
@[simp] theorem State.polled_fault : (s.polled).fault = s.fault := rfl
@[simp] theorem State.polled_ovr : (s.polled).ovr = s.ovr := rfl
@[simp] theorem State.polled_err : (s.polled).err = s.err := rfl
@[simp] theorem State.polled_outlen : (s.polled).outlen = s.outlen := rfl
@[simp] theorem State.polled_pend : (s.polled).pend = s.pend := rfl
@[simp] theorem State.polled_xfer : (s.polled).xfer = s.xfer := rfl
@[simp] theorem State.polled_faultReason : (s.polled).faultReason = s.faultReason := rfl
@[simp] theorem State.polled_params : (s.polled).params = s.params := rfl
@[simp] theorem State.polled_xferEpoch : (s.polled).xferEpoch = s.xferEpoch := rfl
@[simp] theorem State.polled_raceOpen : (s.polled).raceOpen = (s.busy && s.raceOpen) := rfl
@[simp] theorem State.polled_draws : (s.polled).draws = s.draws := rfl
@[simp] theorem State.polled_inbox : (s.polled).inbox = s.inbox := rfl
@[simp] theorem State.polled_returned : (s.polled).returned = s.returned := rfl

@[simp] theorem State.raiseFault_bv (r : FaultReason) : (s.raiseFault r).bv = ⟨s.draws + 1, 0, []⟩ := rfl
@[simp] theorem State.raiseFault_arg0 (r : FaultReason) : (s.raiseFault r).arg0 = s.arg0 := rfl
@[simp] theorem State.raiseFault_arg1 (r : FaultReason) : (s.raiseFault r).arg1 = s.arg1 := rfl
@[simp] theorem State.raiseFault_arg2 (r : FaultReason) : (s.raiseFault r).arg2 = s.arg2 := rfl
@[simp] theorem State.raiseFault_busy (r : FaultReason) : (s.raiseFault r).busy = false := rfl
@[simp] theorem State.raiseFault_result (r : FaultReason) : (s.raiseFault r).result = Config.faultResult s.draws := rfl
@[simp] theorem State.raiseFault_fault (r : FaultReason) : (s.raiseFault r).fault = true := rfl
@[simp] theorem State.raiseFault_ovr (r : FaultReason) : (s.raiseFault r).ovr = s.ovr := rfl
@[simp] theorem State.raiseFault_err (r : FaultReason) : (s.raiseFault r).err = Config.faultErr s.draws := rfl
@[simp] theorem State.raiseFault_outlen (r : FaultReason) : (s.raiseFault r).outlen = s.outlen := rfl
@[simp] theorem State.raiseFault_pend (r : FaultReason) : (s.raiseFault r).pend = none := rfl
@[simp] theorem State.raiseFault_xfer (r : FaultReason) : (s.raiseFault r).xfer = s.xfer := rfl
@[simp] theorem State.raiseFault_faultReason (r : FaultReason) : (s.raiseFault r).faultReason = some r := rfl
@[simp] theorem State.raiseFault_params (r : FaultReason) : (s.raiseFault r).params = s.params := rfl
@[simp] theorem State.raiseFault_xferEpoch (r : FaultReason) : (s.raiseFault r).xferEpoch = s.xferEpoch := rfl
@[simp] theorem State.raiseFault_raceOpen (r : FaultReason) : (s.raiseFault r).raceOpen = s.raceOpen := rfl
@[simp] theorem State.raiseFault_draws (r : FaultReason) : (s.raiseFault r).draws = s.draws + 1 := rfl
@[simp] theorem State.raiseFault_inbox (r : FaultReason) : (s.raiseFault r).inbox = s.inbox := rfl
@[simp] theorem State.raiseFault_returned (r : FaultReason) : (s.raiseFault r).returned = s.returned := rfl

@[simp] theorem State.resetBlock_cfg : (s.resetBlock).cfg = ⟨false, 0, 0, 0⟩ := rfl
@[simp] theorem State.resetBlock_bv : (s.resetBlock).bv = ⟨s.draws + 1, 0, []⟩ := rfl
@[simp] theorem State.resetBlock_arg0 : (s.resetBlock).arg0 = 0 := rfl
@[simp] theorem State.resetBlock_arg1 : (s.resetBlock).arg1 = 0 := rfl
@[simp] theorem State.resetBlock_arg2 : (s.resetBlock).arg2 = 0 := rfl
@[simp] theorem State.resetBlock_busy : (s.resetBlock).busy = false := rfl
@[simp] theorem State.resetBlock_result : (s.resetBlock).result = false := rfl
@[simp] theorem State.resetBlock_fault : (s.resetBlock).fault = false := rfl
@[simp] theorem State.resetBlock_ovr : (s.resetBlock).ovr = false := rfl
@[simp] theorem State.resetBlock_err : (s.resetBlock).err = 0 := rfl
@[simp] theorem State.resetBlock_outlen : (s.resetBlock).outlen = 0 := rfl
@[simp] theorem State.resetBlock_pend : (s.resetBlock).pend = none := rfl
@[simp] theorem State.resetBlock_xfer : (s.resetBlock).xfer = [] := rfl
@[simp] theorem State.resetBlock_faultReason : (s.resetBlock).faultReason = none := rfl
@[simp] theorem State.resetBlock_params : (s.resetBlock).params = s.params := rfl
@[simp] theorem State.resetBlock_xferEpoch : (s.resetBlock).xferEpoch = s.draws + 1 := rfl
@[simp] theorem State.resetBlock_raceOpen : (s.resetBlock).raceOpen = false := rfl
@[simp] theorem State.resetBlock_draws : (s.resetBlock).draws = s.draws + 1 := rfl
@[simp] theorem State.resetBlock_inbox : (s.resetBlock).inbox = s.inbox := rfl
@[simp] theorem State.resetBlock_returned : (s.resetBlock).returned = s.returned := rfl

end Sys2Proof.Machine
end

