-- ==== Sys2Proof/Laws/Storage.lean ====
section
/-! SUPPORT. The laws of the transfer buffer and of the bit vector: what a read finds after a write, and that every
operation keeps the canonical form. -/

namespace Sys2Proof.Machine

/-! The transfer buffer. -/

@[simp] theorem State.xferByte_congr {s t : State} (h : s.xfer = t.xfer) (e : s.xferEpoch = t.xferEpoch) (a : Nat) :
    s.xferByte a = t.xferByte a := by simp [State.xferByte, h, e]

theorem State.memRead_congr {s t : State} (h : s.xfer = t.xfer) (e : s.xferEpoch = t.xferEpoch) (a n : Nat) :
    s.memRead a n = t.memRead a n := by
  have : ∀ j, s.xferByte j = t.xferByte j := State.xferByte_congr h e
  simp [State.memRead, this]

@[simp] theorem State.memRead_length (s : State) (a n : Nat) : (s.memRead a n).length = n := by simp [State.memRead]

/-- Reading a byte after a write: the byte written there, or what was there. -/
theorem State.xferByte_memWrite (s : State) (a : Nat) (bs : List Byte) (b : Nat) :
    (s.memWrite a bs).xferByte b = if a ≤ b ∧ b < a + bs.length then bs.getD (b - a) 0 else s.xferByte b := by
  unfold State.xferByte
  rw [State.memWrite_xfer, State.memWrite_xferEpoch, Cells.get?_splice]
  split
  · have : b - a < bs.length := by omega
    simp [List.getD, this]
  · rfl

theorem State.xferByte_memWrite_outside (s : State) {a : Nat} {bs : List Byte} {b : Nat}
    (h : b < a ∨ a + bs.length ≤ b) : (s.memWrite a bs).xferByte b = s.xferByte b := by
  rw [State.xferByte_memWrite, if_neg (by omega)]

/-- Reading the bytes just written. -/
theorem State.memRead_memWrite (s : State) (a : Nat) (bs : List Byte) :
    (s.memWrite a bs).memRead a bs.length = bs := by
  refine List.ext_getElem (by simp) fun i h1 h2 => ?_
  simp only [State.memRead, List.getElem_map, List.getElem_range, State.xferByte_memWrite]
  simp [h2, List.getD]

/-- A write of the transfer buffer keeps its canonical form. -/
theorem Memory.wf_memWrite {s : State} (h : Memory.wf s.xfer) (a : Nat) (bs : List Byte) :
    Memory.wf (s.memWrite a bs).xfer := Cells.rising_splice h a bs

/-- A write inside a bound keeps every listed offset inside it. -/
theorem Memory.bounded_memWrite {s : State} {n a : Nat} {bs : List Byte} (h : ∀ c ∈ s.xfer, c.1 < n)
    (hb : a + bs.length ≤ n) : ∀ c ∈ (s.memWrite a bs).xfer, c.1 < n := by
  intro c hc
  rcases Cells.mem_splice hc with hc | hc
  · exact h c hc
  · omega

/-! The bit vector. -/

theorem BitStore.word_put {b : BitStore} {j : Nat} (hj : j < b.cleared) (v : Word) (k : Nat) :
    (b.put j v).word k = if k = j then v else b.word k := by
  unfold BitStore.word BitStore.put
  by_cases hv : v = 0
  · subst hv
    simp only [if_true, Cells.get?_append, Cells.get?_below, Cells.get?_onward]
    rcases Nat.lt_trichotomy k j with h | h | h
    · simp [h, show k ≠ j by omega, show ¬ j + 1 ≤ k by omega]
    · subst h; simp [hj]
    · simp [show ¬ k < j by omega, show k ≠ j by omega, show j + 1 ≤ k by omega]
  · simp only [if_neg hv, Cells.get?_splice, List.length_singleton]
    by_cases h : k = j
    · subst h; simp
    · rw [if_neg (by omega), if_neg h]

@[simp] theorem BitStore.put_cleared (b : BitStore) (j : Nat) (v : Word) : (b.put j v).cleared = b.cleared := rfl

/-- A write of a word that was written before keeps the canonical form. -/
theorem BitStore.wf_put {b : BitStore} (h : b.wf) {j : Nat} (hj : j < b.cleared) (v : Word) : (b.put j v).wf := by
  obtain ⟨h1, h2⟩ := h
  unfold BitStore.put
  by_cases hv : v = 0
  · simp only [if_pos hv, BitStore.wf]
    refine ⟨List.pairwise_append.2 ⟨Cells.rising_below h1 j, Cells.rising_onward h1 _, fun x hx y hy => ?_⟩,
      fun c hc => ?_⟩
    · have := Cells.mem_below.1 hx
      have := Cells.mem_onward.1 hy
      omega
    · rcases List.mem_append.1 hc with hc | hc
      · exact h2 c (Cells.mem_below.1 hc).1
      · exact h2 c (Cells.mem_onward.1 hc).1
  · simp only [if_neg hv, BitStore.wf]
    refine ⟨Cells.rising_splice h1 j [v], fun c hc => ?_⟩
    rcases Cells.mem_splice hc with hc | ⟨ha, hb, hc⟩
    · exact h2 c hc
    · obtain rfl : c.2 = v := by simpa using hc
      have : c.1 = j := by simp at hb; omega
      exact ⟨this ▸ hj, hv⟩

theorem BitStore.word_clear (b : BitStore) (wc k : Nat) :
    (b.clear wc).word k = if k < wc then 0 else b.word k := by
  unfold BitStore.word BitStore.clear
  simp only [Cells.get?_onward]
  by_cases h : k < wc
  · simp [h, show ¬ wc ≤ k by omega]
  · simp [h, show wc ≤ k by omega]

theorem BitStore.wf_clear {b : BitStore} (h : b.wf) (wc : Nat) : (b.clear wc).wf := by
  refine ⟨Cells.rising_onward h.1 wc, fun c hc => ?_⟩
  have := h.2 c (Cells.mem_onward.1 hc).1
  exact ⟨lt_of_lt_of_le this.1 (Nat.le_max_left _ _), this.2⟩

theorem Cells.get?_filter_nonzero (vs : List Word) (a b : Nat) :
    Cells.get? ((Cells.number a vs).filter fun c => decide (c.2 ≠ 0)) b =
      if a ≤ b then (vs[b - a]?).filter fun v => decide (v ≠ 0) else none := by
  induction vs generalizing a with
  | nil => simp [Cells.number]
  | cons v vs ih =>
    have step : Cells.get? ((Cells.number a (v :: vs)).filter fun c => decide (c.2 ≠ 0)) b =
        if a = b ∧ v ≠ 0 then some v
        else Cells.get? ((Cells.number (a + 1) vs).filter fun c => decide (c.2 ≠ 0)) b := by
      simp only [Cells.number, List.filter_cons]
      by_cases hv : v = 0#64 <;> by_cases e : a = b <;> simp [hv, e]
    rw [step, ih]
    rcases Nat.lt_trichotomy a b with h | h | h
    · have e : b - a = (b - (a + 1)) + 1 := by omega
      simp [show a ≠ b by omega, show a + 1 ≤ b by omega, show a ≤ b by omega, e]
    · subst h
      by_cases hv : v = 0#64 <;> simp [hv, Option.filter]
    · simp [show a ≠ b by omega, show ¬ a + 1 ≤ b by omega, show ¬ a ≤ b by omega]

theorem BitStore.word_load (b : BitStore) (ws : List Word) (k : Nat) :
    (b.load ws).word k = if k < ws.length then ws.getD k 0 else b.word k := by
  unfold BitStore.word BitStore.load
  simp only [Cells.get?_append, Cells.get?_filter_nonzero, Cells.get?_onward, Nat.zero_le, if_true, Nat.sub_zero]
  by_cases h : k < ws.length
  · have hn : ¬ ws.length ≤ k := by omega
    by_cases hz : ws[k] = 0#64 <;> simp [h, hn, hz, List.getD, Option.filter]
  · simp [h, show ws.length ≤ k by omega]

theorem BitStore.wf_load {b : BitStore} (h : b.wf) (ws : List Word) : (b.load ws).wf := by
  refine ⟨List.pairwise_append.2 ⟨(Cells.rising_number 0 ws).filter _, Cells.rising_onward h.1 _, fun x hx y hy => ?_⟩,
    fun c hc => ?_⟩
  · have := Cells.mem_number (List.mem_filter.1 hx).1
    have := Cells.mem_onward.1 hy
    omega
  · simp only [BitStore.load] at hc ⊢
    rcases List.mem_append.1 hc with hc | hc
    · have h1 := Cells.mem_number (List.mem_filter.1 hc).1
      have h2 := (List.mem_filter.1 hc).2
      exact ⟨lt_of_lt_of_le (by omega) (Nat.le_max_right _ _), by simpa using h2⟩
    · have := h.2 c (Cells.mem_onward.1 hc).1
      exact ⟨lt_of_lt_of_le this.1 (Nat.le_max_left _ _), this.2⟩

@[simp] theorem BitStore.clear_cleared (b : BitStore) (wc : Nat) : (b.clear wc).cleared = max b.cleared wc := rfl

@[simp] theorem BitStore.load_cleared (b : BitStore) (ws : List Word) : (b.load ws).cleared = max b.cleared ws.length :=
  rfl

@[simp] theorem BitStore.orBit_cleared (b : BitStore) (i : Nat) : (b.orBit i).cleared = b.cleared := rfl

theorem BitStore.wf_orBit {b : BitStore} (h : b.wf) {i : Nat} (hi : i / 64 < b.cleared) : (b.orBit i).wf :=
  BitStore.wf_put h hi _

/-- Setting bit `i` sets it and leaves every other bit as it was. -/
theorem BitStore.bit_orBit {b : BitStore} {i : Nat} (hi : i / 64 < b.cleared) (k : Nat) :
    (b.orBit i).bit k = (b.bit k || decide (k = i)) := by
  unfold BitStore.bit BitStore.orBit
  rw [BitStore.word_put hi]
  by_cases h : k / 64 = i / 64
  · have hk : k % 64 < 64 := Nat.mod_lt _ (by omega)
    have hi' : i % 64 < 64 := Nat.mod_lt _ (by omega)
    rw [if_pos h, h]
    simp only [BitVec.getLsbD_or, BitVec.getLsbD_shiftLeft, hk, decide_true, Bool.true_and]
    congr 1
    by_cases e : k = i
    · subst e; simp
    · have : k % 64 ≠ i % 64 := by omega
      rcases Nat.lt_or_gt_of_ne this with g | g
      · simp [e, g]
      · have : k % 64 - i % 64 ≠ 0 := by omega
        simp [e, BitVec.getLsbD_one, this]
  · have : k ≠ i := fun e => h (by rw [e])
    simp [h, this]

end Sys2Proof.Machine
end

