-- ==== Sys2Proof/Laws/Commands.lean ====
section
/-! SUPPORT. What the shared operations of the commands can do, each said once: the parameters' constraints, the
operations over bit indices, and the cases of a command, of the engine's turn and of a step. -/

namespace Sys2Proof

/-- The constraints of a legal configuration, spelt out. -/
theorem Params.legal_spec {p : Params} (h : p.legal = true) :
    (p.wBL = 8 ∨ p.wBL = 16 ∨ p.wBL = 32 ∨ p.wBL = 64) ∧ (p.wHR = 16 ∨ p.wHR = 32 ∨ p.wHR = 64) ∧
    (p.wSeed = 8 ∨ p.wSeed = 16 ∨ p.wSeed = 32 ∨ p.wSeed = 64) ∧ 6 ≤ p.maxBitLenLog2 ∧
    p.maxBitLenLog2 + 1 ≤ p.wBL ∧ p.hdr + 8 * p.capWords ≤ p.xferBytes ∧ p.xferBytes < 2 ^ 32 := by
  simp only [Params.legal, Params.widthsLegal, Params.capacityLegal, Params.xferLegal, Bool.and_eq_true,
    decide_eq_true_eq, List.contains_iff_mem, List.mem_cons, List.not_mem_nil, or_false] at h
  omega

/-- A legal configuration's capacity is a positive whole number of words. -/
theorem Params.capBits_eq {p : Params} (h : p.legal = true) : p.capBits = 64 * p.capWords := by
  have h6 := (Params.legal_spec h).2.2.2.1
  unfold Params.capBits Params.capWords
  rw [show p.maxBitLenLog2 = (p.maxBitLenLog2 - 6) + 6 by omega, Nat.pow_add]
  simp [Nat.mul_comm]

theorem Params.capBits_lt {p : Params} (h : p.legal = true) : p.capBits < 2 ^ p.wBL :=
  Nat.pow_lt_pow_right (by omega) (by have := Params.legal_spec h; omega)

theorem Params.capBits_le {p : Params} (h : p.legal = true) : p.capBits ≤ 2 ^ 63 :=
  Nat.pow_le_pow_right (by omega) (by have := Params.legal_spec h; omega)

theorem wordCount_le_capWords {p : Params} (h : p.legal = true) {n : Nat} (hn : n ≤ p.capBits) :
    wordCount n ≤ p.capWords := by
  rw [Params.capBits_eq h] at hn
  unfold wordCount
  omega

theorem div_lt_wordCount {i n : Nat} (h : i < n) : i / 64 < wordCount n := by
  unfold wordCount
  omega

end Sys2Proof

namespace Sys2Proof.Machine

/-! Bit indices. -/

theorem indicesFrom_length (h : Word × Word) (bitLen : Word) (i k : Nat) : (indicesFrom h bitLen i k).length = k := by
  induction k generalizing i with
  | zero => rfl
  | succ k ih => simp [indicesFrom, ih]

theorem mem_indicesFrom {h : Word × Word} {bitLen w : Word} {i k : Nat} :
    w ∈ indicesFrom h bitLen i k ↔ ∃ j, i ≤ j ∧ j < i + k ∧ w = hashIndex h bitLen j := by
  induction k generalizing i with
  | zero =>
    simp only [indicesFrom, List.not_mem_nil, false_iff, not_exists]
    omega
  | succ k ih =>
    simp only [indicesFrom, List.mem_cons, ih]
    constructor
    · rintro (rfl | ⟨j, h1, h2, rfl⟩)
      · exact ⟨i, by omega, by omega, rfl⟩
      · exact ⟨j, by omega, by omega, rfl⟩
    · rintro ⟨j, h1, h2, rfl⟩
      rcases Nat.eq_or_lt_of_le h1 with rfl | h1
      · exact .inl rfl
      · exact .inr ⟨j, h1, by omega, rfl⟩

/-- A masked index is in range (R156). -/
theorem hashIndex_lt {bitLen : Word} (hb : bitLen ≠ 0) (h : Word × Word) (i : Nat) :
    (hashIndex h bitLen i).toNat < bitLen.toNat := by
  have h1 : (hashIndex h bitLen i).toNat ≤ (bitLen - 1).toNat := by
    simp only [hashIndex, BitVec.toNat_and]
    exact Nat.and_le_right
  have h2 : bitLen.toNat ≠ 0 := fun e => hb (BitVec.eq_of_toNat_eq (by simpa using e))
  have h3 := bitLen.isLt
  have h4 : (bitLen - 1).toNat = bitLen.toNat - 1 := by
    have : (1 : Word).toNat = 1 := rfl
    rw [BitVec.toNat_sub, this]
    omega
  omega

theorem State.setBit_some {s t : State} {i : Word} :
    s.setBit i = some t ↔ i.toNat < s.cfg.bitLen.toNat ∧ t = { s with bv := s.bv.orBit i.toNat } := by
  unfold State.setBit
  by_cases h : s.cfg.bitLen ≤ i
  · have : ¬ i.toNat < s.cfg.bitLen.toNat := Nat.not_lt.2 h
    simp [h, this]
  · have : i.toNat < s.cfg.bitLen.toNat := Nat.lt_of_not_le h
    simp [h, this, eq_comm]

theorem State.testBit_eq {s : State} {i : Word} :
    s.testBit i = if i.toNat < s.cfg.bitLen.toNat then some (s.bv.bit i.toNat) else none := by
  unfold State.testBit
  by_cases h : s.cfg.bitLen ≤ i
  · rw [if_pos h, if_neg (Nat.not_lt.2 h)]
  · rw [if_neg h, if_pos (Nat.lt_of_not_le h)]

/-- Everything setting a list of bits can do: the indices are in range, only the bit vector changes, its written part
stays, it keeps its form where the written part covers the filter, and exactly the listed bits are set. -/
theorem setBits_some {is : List Word} {s t : State} (h : setBits is s = some t) :
    (∀ i ∈ is, i.toNat < s.cfg.bitLen.toNat) ∧ t = { s with bv := t.bv } ∧ t.bv.cleared = s.bv.cleared ∧
    t.bv.epoch = s.bv.epoch ∧
    (wordCount s.cfg.bitLen.toNat ≤ s.bv.cleared →
      (s.bv.wf → t.bv.wf) ∧ ∀ k, t.bv.bit k = true ↔ s.bv.bit k = true ∨ ∃ w ∈ is, w.toNat = k) := by
  induction is generalizing s with
  | nil =>
    obtain rfl : s = t := by simpa [setBits] using h
    simp
  | cons i is ih =>
    unfold setBits at h
    split at h
    · rename_i u hu
      obtain ⟨hi, rfl⟩ := State.setBit_some.1 hu
      obtain ⟨h1, h2, h3, h4, h5⟩ := ih h
      refine ⟨fun w hw => ?_, h2, h3, h4, fun hc => ?_⟩
      · rcases List.mem_cons.1 hw with rfl | hw
        · exact hi
        · exact h1 w hw
      · have hlt : i.toNat / 64 < s.bv.cleared := lt_of_lt_of_le (div_lt_wordCount hi) hc
        obtain ⟨h6, h7⟩ := h5 hc
        refine ⟨fun hw => h6 (BitStore.wf_orBit hw hlt), fun k => ?_⟩
        rw [h7 k]
        simp only [BitStore.bit_orBit hlt, Bool.or_eq_true, decide_eq_true_eq, List.mem_cons, exists_eq_or_imp]
        tauto
    · cases h

/-- Setting bits succeeds where every index is in range. -/
theorem setBits_isSome {is : List Word} {s : State} (h : ∀ i ∈ is, i.toNat < s.cfg.bitLen.toNat) :
    ∃ t, setBits is s = some t := by
  induction is generalizing s with
  | nil => exact ⟨s, rfl⟩
  | cons i is ih =>
    have hi : s.setBit i = some { s with bv := s.bv.orBit i.toNat } :=
      State.setBit_some.2 ⟨h i (by simp), rfl⟩
    simp only [setBits, hi]
    exact ih fun w hw => h w (by simp [hw])

/-- Testing bits in range answers their conjunction (R205, R206). -/
theorem allBitsSet_eq {is : List Word} {s : State} (h : ∀ i ∈ is, i.toNat < s.cfg.bitLen.toNat) :
    allBitsSet is s = some (is.all fun i => s.bv.bit i.toNat) := by
  induction is with
  | nil => rfl
  | cons i is ih =>
    have hi : s.testBit i = some (s.bv.bit i.toNat) := by rw [State.testBit_eq, if_pos (h i (by simp))]
    simp only [allBitsSet, hi, List.all_cons]
    cases s.bv.bit i.toNat with
    | false => simp
    | true => simpa using ih fun w hw => h w (by simp [hw])

/-! The commands. -/

theorem ErrorCode.code_eq_zero {e : ErrorCode} : e.code = 0 ↔ e = .ok := by cases e <;> decide

theorem ErrorCode.code_le (e : ErrorCode) : e.code.toNat ≤ 6 := by cases e <;> decide

/-- What each command makes of the state, its latched operands given. -/
def commandResult (i : Instr) (s : State) (q : Pending) : State :=
  match i with
  | .new => construct (seedDraw s.params s.draws) q s
  | .newS => construct (seedOperand s.params q) q s
  | .insert => insertKey s q
  | .exist => queryKey s q
  | .serialize => serializeFilter s
  | .deserialize => deserializeFilter s q

/-- exec with a command pending answers a next state. -/
theorem exec_pending {s : State} {q : Pending} (h : s.pend = some q) (i : Instr) :
    exec i s = .next (commandResult i s q) := by
  cases i <;>
    simp [exec, commandResult, execNew, execNewS, execInsert, execExist, execSerialize, execDeserialize, withPending, h]

/-- exec answers a next state only with a command pending. -/
theorem exec_next {i : Instr} {s t : State} (h : exec i s = .next t) :
    ∃ q, s.pend = some q ∧ t = commandResult i s q := by
  cases hp : s.pend with
  | none =>
    cases i <;>
      simp [exec, execNew, execNewS, execInsert, execExist, execSerialize, execDeserialize, withPending, hp] at h
  | some q =>
    rw [exec_pending hp] at h
    exact ⟨q, rfl, by simpa using h.symm⟩

/-- Everything NEW and NEW.S can do. -/
theorem construct_cases (seed : Word) (q : Pending) (s : State) :
    (∃ e, e ≠ .ok ∧ size s.params s.draws q.a0 q.a1 = .error e ∧ construct seed q s = s.tick.fail e) ∨
    (∃ bitLen k, size s.params s.draws q.a0 q.a1 = .ok (bitLen, k) ∧ construct seed q s =
      (s.tick.install ⟨true, BitVec.ofNat 64 bitLen, BitVec.ofNat 64 k, seed⟩
        (s.bv.clear (wordCount bitLen))).report .ok false) := by
  cases h : size s.params s.draws q.a0 q.a1 with
  | error e =>
    refine .inl ⟨e, ?_, rfl, by simp [construct, h]⟩
    rintro rfl
    unfold size at h
    split at h
    · simp at h
    · dsimp only at h
      split at h <;> simp at h
  | ok r => exact .inr ⟨r.1, r.2, rfl, by simp [construct, h]⟩

theorem keyError_none {s : State} {q : Pending} :
    keyError s q = none ↔ s.cfg.valid = true ∧ q.a0.toNat ≤ s.params.xferBytes := by
  unfold keyError lengthOk
  cases s.cfg.valid <;> simp

theorem keyError_ne_ok {s : State} {q : Pending} {e : ErrorCode} (h : keyError s q = some e) : e ≠ .ok := by
  unfold keyError at h
  split at h
  · simp at h; simp [← h]
  · split at h
    · simp at h; simp [← h]
    · simp at h

/-- Everything INSERT can do. -/
theorem insertKey_cases (s : State) (q : Pending) :
    (∃ e, e ≠ .ok ∧ keyError s q = some e ∧ insertKey s q = s.fail e) ∨
    (keyError s q = none ∧ ∃ t, setBits (s.indicesOf (s.operandBytes q.a0)) s = some t ∧
      insertKey s q = t.report .ok false) ∨
    (keyError s q = none ∧ setBits (s.indicesOf (s.operandBytes q.a0)) s = none ∧
      insertKey s q = s.raiseFault .indexRange) := by
  unfold insertKey
  cases hk : keyError s q with
  | some e => exact .inl ⟨e, keyError_ne_ok hk, rfl, rfl⟩
  | none =>
    cases hs : setBits (s.indicesOf (s.operandBytes q.a0)) s with
    | some t => exact .inr (.inl ⟨rfl, t, rfl, rfl⟩)
    | none => exact .inr (.inr ⟨rfl, rfl, rfl⟩)

/-- Everything EXIST can do. -/
theorem queryKey_cases (s : State) (q : Pending) :
    (∃ e, e ≠ .ok ∧ keyError s q = some e ∧ queryKey s q = s.fail e) ∨
    (keyError s q = none ∧ ∃ r, allBitsSet (s.indicesOf (s.operandBytes q.a0)) s = some r ∧
      queryKey s q = s.report .ok r) ∨
    (keyError s q = none ∧ allBitsSet (s.indicesOf (s.operandBytes q.a0)) s = none ∧
      queryKey s q = s.raiseFault .indexRange) := by
  unfold queryKey
  cases hk : keyError s q with
  | some e => exact .inl ⟨e, keyError_ne_ok hk, rfl, rfl⟩
  | none =>
    cases hs : allBitsSet (s.indicesOf (s.operandBytes q.a0)) s with
    | some t => exact .inr (.inl ⟨rfl, t, rfl, rfl⟩)
    | none => exact .inr (.inr ⟨rfl, rfl, rfl⟩)

theorem imageError_ne_ok {p : Params} {len : Nat} {img : List Byte} {e : ErrorCode}
    (h : imageError p len img = some e) : e ≠ .ok := by
  unfold imageError at h
  split_ifs at h <;> simp at h <;> simp [← h]

/-- Everything DESERIALIZE can do. -/
theorem deserializeFilter_cases (s : State) (q : Pending) :
    (∃ e, e ≠ .ok ∧ deserializeFilter s q = s.fail e) ∨
    (lengthOk s.params q.a0 = true ∧ imageError s.params q.a0.toNat (s.operandBytes q.a0) = none ∧
      deserializeFilter s q = (loadImage (s.operandBytes q.a0) s).report .ok false) := by
  unfold deserializeFilter
  cases hl : lengthOk s.params q.a0 with
  | false => exact .inl ⟨.badLength, by decide, by simp⟩
  | true =>
    cases hi : imageError s.params q.a0.toNat (s.operandBytes q.a0) with
    | some e => exact .inl ⟨e, imageError_ne_ok hi, by simp⟩
    | none => exact .inr ⟨rfl, rfl, by simp⟩

/-- Everything SERIALIZE can do. -/
theorem serializeFilter_cases (s : State) :
    (s.cfg.valid = false ∧ serializeFilter s = { s with outlen := 0 }.fail .noFilter) ∨
    (s.cfg.valid = true ∧ serializeFilter s =
      { s.memWrite 0 s.image with outlen := BitVec.ofNat 64 s.image.length }.report .ok false) := by
  unfold serializeFilter
  cases h : s.cfg.valid with
  | false => exact .inl ⟨rfl, by simp⟩
  | true => exact .inr ⟨rfl, by simp⟩

theorem wordsFrom_length (n : Nat) (bs : List Byte) : (wordsFrom n bs).length = n := by
  induction n generalizing bs with
  | zero => rfl
  | succ n ih => simp [wordsFrom, ih]

theorem imageOf_length (p : Params) (c : FilterCfg) (ws : List Word) :
    (imageOf p c ws).length = p.wBL / 8 + p.wHR / 8 + p.wSeed / 8 + 8 * ws.length := by
  have : (ws.flatMap fun w => leBytes 8 w.toNat).length = 8 * ws.length := by
    induction ws with
    | nil => rfl
    | cons w ws ih => simp only [List.flatMap_cons, List.length_append, leBytes_length, ih, List.length_cons]; omega
  simp only [imageOf, List.length_append, leBytes_length, this]

/-- The image's length (R101). -/
theorem State.image_length {s : State} (h : s.params.legal = true) :
    s.image.length = s.params.imageLen s.cfg.bitLen.toNat := by
  have hw := Params.legal_spec h
  rw [State.image, imageOf_length, BitStore.words, List.length_map, List.length_range, Params.imageLen, Params.hdr]
  omega

/-! The engine's turn and the step. -/

/-- Everything the engine's turn can do. -/
theorem engineTurn_cases {s t : State} (h : engineTurn s = .next t) :
    (t = s ∧ (s.pend = none ∨ s.fault = true)) ∨
    (s.fault = false ∧ ∃ q, s.pend = some q ∧
      (((∀ i, decode q.cmd ≠ .ok i) ∧ t = (s.fail .illegalCommand).retire) ∨
        ∃ i, decode q.cmd = .ok i ∧ t = (commandResult i s q).retire)) := by
  unfold engineTurn at h
  cases hp : s.pend with
  | none => exact .inl ⟨by simpa [hp] using h.symm, .inl rfl⟩
  | some q =>
    cases hf : s.fault with
    | true => exact .inl ⟨by simpa [hp, hf] using h.symm, .inr rfl⟩
    | false =>
      refine .inr ⟨rfl, q, rfl, ?_⟩
      cases hd : decode q.cmd with
      | error e => exact .inl ⟨by simp, by simpa [hp, hf, hd] using h.symm⟩
      | ok i => exact .inr ⟨i, rfl, by simpa [hp, hf, hd, exec_pending hp] using h.symm⟩

/-- Outside the interval of a race no command is in execution and BUSY = 0 has been read. -/
theorem State.racing_eq_false {s : State} : s.racing = false ↔ s.busy = false ∧ s.raceOpen = false := by
  simp [State.racing]

/-- In the interval of a race a command is in execution or BUSY = 0 has not been read. -/
theorem State.racing_eq_true {s : State} : s.racing = true ↔ s.busy = true ∨ s.raceOpen = true := by
  simp [State.racing]

/-- A load of a register changes the returned values, and a load of STATUS the interval of R311. -/
theorem State.loadReg_eq (r : HostReg) (s : State) :
    s.loadReg r = State.returnLoad (s.readReg r)
      { s with raceOpen := if r = .status then s.busy && s.raceOpen else s.raceOpen } := by
  unfold State.loadReg
  split <;> rfl

/-- STATUS stands at offset 0x08 alone. -/
theorem regAt_eq_status {o : Nat} : regAt o = .status ↔ o = 0x08 := by
  unfold regAt
  split_ifs <;> simp_all

/-- CMD stands at offset 0 alone. -/
theorem regAt_eq_cmd {o : Nat} : regAt o = .cmd ↔ o = 0 := by
  unfold regAt
  split_ifs <;> simp_all

/-- Everything a host access can be. -/
theorem State.access_cases (s : State) (addr width : Nat) :
    (∃ r, s.access addr width = .reg r) ∨
    (∃ a, s.access addr width = .xfer a ∧ s.racing = false ∧ xferAccessOk s.params a width = true) ∨
    ∃ f, s.access addr width = .fault f := by
  unfold State.access
  split
  · exact .inr (.inr ⟨_, rfl⟩)
  · split
    · exact .inl ⟨_, rfl⟩
    · exact .inr (.inr ⟨_, rfl⟩)
  · split
    · cases hb : s.racing with
      | true => exact .inr (.inr ⟨_, rfl⟩)
      | false => exact .inr (.inl ⟨_, rfl, rfl, by assumption⟩)
    · exact .inr (.inr ⟨_, rfl⟩)

/-- A register access stands at its register's address, 8 bytes wide. -/
theorem of_access_reg {s : State} {addr width : Nat} {r : HostReg} (h : s.access addr width = .reg r) :
    width = 8 ∧ ∃ o, addr = s.params.regBase + o ∧ o % 8 = 0 ∧ o ≤ 0xF8 ∧ regAt o = r := by
  unfold State.access route at h
  by_cases h1 : s.params.regBase ≤ addr ∧ addr < s.params.regBase + 256
  · simp only [h1, and_self, if_true] at h
    split at h
    · rename_i hok
      cases h
      simp only [regAccessOk, Bool.and_eq_true, beq_iff_eq, decide_eq_true_eq] at hok
      exact ⟨hok.1.1, _, by omega, hok.1.2, hok.2, rfl⟩
    · cases h
  · rw [if_neg h1] at h
    split_ifs at h <;> simp only at h <;> split_ifs at h

/-- A transfer-buffer access stands at its byte's address, outside the register window, is defined, and is no race. -/
theorem of_access_xfer {s : State} {addr width a : Nat} (h : s.access addr width = .xfer a) :
    addr = s.params.xferBase + a ∧ xferAccessOk s.params a width = true ∧ s.racing = false ∧
    ¬ (s.params.regBase ≤ addr ∧ addr < s.params.regBase + 256) := by
  unfold State.access route at h
  by_cases h1 : s.params.regBase ≤ addr ∧ addr < s.params.regBase + 256
  · simp only [h1, and_self, if_true] at h
    split at h <;> cases h
  · rw [if_neg h1] at h
    by_cases h2 : s.params.xferBase ≤ addr ∧ addr < s.params.xferBase + s.params.xferBytes
    · rw [if_pos h2] at h
      by_cases h3 : xferAccessOk s.params (addr - s.params.xferBase) width = true
      · cases hb : s.racing <;> simp only [h3, hb, if_true, if_false, Bool.false_eq_true] at h <;> cases h
        exact ⟨by omega, h3, rfl, h1⟩
      · simp only [h3] at h
        cases h
    · rw [if_neg h2] at h
      cases h

/-- Everything a host load can do: a value returned, and the interval of R311 closed where STATUS is read with BUSY = 0. -/
theorem hostLoad_next {s t : State} {addr width : Nat} (h : hostLoad addr width s = .next t) :
    ∃ v, t = State.returnLoad v
      { s with raceOpen := if addr = s.params.regBase + 0x08 then s.busy && s.raceOpen else s.raceOpen } := by
  unfold hostLoad at h
  cases e : s.access addr width with
  | fault f => simp [e] at h
  | reg r =>
    obtain ⟨-, o, rfl, -, -, rfl⟩ := of_access_reg e
    simp only [e, State.loadReg_eq, regAt_eq_status, Host.Outcome.next.injEq] at h
    simp only [Nat.add_left_cancel_iff]
    exact ⟨_, h.symm⟩
  | xfer a =>
    simp only [e, Host.Outcome.next.injEq] at h
    rw [if_neg fun c => (of_access_xfer e).2.2.2 (by omega)]
    exact ⟨_, h.symm⟩

/-- A poll that finds BUSY = 0 ends the WAIT and the interval of R311. -/
theorem hostWait_idle {s : State} (h : s.busy = false) :
    hostWait s = State.returnLoad s.status { s with raceOpen := false } := by
  simp [hostWait, State.loadReg_eq, State.readReg, h]

/-- A poll that finds BUSY = 1 gives the engine its turn and comes again (log entry 6). -/
theorem hostWait_busy {s : State} (h : s.busy = true) :
    hostWait s = { s.returnLoad s.status with inbox := .engine :: .wait :: s.inbox } := by
  simp [hostWait, State.loadReg_eq, State.readReg, State.returnLoad, h]

/-- Everything a step can do: the engine's turn, a load, a store to a register, a store to XFER, a poll, the start of an
image read, or a reset. -/
theorem step_cases {s t : State} (h : step s = .next t) :
    s.params.legal = true ∧
    ((∃ u, ((s.inbox = [] ∧ u = s) ∨ ∃ rest, s.inbox = .engine :: rest ∧ u = { s with inbox := rest }) ∧
        engineTurn u = .next t) ∨
      (∃ addr width rest v, s.inbox = .load addr width :: rest ∧
        t = State.returnLoad v { s with
          inbox := rest
          raceOpen := if addr = s.params.regBase + 0x08 then s.busy && s.raceOpen else s.raceOpen }) ∨
      (∃ addr width v rest r, s.inbox = .store addr width v :: rest ∧ s.access addr width = .reg r ∧
        t = State.writeReg r v { s with inbox := rest }) ∨
      (∃ addr width v rest a, s.inbox = .store addr width v :: rest ∧ s.access addr width = .xfer a ∧
        t = State.memWrite { s with inbox := rest } a (leBytes width v.toNat)) ∨
      (∃ rest, s.inbox = .wait :: rest ∧ t = hostWait { s with inbox := rest }) ∨
      (∃ rest, s.inbox = .readImage :: rest ∧ t = hostReadImage { s with inbox := rest }) ∨
      ∃ rest, s.inbox = .reset :: rest ∧ t = State.resetBlock { s with inbox := rest }) := by
  unfold step advance at h
  cases hl : s.params.legal with
  | false => simp [hl] at h
  | true =>
    refine ⟨rfl, ?_⟩
    rw [if_pos hl] at h
    cases hi : s.inbox with
    | nil => exact .inl ⟨s, .inl ⟨rfl, rfl⟩, by simpa [hi] using h⟩
    | cons i rest =>
      simp only [hi] at h
      cases i with
      | engine => exact .inl ⟨_, .inr ⟨rest, rfl, rfl⟩, h⟩
      | load addr width =>
        right; left
        obtain ⟨v, rfl⟩ := hostLoad_next h
        exact ⟨addr, width, rest, v, rfl, rfl⟩
      | store addr width v =>
        unfold serve hostStore at h
        rcases State.access_cases { s with inbox := rest } addr width with ⟨r, e⟩ | ⟨a, e, -, -⟩ | ⟨f, e⟩
        · right; right; left
          exact ⟨addr, width, v, rest, r, rfl, e, by simpa [e] using h.symm⟩
        · right; right; right; left
          exact ⟨addr, width, v, rest, a, rfl, e, by simpa [e] using h.symm⟩
        · simp [e] at h
      | wait =>
        right; right; right; right; left
        exact ⟨rest, rfl, by simpa [serve] using h.symm⟩
      | readImage =>
        right; right; right; right; right; left
        exact ⟨rest, rfl, by simpa [serve] using h.symm⟩
      | reset =>
        right; right; right; right; right; right
        exact ⟨rest, rfl, by simpa [serve] using h.symm⟩

end Sys2Proof.Machine
end

