-- ==== Sys2Proof/Laws/PerInstr.lean ====
section
/-! SUPPORT. Statements about every command as syntax, one lemma per constructor. -/

namespace Sys2Proof.Laws.RoundTrip

/-- The command's word decodes to the command, its fields are legal, and the table's numbering of the bits gives it. -/
def Statement (i : Instr) : Prop :=
  decode (encode i) = .ok i ∧ (instrFields i).wf = true ∧ fieldsOf (encode i) = instrFields i ∧
    decodeTableWord 64 (encode i).toNat = some i

theorem new : Statement .new := by unfold Statement; decide
theorem newS : Statement .newS := by unfold Statement; decide
theorem insert : Statement .insert := by unfold Statement; decide
theorem exist : Statement .exist := by unfold Statement; decide
theorem serialize : Statement .serialize := by unfold Statement; decide
theorem deserialize : Statement .deserialize := by unfold Statement; decide

end Sys2Proof.Laws.RoundTrip
end

