-- ==== Sys2Proof/Laws/Sizing.lean ====
section
/-! SUPPORT. What the sizing calculator's parts give: a valid probability's scale, the tie band's range, the
ends of the two spans as real numbers rounded, and what a pick can be. -/

namespace Sys2Proof.Machine

/-- A valid pattern's scale: the least positive subnormal is `2^-1074`. -/
theorem probabilityOf_scale {b : Word} {p : Probability} (h : probabilityOf b = some p) : p.scale ≤ 1074 := by
  unfold probabilityOf Binary64.ofBits at h
  simp only at h
  split at h
  · cases h
  · cases h
  · rename_i neg mant expo he
    split at h
    · cases h
    split at h
    · cases h
      split at he
      · split at he <;> cases he
      · split at he
        · cases he; exact le_refl _
        · rename_i h2
          cases he
          show 1075 - b.toNat / 2 ^ 52 % 2 ^ 11 ≤ 1074
          omega
    · cases h

/-- The digits give a number R7 allows. -/
theorem bandOfDigits_mem (d : Nat → Fin 2) : 0 ≤ bandOfDigits d ∧ bandOfDigits d ≤ 1 / 2 ^ 30 :=
  ⟨div_nonneg (Real.ofDigits_nonneg d) (by positivity),
    div_le_div_of_nonneg_right (Real.ofDigits_le_one d) (by positivity)⟩

/-- Every number R7 allows has such digits: no band is out of the model's reach. -/
theorem bandOfDigits_onto {e : ℝ} (h0 : 0 ≤ e) (h1 : e ≤ 1 / 2 ^ 30) : ∃ d, bandOfDigits d = e := by
  have hp : (0 : ℝ) < 2 ^ 30 := by norm_num
  rw [le_div_iff₀ hp] at h1
  obtain ⟨d, hd⟩ : ∃ d : Nat → Fin 2, Real.ofDigits d = e * 2 ^ 30 := by
    rcases h1.lt_or_eq with h | h
    · exact ⟨_, Real.ofDigits_digits (by norm_num) ⟨mul_nonneg h0 hp.le, h⟩⟩
    · exact ⟨_, (Real.ofDigits_const_last_eq_one 1).trans h.symm⟩
  exact ⟨d, by rw [bandOfDigits, hd, mul_div_cancel_right₀ _ hp.ne']⟩

/-- The constraint of R7 on a band that is a quotient. -/
theorem BandChoice.legal_ratio {num den : Nat} (h : (BandChoice.ratio num den).legal = true) :
    den ≠ 0 ∧ num * 2 ^ 30 ≤ den := by
  simpa only [BandChoice.legal, Bool.and_eq_true, bne_iff_ne, decide_eq_true_eq] using h

/-- A legal configuration's band is legal. -/
theorem band_legal {c : Params} (h : c.legal = true) : c.sizingBand.legal = true := by
  rw [Params.legal, Bool.and_eq_true] at h
  exact h.2

/-- `SIZING_BAND` of a configuration lies within the bounds of R7. -/
theorem band_mem {c : Params} (h : c.legal = true) : 0 ≤ c.band ∧ c.band ≤ 1 / 2 ^ 30 := by
  have hb := band_legal h
  rw [Params.band]
  generalize c.sizingBand = b at hb ⊢
  cases b with
  | digits id => exact bandOfDigits_mem _
  | ratio num den =>
    obtain ⟨h0, h1⟩ := BandChoice.legal_ratio hb
    have hd : (0 : ℝ) < den := by exact_mod_cast Nat.pos_of_ne_zero h0
    refine ⟨div_nonneg (Nat.cast_nonneg _) hd.le, ?_⟩
    rw [BandChoice.toReal, div_le_div_iff₀ hd (by positivity)]
    have h' : (num : ℝ) * 2 ^ 30 ≤ den := by exact_mod_cast h1
    linarith

/-- The factors the spans use are `1 - ε` and `1 + ε`. -/
theorem band_factors {c : Params} (h : c.legal = true) :
    c.sizingBand.factor .lower = 1 - c.band ∧ c.sizingBand.factor .upper = 1 + c.band := by
  have hb := band_legal h
  rw [Params.band]
  generalize c.sizingBand = b at hb ⊢
  cases b with
  | digits id => exact ⟨rfl, rfl⟩
  | ratio num den =>
    obtain ⟨h0, h1⟩ := BandChoice.legal_ratio hb
    have hd : (den : ℝ) ≠ 0 := by exact_mod_cast h0
    simp only [BandChoice.factor, BandChoice.toReal]
    rw [Nat.cast_sub (by omega), Nat.cast_add, sub_div, add_div, div_self hd]
    exact ⟨rfl, rfl⟩

theorem Span.lo_mk (a b : Nat) : (Span.mk a b).lo = a := rfl

theorem Span.hi_mk (a b : Nat) : (Span.mk a b).hi = b := rfl

/-- The ends of the span of `m_raw`. (Cite this: the kernel does not reduce `bitsAt` on a variable.) -/
theorem mRawSpan_ends {c : Params} (h : c.legal = true) (n : Nat) (p : Probability) :
    (mRawSpan c n p).lo = ⌈idealBits n p.toReal * (1 - c.band)⌉₊ ∧
    (mRawSpan c n p).hi = ⌈idealBits n p.toReal * (1 + c.band)⌉₊ := by
  rw [← (band_factors h).1, ← (band_factors h).2]
  rw [mRawSpan, Span.lo_mk, Span.hi_mk]
  exact ⟨(bitsAt _ _ n p).2, (bitsAt _ _ n p).2⟩

/-- The ends of the span of `hashRounds`. -/
theorem roundsSpan_ends {c : Params} (h : c.legal = true) (n bitLen : Nat) :
    (roundsSpan c n bitLen).lo = max 1 ⌊idealRounds n bitLen * (1 - c.band) + 1 / 2⌋₊ ∧
    (roundsSpan c n bitLen).hi = max 1 ⌊idealRounds n bitLen * (1 + c.band) + 1 / 2⌋₊ := by
  rw [← (band_factors h).1, ← (band_factors h).2]
  rw [roundsSpan, Span.lo_mk, Span.hi_mk]
  exact ⟨congrArg (max 1) (roundsAt _ _ n bitLen).2, congrArg (max 1) (roundsAt _ _ n bitLen).2⟩

/-- `x > 0` for a count of at least 1 (R123). -/
theorem idealBits_pos {n : Nat} (hn : 1 ≤ n) (p : Probability) : 0 < idealBits n p.toReal := by
  have h1 : Real.log p.toReal < 0 := Real.log_neg p.toReal_mem.1 p.toReal_mem.2
  have h2 : (0 : ℝ) < n := by exact_mod_cast hn
  have h3 : 0 < Real.log 2 := Real.log_pos (by norm_num)
  exact div_pos (by nlinarith [mul_pos h2 (neg_pos.2 h1)]) (pow_pos h3 2)

/-- `t >= 0`. -/
theorem idealRounds_nonneg (n bitLen : Nat) : 0 ≤ idealRounds n bitLen :=
  mul_nonneg (div_nonneg (Nat.cast_nonneg _) (Nat.cast_nonneg _)) (Real.log_nonneg (by norm_num))

/-- Every admitted `m_raw` is at least 1 (R123), and the span is not empty. -/
theorem mRawSpan_le {c : Params} (h : c.legal = true) {n : Nat} (hn : 1 ≤ n) (p : Probability) :
    1 ≤ (mRawSpan c n p).lo ∧ (mRawSpan c n p).lo ≤ (mRawSpan c n p).hi := by
  have hx := idealBits_pos hn p
  obtain ⟨b0, b1⟩ := band_mem h
  have b2 : c.band < 1 := b1.trans_lt (by norm_num)
  rw [(mRawSpan_ends h n p).1, (mRawSpan_ends h n p).2]
  exact ⟨Nat.one_le_ceil_iff.2 (mul_pos hx (by linarith)),
    Nat.ceil_mono (mul_le_mul_of_nonneg_left (by linarith) hx.le)⟩

/-- Every admitted `hashRounds` is at least 1 (R127), and the span is not empty. -/
theorem roundsSpan_le {c : Params} (h : c.legal = true) (n bitLen : Nat) :
    1 ≤ (roundsSpan c n bitLen).lo ∧ (roundsSpan c n bitLen).lo ≤ (roundsSpan c n bitLen).hi := by
  obtain ⟨b0, -⟩ := band_mem h
  rw [(roundsSpan_ends h n bitLen).1, (roundsSpan_ends h n bitLen).2]
  exact ⟨le_max_left _ _, max_le_max (le_refl _) (Nat.floor_mono (add_le_add
    (mul_le_mul_of_nonneg_left (by linarith) (idealRounds_nonneg n bitLen)) (le_refl _)))⟩

/-- A pick is a member of its span. -/
theorem Span.pick_mem {r : Span} (h : r.lo ≤ r.hi) (d : Nat) : r.lo ≤ r.pick d ∧ r.pick d ≤ r.hi := by
  unfold Span.pick
  split
  · omega
  · have := Nat.mod_lt d (show r.hi - r.lo + 1 > 0 by omega)
    omega

/-- Where a span has one member, it is the pick, whatever the draw. -/
theorem Span.pick_eq {r : Span} (h : r.lo = r.hi) (d : Nat) : r.pick d = r.lo := by
  unfold Span.pick
  rw [if_pos h.ge]

end Sys2Proof.Machine
end

