-- ==== Sys2Proof/Tests/Slice0.lean ====
section
/-! SUPPORT. The model's own tests. Every expected value is written out from the spec: the encodings of 30_encoding.md,
the parameter table of R7, and the vectors T1 to T13 of 95_test_vectors.md, each named at its test. After them, for every
statement that has hypotheses, a concrete state and operands that meet them. -/

namespace Sys2Proof.Tests

set_option Elab.async false

open Sys2Proof Sys2Proof.Machine

/-! Helpers. -/

/-- What `f` sees of the next state; none where there is none. -/
def seen {α : Type} (f : State → α) : Host.Outcome State Fault Refusal → Option α
  | .next t => some (f t)
  | _ => none

/-- The fault a step ends in. -/
def faultOf : Host.Outcome State Fault Refusal → Option Fault
  | .fault f => some f
  | _ => none

/-- The refusal a step ends in. -/
def refusalOf : Host.Outcome State Fault Refusal → Option Refusal
  | .refused r => some r
  | _ => none

/-- What a sizing gives: an error code, or bitLength and hashRounds. -/
def sizing (n b : Word) : BitVec 8 × Nat × Nat :=
  match size Params.rc 0 n b with
  | .ok r => (0, r)
  | .error e => (e.code, 0, 0)

/-- The seed `S` of 95_test_vectors.md. -/
def seedS : Word := 0x0123456789ABCDEF

/-- A block of RC holding a filter, the first `cleared` words of its storage written. -/
def holding (bitLen k : Word) (cleared : Nat) (cells : List (Nat × Word)) : State :=
  { State.reset with cfg := ⟨true, bitLen, k, seedS⟩, bv := ⟨0, cleared, cells⟩ }

/-- The same block with a command accepted. -/
def pending (s : State) (cmd a0 a1 a2 : Word) : State :=
  { s with pend := some ⟨cmd, a0, a1, a2⟩, busy := true, raceOpen := true }

/-- The same block with bytes at the start of XFER. -/
def keyed (s : State) (bs : List Byte) : State := s.memWrite 0 bs

/-- The same block with the host's next accesses. -/
def facing (s : State) (is : List Input) : State := { s with inbox := is }

/-- A block that has faulted: the values CFG, BV, ERR and RESULT have then are arbitrary. -/
def faulted : State := { State.reset with fault := true, faultReason := some .indexRange }

def ragnar : List Byte := [0x52, 0x41, 0x47, 0x4E, 0x41, 0x52]
def grapefruit : List Byte := [0x67, 0x72, 0x61, 0x70, 0x65, 0x66, 0x72, 0x75, 0x69, 0x74]

/-- The words of T3's filter after INSERT "RAGNAR": its bits 659, 1660, 3258, … at word `i / 64`, offset `i mod 64`. -/
def ragnarCells : List (Nat × Word) :=
  [(10, 0x80000), (25, 0x1000000000000000), (50, 0x400000000000000), (75, 0x100000000000000), (100, 0x40000000000000),
    (125, 0x10000000000000), (150, 0x4000000000000), (166, 0x8000000), (191, 0x2000000), (216, 0x800000),
    (241, 0x200000)]

/-- The 28-byte image of T8, its eight word bytes given. -/
def image32 (word : List Byte) : List Byte :=
  [0x20, 0, 0, 0, 0, 0, 0, 0, 0x06, 0, 0, 0, 0xEF, 0xCD, 0xAB, 0x89, 0x67, 0x45, 0x23, 0x01] ++ word

/-- `H(bl, k)` of T9: the header bytes of R100 in RC. -/
def headerBytes (bl k : Nat) : List Byte := leBytes 8 bl ++ leBytes 4 k ++ leBytes 8 seedS.toNat

def zeros (n : Nat) : List Byte := List.replicate n 0

/-! Well-formedness: one ill-formed term for each check. -/

theorem test_wf_reserved_bit : CommandFields.wf ⟨0x01, false, 1⟩ = false := by decide
theorem test_wf_unassigned_low : CommandFields.wf ⟨0x00, false, 0⟩ = false := by decide
theorem test_wf_unassigned_high : CommandFields.wf ⟨0x06, false, 0⟩ = false := by decide
theorem test_wf_seedsel : CommandFields.wf ⟨0x02, true, 0⟩ = false := by decide
theorem test_wf_params_width : (Params.legal { Params.rc with wHR := 8 }) = false := by decide
theorem test_wf_params_capacity : (Params.legal { Params.rc with maxBitLenLog2 := 5 }) = false := by decide
theorem test_wf_params_field : (Params.legal { Params.rc with wBL := 16, maxBitLenLog2 := 16 }) = false := by decide
theorem test_wf_params_buffer : (Params.legal { Params.rc with xferBytes := 131088 }) = false := by decide
theorem test_wf_params_aligned : (Params.legal { Params.rc with xferBytes := 262140 }) = false := by decide
theorem test_wf_params_band : (Params.legal { Params.rc with sizingBand := .ratio 1 (2 ^ 29) }) = false := by decide
theorem test_wf_params_rc : Params.rc.legal = true := by decide

/-! Decoding: the words of R91 and R92 written bit by bit, RSVD, SEEDSEL, OP. -/

theorem test_decode_new : decode (0b0#55 ++ 0b0#1 ++ 0b00000001#8) = .ok .new := by decide
theorem test_decode_newS : decode (0b0#55 ++ 0b1#1 ++ 0b00000001#8) = .ok .newS := by decide
theorem test_decode_insert : decode (0b0#55 ++ 0b0#1 ++ 0b00000010#8) = .ok .insert := by decide
theorem test_decode_exist : decode (0b0#55 ++ 0b0#1 ++ 0b00000011#8) = .ok .exist := by decide
theorem test_decode_serialize : decode (0b0#55 ++ 0b0#1 ++ 0b00000100#8) = .ok .serialize := by decide
theorem test_decode_deserialize : decode (0b0#55 ++ 0b0#1 ++ 0b00000101#8) = .ok .deserialize := by decide

/-- T11: the illegal words, each executed with a filter present. -/
theorem test_illegal_words :
    ([0x000, 0x006, 0x0FF, 0x102, 0x103, 0x104, 0x105, 0x100, 0x201, 0x8000000000000001].map fun w =>
      seen State.status (step (pending (holding 32 6 1 []) w 1 2 3))) = List.replicate 10 (some 0x0502) := by
  decide +kernel

/-! NEW and NEW.S. -/

/-- T1. -/
theorem test_newS_T1 :
    seen (fun t => (t.cfg, t.status, t.bv.words 256 == List.replicate 256 0))
      (step (pending State.reset 0x101 1000 0x3F847AE147AE147B seedS)) =
      some (⟨true, 0x4000, 0xB, seedS⟩, 0x0002, true) := by decide +kernel

/-- T2, rows 1 to 11. -/
theorem test_sizing_T2 :
    [sizing 1000 0x3F847AE147AE147B, sizing 1000 0x3FB999999999999A, sizing 1000 0x3F50624DD2F1A9FC,
      sizing 10 0x3F847AE147AE147B, sizing 1 0x3F847AE147AE147B, sizing 0 0x3F847AE147AE147B,
      sizing 4 0x3FB999999999999A, sizing 1 0x3FE0000000000000, sizing 0 0x3FE0000000000000,
      sizing 2 0x3FE0000000000000, sizing 3 0x3FE0000000000000] =
    [(0, 16384, 11), (0, 8192, 6), (0, 16384, 11), (0, 128, 9), (0, 16, 11), (0, 16, 11), (0, 32, 6), (0, 2, 1),
      (0, 2, 1), (0, 4, 1), (0, 8, 2)] := by decide +kernel

/-- T1 with NEW: the seed is the draw, all else is as for NEW.S. -/
theorem test_new_T1 :
    seen (fun t => (t.cfg.valid, t.cfg.bitLen, t.cfg.hRounds, t.status, t.draws))
      (step (pending State.reset 0x001 1000 0x3F847AE147AE147B 7)) =
      some (true, 0x4000, 0xB, 0x0002, 1) := by decide +kernel

/-- T2, rows 12 to 21, and T2b with its priority case. -/
theorem test_sizing_T2_ends :
    [sizing 5 0x3FE0000000000000, sizing 1 0x3FD0000000000000, sizing 1 0x0000000000000001,
      sizing 1 0x3FEFFFFFFFFFFFFF, sizing 1048576 0x3FEFFFFFFFFFFFFF, sizing 0xFFFFFFFFFFFFFFFF 0x3FEFFFFFFFFFFFFF,
      sizing 100000 0x3F847AE147AE147B, sizing 110000 0x3F847AE147AE147B, sizing 100000 0x3F50624DD2F1A9FC,
      sizing 1000000 0x3F847AE147AE147B, sizing 1000 0, sizing 1000 0x8000000000000000,
      sizing 1000 0x3FF0000000000000, sizing 1000 0x4000000000000000, sizing 1000 0xBFB999999999999A,
      sizing 1000 0x7FF0000000000000, sizing 1000 0x7FF8000000000000, sizing 1000 0xFFFFFFFFFFFFFFFF,
      sizing 1000000 0x3FF0000000000000] =
    [(0, 8, 1), (0, 4, 3), (0, 2048, 1420), (0, 1, 1), (0, 1, 1), (0, 8192, 1), (0, 1048576, 7), (4, 0, 0), (4, 0, 0),
      (4, 0, 0), (1, 0, 0), (1, 0, 0), (1, 0, 0), (1, 0, 0), (1, 0, 0), (1, 0, 0), (1, 0, 0), (1, 0, 0),
      (1, 0, 0)] := by decide +kernel

/-! The hash. -/

/-- T3: RefHash of the empty key and of "a" with seed 0, and of "grapefruit" with seed S. -/
theorem test_hash_T3 :
    refHash 0 [] = (0xEFD01F60BA992926, 0xB94678EA86D5CB1B) ∧ refHash 0 [0x61] = (0x82A2A958A9BECE5B, 0x78D94AD1657ECD03) ∧
    refHash seedS grapefruit = (0x99DA270916374404, 0xF08B0F4F7A3ECCC3) := by decide +kernel

/-- T4: seed S, six rounds, 32 bits: "a", the empty key, "\x00". -/
theorem test_indices_T4 :
    indices .refHash seedS 6 32 [0x61] = [15, 8, 1, 26, 19, 12] ∧
    indices .refHash seedS 6 32 [] = [28, 29, 30, 31, 0, 1] ∧
    indices .refHash seedS 6 32 [0x00] = [22, 21, 20, 19, 18, 17] := by decide +kernel

/-! INSERT and EXIST. -/

/-- T3 and R200's example: exactly the eleven bits of "RAGNAR". -/
theorem test_insert_T3 :
    seen (fun t => (t.bv.cells, t.status))
      (step (keyed (pending (holding 16384 11 256 []) 0x2 6 0 0) ragnar)) = some (ragnarCells, 0x0002) := by
  decide +kernel

/-- T7: a key one byte too long, and no filter before that. -/
theorem test_insert_T7 :
    seen State.status (step (pending (holding 16384 11 256 []) 0x2 0x40001 0 0)) = some 0x0602 ∧
    seen State.status (step (pending State.reset 0x2 0x40001 0 0)) = some 0x0300 := by decide +kernel

/-- T5: the key inserted is present; "grapefruit" is not. -/
theorem test_exist_T5 :
    seen State.status (step (keyed (pending (holding 16384 11 256 ragnarCells) 0x3 6 0 0) ragnar)) = some 0x0006 ∧
    seen State.status (step (keyed (pending (holding 16384 11 256 ragnarCells) 0x3 10 0 0) grapefruit)) = some 0x0002 := by
  decide +kernel

/-- T7: no filter, and the longest length operand. -/
theorem test_exist_T7 :
    seen State.status (step (pending State.reset 0x3 5 0 0)) = some 0x0300 ∧
    seen State.status (step (pending (holding 16384 11 256 []) 0x3 0xFFFFFFFFFFFFFFFF 0 0)) = some 0x0602 := by
  decide +kernel

/-! SERIALIZE and DESERIALIZE. -/

/-- T8: the image of (32, 6, S) after INSERT "a", 28 bytes. -/
theorem test_serialize_T8 :
    seen (fun t => (t.memRead 0 28, t.outlen, t.status)) (step (pending (holding 32 6 1 [(0, 0x04089102)]) 0x4 0 0 0)) =
      some (image32 [0x02, 0x91, 0x08, 0x04, 0, 0, 0, 0], 28, 0x0002) := by decide +kernel

/-- T7: no filter. -/
theorem test_serialize_T7 :
    seen (fun t => (t.xfer, t.outlen, t.status)) (step (pending { State.reset with outlen := 28 } 0x4 0 0 0)) =
      some ([], 0, 0x0300) := by decide +kernel

/-- T9, rows 1 to 14, from the filter (32, 6, S): the error code and the configuration after. -/
theorem test_deserialize_T9 :
    ([(headerBytes 32 6 ++ zeros 8, 28), (headerBytes 32 6 ++ zeros 8, 27), (headerBytes 32 6 ++ zeros 9, 29),
      (headerBytes 32 6, 20), (headerBytes 32 6, 19), (headerBytes 48 6 ++ zeros 8, 28),
      (headerBytes 0 6 ++ zeros 8, 28), (headerBytes 32 0 ++ zeros 8, 28), (headerBytes (2 ^ 21) 1, 20),
      (headerBytes (2 ^ 21) 0, 20), (headerBytes (2 ^ 63) 1, 20), (headerBytes 1 5000 ++ leBytes 8 1, 28),
      (headerBytes 128 3 ++ zeros 16, 36), (headerBytes 128 3 ++ zeros 8, 28)].map fun r =>
      seen (fun t => (t.err, t.cfg.bitLen, t.cfg.hRounds))
        (step (keyed (pending (holding 32 6 1 []) 0x5 (BitVec.ofNat 64 r.2) 0 0) r.1))) =
    [some (0, 32, 6), some (2, 32, 6), some (2, 32, 6), some (2, 32, 6), some (2, 32, 6), some (2, 32, 6),
      some (2, 32, 6), some (2, 32, 6), some (4, 32, 6), some (2, 32, 6), some (4, 32, 6), some (0, 1, 5000),
      some (0, 128, 3), some (2, 32, 6)] := by decide +kernel

/-- T12 step 1, without a filter before: the tail bits are loaded. -/
theorem test_deserialize_T12 :
    seen (fun t => (t.cfg, t.bv.word 0, t.status))
      (step (keyed (pending State.reset 0x5 28 0 0) (headerBytes 32 6 ++ leBytes 8 0xFFFFFFFF00000000))) =
      some (⟨true, 32, 6, seedS⟩, 0xFFFFFFFF00000000, 0x0002) := by decide +kernel

/-! The host's accesses, reset and the host assembly. -/

/-- T10: acceptance, overrun, and the operand registers. -/
theorem test_acceptance_T10 :
    seen (fun t => (t.pend, t.busy, t.ovr))
      (step (facing { State.reset with arg0 := 1, arg1 := 2, arg2 := 3 } [.store 0x00 8 3])) =
      some (some ⟨3, 1, 2, 3⟩, true, false) ∧
    seen (fun t => (t.pend, t.ovr)) (step (facing (pending State.reset 3 1 2 3) [.store 0x00 8 2])) =
      some (some ⟨3, 1, 2, 3⟩, true) ∧
    seen (fun t => (t.pend, t.arg0)) (step (facing (pending State.reset 3 1 2 3) [.store 0x10 8 9])) =
      some (some ⟨3, 1, 2, 3⟩, 9) := by decide +kernel

/-- T10: the faults, and the accesses at the edges that are none. -/
theorem test_accesses_T10 :
    faultOf (step (facing (pending State.reset 3 1 2 3) [.store 0x100000 1 0x78])) = some .hostRace ∧
    faultOf (step (facing State.reset [.load 0x08 4])) = some .hostBusError ∧
    faultOf (step (facing State.reset [.load 0x0C 8])) = some .hostBusError ∧
    faultOf (step (facing State.reset [.store 0x100004 8 0])) = some .hostBusError ∧
    faultOf (step (facing State.reset [.load 0x140000 1])) = some .hostBusError ∧
    seen (fun t => (t.xferByte 0x3FFF8, t.xferByte 0x3FFFF))
      (step (facing State.reset [.store 0x13FFF8 8 0x1122334455667788])) = some (0x88, 0x11) ∧
    seen (fun t => t.memRead 0 4) (step (facing State.reset [.store 0x100000 4 0x6E676172])) =
      some [0x72, 0x61, 0x67, 0x6E] ∧
    seen (·.returned) (step (facing State.reset [.load 0x00 8])) = some [0] ∧
    seen (·.returned) (step (facing State.reset [.load 0xF8 8])) = some [0] := by decide +kernel

/-- An idle filter, the same with a command accepted, and with the 1-bit filter of T2 row 15. -/
def filterIdle : State := holding 32 6 1 []
def filterBusy (cmd a0 : Word) : State := keyed (pending filterIdle cmd a0 0 0) [0x61]
def oneBit : State := holding 1 1 1 [(0, 1)]

/-- The block after the engine's step, BUSY = 0 not read yet. -/
def unread : State := { filterIdle with raceOpen := true }

/-- R311: XFER races from the accepted CMD write, through the engine's step, until a load of STATUS returns BUSY = 0; a
load of it that returns BUSY = 1, and one of another register, do not end that. -/
theorem test_buffer_race_R311 :
    seen (·.raceOpen) (step (facing filterIdle [.store 0x00 8 3])) = some true ∧
    seen (fun t => (t.busy, t.raceOpen)) (step (filterBusy 0x3 1)) = some (false, true) ∧
    faultOf (step (facing unread [.load 0x100000 1])) = some .hostRace ∧
    faultOf (step (facing unread [.store 0x13FFF8 8 1])) = some .hostRace ∧
    seen (·.raceOpen) (step (facing unread [.load 0x28 8])) = some true ∧
    seen (·.raceOpen) (step (facing (filterBusy 0x3 1) [.load 0x08 8])) = some true ∧
    seen (·.raceOpen) (step (facing unread [.load 0x08 8])) = some false ∧
    seen (·.raceOpen) (step (facing unread [.wait])) = some false ∧
    seen (·.raceOpen) (step (facing unread [.reset])) = some false := by decide +kernel

/-- T13: STATUS and CAPS after reset, and a reset in the middle of a command. -/
theorem test_reset_T13 :
    State.reset.status = 0 ∧ State.reset.readReg .caps = 0x0004000040204014 ∧
    seen (fun t => (t.pend, t.status, t.cfg.valid))
      (step (facing { pending (holding 32 6 1 []) 2 1 0 0 with ovr := true } [.reset])) = some (none, 0, false) := by
  decide +kernel

/-- R103's `bits(x)` at the patterns T2 names: 0.01, 0.1, 0.001, 0.5, 0.25, 2^-1074, 1. -/
theorem test_bits_of_decimals :
    [bitsOf 1 100, bitsOf 1 10, bitsOf 1 1000, bitsOf 1 2, bitsOf 1 4, bitsOf 1 (2 ^ 1074), bitsOf 1 1] =
    [0x3F847AE147AE147B, 0x3FB999999999999A, 0x3F50624DD2F1A9FC, 0x3FE0000000000000, 0x3FD0000000000000, 1,
      0x3FF0000000000000] := by decide +kernel

/-- R104: `exist "a"` as P2 spells it on the bus. -/
theorem test_exist_expansion :
    (Asm.exist [0x61]).expand Params.rc =
      [.store 0x100000 1 0x61, .store 0x10 8 1, .store 0x00 8 3, .wait, .load 0x08 8] := by decide

/-! ## Witnesses: states and operands that meet the hypotheses of each statement, its clauses at their boundaries. -/

/-- The smallest and the largest configurations of R7, and one with the largest SIZING_BAND. (The largest one's
SIZING_BAND is a number of which nothing is known.) -/
def smallest : Params := ⟨6, 8, 16, 8, 16, .refHash, .ratio 0 1, 0, 0x1000⟩
def largest : Params := ⟨34, 64, 64, 64, 2 ^ 32 - 8, .other 0, .digits 0, 2 ^ 33, 0⟩
def banded : Params := { Params.rc with sizingBand := .ratio 1 (2 ^ 30) }

theorem inv_filterIdle : filterIdle.Inv := by constructor <;> decide +kernel
theorem inv_filterBusy_insert : (filterBusy 0x2 1).Inv := by constructor <;> decide +kernel
theorem inv_filterBusy_exist : (filterBusy 0x3 1).Inv := by constructor <;> decide +kernel
theorem inv_filterBusy_serialize : (filterBusy 0x4 0).Inv := by constructor <;> decide +kernel
theorem inv_unread : unread.Inv := by constructor <;> decide +kernel
theorem inv_oneBit : oneBit.Inv := by constructor <;> decide +kernel
theorem inv_faulted : faulted.Inv := by constructor <;> decide +kernel

/-- The invariant does not depend on what the outside world does next. -/
theorem inv_facing {s : State} (h : s.Inv) (is : List Input) : (facing s is).Inv :=
  ⟨h.config, h.fits, h.filter, h.noFilter, h.latch, h.interval, h.storage, h.buffer, h.report, h.length, h.faulted, h.sound⟩

theorem witness_legal_configurations :
    smallest.legal = true ∧ largest.legal = true ∧ banded.legal = true ∧ Params.rc.legal = true ∧
    smallest.windowsApart ∧ largest.windowsApart ∧ Params.rc.windowsApart := by
  unfold Params.windowsApart; decide

/-- ResetLeavesTheListedValues, CapsShowsTheParameters and InvariantHoldsAtReset. -/
theorem witness_powerOn :
    (∃ s, s = State.powerOn smallest) ∧ smallest.legal = true ∧ largest.legal = true := ⟨⟨_, rfl⟩, by decide, by decide⟩

/-- ResetInARunAbandonsEverything: a reset in the middle of a command. -/
theorem witness_ResetInARun :
    (facing (filterBusy 0x2 1) [.reset, .engine]).params.legal = true ∧
    (facing (filterBusy 0x2 1) [.reset, .engine]).inbox = .reset :: [.engine] := ⟨by decide, rfl⟩

/-- IllegalConfigurationIsRefused: parameters just past each constraint of R7, and the extreme ones that meet them all. -/
theorem witness_IllegalConfiguration :
    ([{ Params.rc with maxBitLenLog2 := 5 }, { Params.rc with wBL := 16, maxBitLenLog2 := 16 }, { Params.rc with wBL := 12 },
      { Params.rc with wHR := 8 }, { Params.rc with wSeed := 24 }, { Params.rc with xferBytes := 262140 },
      { Params.rc with xferBytes := 131088 }, { Params.rc with xferBytes := 2 ^ 32 }, { Params.rc with sizingBand := .ratio 0 0 },
      { Params.rc with sizingBand := .ratio 1 (2 ^ 30 - 1) }].map fun p =>
        refusalOf (step { State.reset with params := p })) = List.replicate 10 (some .illegalConfiguration) ∧
    ([smallest, largest, banded, { Params.rc with xferBytes := 131096 }].map fun p =>
        refusalOf (step { State.reset with params := p })) = List.replicate 4 none := by
  decide +kernel

/-- StepKeepsTheInvariant and FaultIsUnreachable: an EXIST executed, from a state that meets the invariant. -/
theorem witness_StepKeepsTheInvariant :
    (filterBusy 0x3 1).Inv ∧ (filterBusy 0x3 1).fault = false ∧ ∃ t : State, step (filterBusy 0x3 1) = .next t :=
  ⟨inv_filterBusy_exist, rfl, _, rfl⟩

/-- IllegalWordsOnlyReport: the word 0x6, accepted; both ways the engine comes to move. -/
theorem witness_IllegalWordsOnlyReport :
    (filterBusy 0x6 0).params.legal = true ∧ (filterBusy 0x6 0).inbox = [] ∧ (filterBusy 0x6 0).fault = false ∧
    (filterBusy 0x6 0).pend = some ⟨0x6, 0, 0, 0⟩ ∧ (facing (filterBusy 0x6 0) [.engine, .wait]).inbox = .engine :: [.wait] ∧
    ∀ i, decode 0x6 ≠ .ok i := by
  refine ⟨by decide, rfl, rfl, rfl, rfl, fun i => ?_⟩
  cases i <;> decide

/-- StepRunsTheDecodedCommand: both ways the engine comes to move, each with a next state. -/
theorem witness_StepRunsTheDecodedCommand :
    (filterBusy 0x3 1).params.legal = true ∧ (filterBusy 0x3 1).fault = false ∧
    (filterBusy 0x3 1).pend = some ⟨0x3, 1, 0, 0⟩ ∧ decode 0x3 = .ok .exist ∧ (filterBusy 0x3 1).inbox = [] ∧
    (facing (filterBusy 0x3 1) [.engine]).inbox = .engine :: [] ∧ ∃ t : State, exec .exist (filterBusy 0x3 1) = .next t :=
  ⟨by decide, rfl, rfl, by decide, rfl, rfl, _, rfl⟩

/-- PlacedWordRunsNext: every word of the table. -/
theorem witness_PlacedWordRunsNext :
    State.reset.params.legal = true ∧
    [0x1, 0x101, 0x2, 0x3, 0x4, 0x5].map (decodeTableWord 64) =
      [some .new, some .newS, some .insert, some .exist, some .serialize, some .deserialize] := by decide

/-- EngineStepAlwaysCompletes: both ways the engine comes to move. -/
theorem witness_EngineStepAlwaysCompletes :
    (filterBusy 0x2 1).pend = some ⟨0x2, 1, 0, 0⟩ ∧ (filterBusy 0x2 1).params.legal = true ∧
    (filterBusy 0x2 1).inbox = [] ∧ (facing (filterBusy 0x6 1) [.engine]).inbox = .engine :: [] := ⟨rfl, by decide, rfl, rfl⟩

/-- EngineIdlesUnlessEnabled: nothing pending; FAULT set; the engine's turn in the list. -/
theorem witness_EngineIdles :
    filterIdle.params.legal = true ∧ filterIdle.pend = none ∧ faulted.fault = true ∧ faulted.inbox = [] ∧
    (facing filterIdle [.engine]).inbox = .engine :: [] := ⟨by decide, rfl, rfl, rfl, rfl⟩

/-- WaitEndsWithinThreeSteps: idle, and with a command accepted. -/
theorem witness_WaitEnds :
    (facing filterIdle [.wait]).Inv ∧ (facing filterIdle [.wait]).inbox = .wait :: [] ∧
    (facing (filterBusy 0x2 1) [.wait]).Inv ∧ (facing (filterBusy 0x2 1) [.wait]).inbox = .wait :: [] ∧
    (facing (filterBusy 0x2 1) [.wait]).busy = true :=
  ⟨inv_facing inv_filterIdle _, rfl, inv_facing inv_filterBusy_insert _, rfl, rfl⟩

/-- ErrorsHaveNoOtherEffect and EngineNeverWritesOperandRegisters: a success, an EXIST that answers 1, and errors of
SERIALIZE and of INSERT. -/
theorem witness_ErrorsHaveNoOtherEffect :
    (∃ t : State, exec .insert (filterBusy 0x2 1) = .next t ∧ t.fault = false ∧ t.err = 0) ∧
    (∃ t : State, exec .exist (pending oneBit 0x3 0 0 0) = .next t ∧ t.fault = false ∧ t.result = true) ∧
    (∃ t : State, exec .serialize (pending State.reset 0x4 0 0 0) = .next t ∧ t.fault = false ∧ t.err ≠ 0) ∧
    (∃ t : State, exec .insert (pending filterIdle 0x2 0x40001 0 0) = .next t ∧ t.fault = false ∧ t.err ≠ 0) :=
  ⟨⟨_, rfl, by decide +kernel, by decide +kernel⟩, ⟨_, rfl, by decide +kernel, by decide +kernel⟩,
    ⟨_, rfl, by decide +kernel, by decide +kernel⟩, ⟨_, rfl, by decide +kernel, by decide +kernel⟩⟩

/-- OutlenIsWrittenOnlyBySerialize: SERIALIZE changes OUTLEN, a reset does, and SERIALIZE both succeeds and fails. -/
theorem witness_Outlen :
    (∃ t : State, step (filterBusy 0x4 0) = .next t ∧ t.outlen ≠ (filterBusy 0x4 0).outlen) ∧
    (∃ t : State, step (facing { State.reset with outlen := 28 } [.reset]) = .next t ∧ t.outlen ≠ 28) ∧
    (∃ t : State, exec .serialize (filterBusy 0x4 0) = .next t ∧ (filterBusy 0x4 0).Inv ∧ (filterBusy 0x4 0).fault = false ∧
      t.err = 0) ∧
    ∃ t : State, exec .serialize (pending State.reset 0x4 0 0 0) = .next t ∧ t.err ≠ 0 :=
  ⟨⟨_, rfl, by decide +kernel⟩, ⟨_, rfl, by decide +kernel⟩,
    ⟨_, rfl, inv_filterBusy_serialize, rfl, by decide +kernel⟩, ⟨_, rfl, by decide +kernel⟩⟩

/-- NoFilterComesBeforeBadLength: no filter; a filter and a length one above XFER_BYTES. -/
theorem witness_NoFilter :
    (pending State.reset 0x2 0x40001 0 0).pend = some ⟨0x2, 0x40001, 0, 0⟩ ∧
    (pending State.reset 0x2 0x40001 0 0).cfg.valid = false ∧
    (pending filterIdle 0x2 0x40001 0 0).pend = some ⟨0x2, 0x40001, 0, 0⟩ ∧
    (pending filterIdle 0x2 0x40001 0 0).cfg.valid = true ∧
    (pending filterIdle 0x2 0x40001 0 0).params.xferBytes < (0x40001 : Word).toNat := by decide

/-- IndexOutOfRangeRaisesTheFault: BITLEN 0 while VALID, a state the invariant rules out. -/
theorem witness_IndexOutOfRange :
    (pending (holding 0 1 0 []) 0x2 0 0 0).pend = some ⟨0x2, 0, 0, 0⟩ ∧
    (pending (holding 0 1 0 []) 0x2 0 0 0).cfg.valid = true ∧
    (0 : Word).toNat ≤ (pending (holding 0 1 0 []) 0x2 0 0 0).params.xferBytes ∧
    (pending (holding 0 1 0 []) 0x2 0 0 0).cfg.bitLen = 0 ∧ (pending (holding 0 1 0 []) 0x2 0 0 0).cfg.hRounds ≠ 0 := by
  decide

/-- FaultIsStickyUntilReset: each clause's list, at the first and the last register and byte. -/
theorem witness_FaultIsSticky :
    faulted.Inv ∧ faulted.fault = true ∧ (∃ t : State, step faulted = .next t) ∧ faulted.inbox.head? ≠ some .reset ∧
    (facing faulted [.store 0x00 8 1]).inbox = .store (faulted.params.regBase) 8 1 :: [] ∧
    (facing faulted [.load 0xF8 8]).inbox = .load (faulted.params.regBase + 0xF8) 8 :: [] ∧
    faulted.params.windowsApart ∧ 0x3FFFF < faulted.params.xferBytes ∧ faulted.raceOpen = false ∧
    (facing faulted [.load 0x13FFFF 1]).inbox = .load (faulted.params.xferBase + 0x3FFFF) 1 :: [] ∧
    (facing faulted [.store 0x13FFFF 1 7]).inbox = .store (faulted.params.xferBase + 0x3FFFF) 1 7 :: [] ∧
    (facing faulted [.reset]).inbox = .reset :: [] :=
  ⟨inv_faulted, rfl, ⟨_, rfl⟩, by decide, rfl, rfl, by unfold Params.windowsApart; decide, by decide, rfl, rfl, rfl, rfl⟩

/-- WriteAccessIsComplete: a store to each operand register, to XFER and to CMD, a SERIALIZE, and a NEW.S. -/
theorem witness_WriteAccess :
    (∃ t : State, step (facing filterIdle [.store 0x10 8 9]) = .next t ∧ t.arg0 ≠ filterIdle.arg0) ∧
    (∃ t : State, step (facing filterIdle [.store 0x18 8 9]) = .next t ∧ t.arg1 ≠ filterIdle.arg1) ∧
    (∃ t : State, step (facing filterIdle [.store 0x20 8 9]) = .next t ∧ t.arg2 ≠ filterIdle.arg2) ∧
    (∃ t : State, step (facing (keyed filterIdle [0]) [.store 0x100000 1 9]) = .next t ∧
      t.xferByte 0 ≠ (keyed filterIdle [0]).xferByte 0) ∧
    (∃ t : State, step (facing filterIdle [.store 0x00 8 4]) = .next t ∧ t.pend ≠ filterIdle.pend) ∧
    (∃ t : State, step (filterBusy 0x4 0) = .next t ∧ t.xferByte 0 ≠ (filterBusy 0x4 0).xferByte 0) ∧
    ∃ t : State, step (pending State.reset 0x101 1 0x3FE0000000000000 0) = .next t ∧ t.cfg ≠ State.reset.cfg :=
  ⟨⟨_, rfl, by decide +kernel⟩, ⟨_, rfl, by decide +kernel⟩, ⟨_, rfl, by decide +kernel⟩, ⟨_, rfl, by decide +kernel⟩,
    ⟨_, rfl, by decide +kernel⟩, ⟨_, rfl, by decide +kernel⟩, ⟨_, rfl, by decide +kernel⟩⟩

/-- CommandAcceptance: FAULT set, BUSY set, neither. -/
theorem witness_CommandAcceptance :
    (facing faulted [.store 0 8 1]).inbox = .store faulted.params.regBase 8 1 :: [] ∧ faulted.fault = true ∧
    faulted.params.legal = true ∧ (filterBusy 0x2 1).fault = false ∧ (filterBusy 0x2 1).busy = true ∧
    filterIdle.fault = false ∧ filterIdle.busy = false := by decide

/-- OperandRegistersReadBack, with a command pending. -/
theorem witness_OperandRegisters :
    (facing (filterBusy 0x2 1) [.store 0x10 8 9, .load 0x10 8]).inbox =
      .store ((filterBusy 0x2 1).params.regBase + 0x10) 8 9 :: .load ((filterBusy 0x2 1).params.regBase + 0x10) 8 :: [] ∧
    (facing (filterBusy 0x2 1) [.store 0x18 8 9, .load 0x18 8]).inbox =
      .store ((filterBusy 0x2 1).params.regBase + 0x18) 8 9 :: .load ((filterBusy 0x2 1).params.regBase + 0x18) 8 :: [] ∧
    (facing (filterBusy 0x2 1) [.store 0x20 8 9, .load 0x20 8]).inbox =
      .store ((filterBusy 0x2 1).params.regBase + 0x20) 8 9 :: .load ((filterBusy 0x2 1).params.regBase + 0x20) 8 :: [] ∧
    (filterBusy 0x2 1).params.legal = true := by decide

/-- RegisterAccessesDefined: the first and last defined offsets, the last undefined one, a narrow access. -/
theorem witness_RegisterAccesses :
    (8 = 8 ∧ 0 % 8 = 0) ∧ (8 = 8 ∧ 0xF8 % 8 = 0) ∧ ¬ (8 = 8 ∧ 0xFF % 8 = 0) ∧ ¬ (4 = 8 ∧ 0x08 % 8 = 0) ∧ 0xFF < 256 ∧
    (facing State.reset [.load 0xFF 8]).inbox = .load (State.reset.params.regBase + 0xFF) 8 :: [] ∧
    (facing State.reset [.store 0x08 4 1]).inbox = .store (State.reset.params.regBase + 0x08) 4 1 :: [] := by decide

/-- RegisterReads and WritesToReadOnlyRegistersAreIgnored: CMD, STATUS, the first and the last reserved offset. -/
theorem witness_RegisterReads :
    State.reset.params.legal = true ∧ 0x50 % 8 = 0 ∧ 0xF8 % 8 = 0 ∧
    (facing State.reset [.load 0x00 8]).inbox = .load (State.reset.params.regBase + 0x00) 8 :: [] ∧
    (facing State.reset [.load 0x50 8]).inbox = .load (State.reset.params.regBase + 0x50) 8 :: [] ∧
    (facing State.reset [.load 0xF8 8]).inbox = .load (State.reset.params.regBase + 0xF8) 8 :: [] ∧
    (facing State.reset [.store 0x08 8 1]).inbox = .store (State.reset.params.regBase + 0x08) 8 1 :: [] ∧
    (facing State.reset [.store 0x28 8 1]).inbox = .store (State.reset.params.regBase + 0x28) 8 1 :: [] ∧
    (facing State.reset [.store 0xF8 8 1]).inbox = .store (State.reset.params.regBase + 0xF8) 8 1 :: [] := by decide

/-- TransferBufferAccesses, TransferBufferRace and MixedWidthsSeeTheBytes: the last 8 bytes, the first misaligned
offset, the first address after the buffer; a race before and after the engine's step. -/
theorem witness_TransferBuffer :
    State.reset.params.legal = true ∧ State.reset.params.windowsApart ∧ State.reset.busy = false ∧
    State.reset.raceOpen = false ∧ (filterBusy 0x2 1).busy = true ∧ unread.busy = false ∧ unread.raceOpen = true ∧ 0x3FFF8 < State.reset.params.xferBytes ∧
    (8 ∈ [1, 2, 4, 8] ∧ 0x3FFF8 % 8 = 0 ∧ 0x3FFF8 + 8 ≤ State.reset.params.xferBytes) ∧
    ¬ (8 ∈ [1, 2, 4, 8] ∧ 0x4 % 8 = 0 ∧ 0x4 + 8 ≤ State.reset.params.xferBytes) ∧
    ¬ (3 ∈ [1, 2, 4, 8] ∧ 0 % 3 = 0 ∧ 0 + 3 ≤ State.reset.params.xferBytes) ∧
    State.reset.params.regBase + 256 ≤ 0x140000 ∧ State.reset.params.xferBase + State.reset.params.xferBytes ≤ 0x140000 ∧
    State.reset.params.regBase + 256 ≤ 0x100 ∧ 0x100 < State.reset.params.xferBase ∧
    (facing State.reset [.store 0x13FFF8 8 5, .load 0x13FFFF 1]).inbox =
      .store (State.reset.params.xferBase + 0x3FFF8) 8 5 :: .load (State.reset.params.xferBase + (0x3FFF8 + 7)) 1 :: [] ∧
    (facing State.reset [.store 0x100003 1 5, .load 0x100000 4]).inbox =
      .store (State.reset.params.xferBase + (0 + 3)) 1 5 :: .load (State.reset.params.xferBase + 0) 4 :: [] := by
  unfold Params.windowsApart; decide

/-- HostAssemblyWritesItsBytes: "a" at the last byte of the buffer. -/
theorem witness_HostAssembly :
    State.reset.params.legal = true ∧ State.reset.params.windowsApart ∧ State.reset.busy = false ∧
    State.reset.raceOpen = false ∧ 0x3FFFF + [(0x61 : Byte)].length ≤ State.reset.params.xferBytes ∧
    (facing State.reset [.store 0x13FFFF 1 0x61]).inbox = (Asm.xwr 0x3FFFF [0x61]).expand State.reset.params ++ [] := by
  unfold Params.windowsApart; decide

/-- 0.01, as T2 writes it, and the least and the greatest probabilities. -/
def hundredth : Probability := ⟨0x147AE147AE147B, 59, by decide, by decide⟩
def least : Probability := ⟨1, 1074, by decide, by decide⟩
def greatest : Probability := ⟨2 ^ 53 - 1, 53, by decide, by decide⟩

/-- ProbabilityIsTheBinary64Value and SizingIsTheIdealBitCount: the least subnormal, and the largest below 1. -/
theorem witness_probabilities :
    probabilityOf 1 = some least ∧ probabilityOf 0x3FEFFFFFFFFFFFFF = some greatest ∧
    probabilityOf 0x3F847AE147AE147B = some hundredth := by decide +kernel

/-- The bands of the witnesses: RC's is 0, and another's is not given as a quotient. -/
theorem witness_bands : Params.rc.legal = true ∧ Params.rc.band = 0 ∧ largest.legal = true ∧ largest.sizingBand = .digits 0 :=
  ⟨by decide, by norm_num [Params.band, BandChoice.toReal, Params.rc], by decide, rfl⟩

/-- SizingIsTheIdealBitCount and SizingIsTheIdealRoundCount: without a band one member; and with the widest band two
members, both sides of `x` (n = 10^9 and p = 0.01, `x` about 9.585 * 10^9). -/
theorem witness_spans :
    Params.rc.legal = true ∧ banded.legal = true ∧ (mRawSpan Params.rc 1 least).lo = (mRawSpan Params.rc 1 least).hi ∧
    (roundsSpan Params.rc 1000 16384).lo = (roundsSpan Params.rc 1000 16384).hi ∧
    (mRawSpan banded 1000000000 hundredth).lo < (mRawSpan banded 1000000000 hundredth).hi := by decide +kernel

/-- PowerOfTwoRounding and CapacityIsCheckedAfterTheProbability: `m_raw` 1, CAP_BITS and one more; T2 rows 18 and 19. -/
theorem witness_capacity :
    1 ≤ 1 ∧ 2 ^ 20 ≤ Params.rc.capBits ∧ ¬ 2 ^ 20 + 1 ≤ Params.rc.capBits ∧ Params.rc.legal = true ∧
    Params.rc.capBits < (mRawSpan Params.rc (itemCount 110000) hundredth).lo ∧
    (mRawSpan Params.rc (itemCount 100000) hundredth).hi ≤ Params.rc.capBits := by decide +kernel

/-- SizingSanity, NewInstallsAFreshFilter, FailedNewChangesNothing: a size and an error, for NEW and NEW.S. -/
theorem witness_New :
    (pending State.reset 0x101 1000 0x3F847AE147AE147B seedS).params.legal = true ∧
    (pending State.reset 0x101 1000 0x3F847AE147AE147B seedS).pend = some ⟨0x101, 1000, 0x3F847AE147AE147B, seedS⟩ ∧
    size Params.rc 0 1000 0x3F847AE147AE147B = .ok (16384, 11) ∧
    size Params.rc 0 1000 0x3FF0000000000000 = .error .invalidParameter :=
  ⟨by decide, rfl, by decide +kernel, by decide +kernel⟩

/-- FreshFilterHoldsNoKey: a NEW.S that succeeds, and an EXIST of a key that fits. -/
theorem witness_FreshFilter :
    ∃ t u : State, State.reset.params.legal = true ∧ exec .newS (pending State.reset 0x101 4 0x3FB999999999999A seedS) = .next t ∧
      t.err = 0 ∧ u.params = t.params ∧ u.cfg = t.cfg ∧ u.bv = t.bv ∧ u.pend = some ⟨0x3, 0x40000, 0, 0⟩ ∧
      (0x40000 : Word).toNat ≤ u.params.xferBytes :=
  ⟨_, { construct seedS ⟨0x101, 4, 0x3FB999999999999A, seedS⟩ (pending State.reset 0x101 4 0x3FB999999999999A seedS)
    with pend := some ⟨0x3, 0x40000, 0, 0⟩ }, by decide, rfl, by decide +kernel, rfl, by decide +kernel, by decide +kernel,
    rfl, by decide +kernel⟩

/-- MaskedIndexIsTheResidue, IndicesLengthAndRange, ReferenceIndicesAreDistinct: the ends of the ranges. -/
theorem witness_indices :
    0 ≤ 63 ∧ 63 ≤ 63 ∧ (1 : Word) ≠ 0 ∧ 1 ≤ 2 ^ 0 ∧ 2 ^ 5 ≤ 2 ^ 5 ∧ 0 < 1 ∧
    indices .refHash seedS 1 (BitVec.ofNat 64 (2 ^ 0)) [0x61] = [0] := by decide +kernel

/-- SetBitSetsOneBit, InsertSetsExactlyTheIndexedBits, ExistTestsEveryIndexedBit: the last index and the first outside;
the longest key. -/
theorem witness_engine :
    filterIdle.Inv ∧ filterIdle.fault = false ∧ filterIdle.cfg.valid = true ∧ (31 : Word).toNat < filterIdle.cfg.bitLen.toNat ∧
    filterIdle.cfg.bitLen.toNat ≤ (32 : Word).toNat ∧ (filterBusy 0x2 1).Inv ∧ (filterBusy 0x3 1).Inv ∧
    (filterBusy 0x2 1).pend = some ⟨0x2, 1, 0, 0⟩ ∧ (0x40000 : Word).toNat ≤ filterIdle.params.xferBytes :=
  ⟨inv_filterIdle, rfl, rfl, by decide, by decide, inv_filterBusy_insert, inv_filterBusy_exist, rfl, by decide⟩

/-- ExistDependsOnFilterAndKeyAlone: two EXISTs of one key, the second after a SERIALIZE has set OUTLEN. -/
theorem witness_ExistIsPure :
    ∃ t v : State, (filterBusy 0x3 1).Inv ∧ ({ filterBusy 0x3 1 with outlen := 28 } : State).Inv ∧
      (filterBusy 0x3 1).memRead 0 1 = ({ filterBusy 0x3 1 with outlen := 28 } : State).memRead 0 1 ∧
      exec .exist (filterBusy 0x3 1) = .next t ∧ exec .exist { filterBusy 0x3 1 with outlen := 28 } = .next v ∧
      t.err = 0 ∧ v.err = 0 :=
  ⟨_, _, inv_filterBusy_exist, by constructor <;> decide +kernel, by decide +kernel, rfl, rfl, by decide +kernel,
    by decide +kernel⟩

/-- A step within a filter's lifetime: no reset, and the pending command, if any, replaces no filter. -/
theorem within {s t u : State} (h : SameLifetime s t) (hs : step t = .next u) (hr : t.inbox.head? ≠ some .reset)
    (hq : ∀ q, t.pend = some q → decode q.cmd = .ok .insert ∨ decode q.cmd = .ok .exist) : SameLifetime s u := by
  refine .step h hs ?_
  rintro (h' | ⟨-, -, -, q, h1, h2⟩)
  · exact hr h'
  · rcases hq q h1 with e | e <;> rw [e] at h2 <;> simp at h2

/-- BitsOnlyRiseWithinALifetime: a filter with a bit set, the CMD write of an EXIST, and its execution. -/
theorem witness_BitsOnlyRise :
    ∃ t : State, (facing oneBit [.store 0x00 8 0x3, .engine]).Inv ∧ oneBit.fault = false ∧
      SameLifetime (facing oneBit [.store 0x00 8 0x3, .engine]) t ∧ t.inbox = [] ∧ t.result = true ∧
      oneBit.cfg.valid = true ∧ 0 < oneBit.cfg.bitLen.toNat ∧ oneBit.bv.bit 0 = true :=
  ⟨_, inv_facing inv_oneBit _, rfl,
    within (within .refl rfl (by decide) (by decide)) rfl (by decide)
      (fun q h => by cases h; exact .inr (by decide)), by decide +kernel, by decide +kernel, rfl, by decide, by decide⟩

/-- NoFalseNegatives: INSERT "a", then ARG0 written, an EXIST of the same key accepted, and the key still in XFER. -/
theorem witness_NoFalseNegatives :
    ∃ s t u : State, s = facing (filterBusy 0x2 1) [.engine, .store 0x10 8 1, .store 0x00 8 0x3] ∧ s.Inv ∧ s.fault = false ∧
      s.pend = some ⟨0x2, 1, 0, 0⟩ ∧ decode 0x2 = .ok .insert ∧ s.engineMoves ∧ step s = .next t ∧ t.err = 0 ∧
      SameLifetime t u ∧ u.pend = some ⟨0x3, 1, 0, 0⟩ ∧ u.memRead 0 1 = s.memRead 0 1 :=
  ⟨_, _, _, rfl, inv_facing inv_filterBusy_insert _, rfl, rfl, by decide, .inr rfl, rfl, by decide +kernel,
    within (within .refl rfl (by decide +kernel) (by decide +kernel)) rfl (by decide +kernel) (by decide +kernel),
    by decide +kernel, by decide +kernel⟩

/-- TailBitsAreOutsideTheFilter: two storages that differ in a tail bit only. -/
theorem witness_TailBits :
    ∃ t v : State, (filterBusy 0x3 1).Inv ∧ ({ filterBusy 0x3 1 with bv := ⟨0, 1, [(0, 0x100000000)]⟩ } : State).Inv ∧
      (∀ i < 32, BitStore.bit ⟨0, 1, [(0, 0x100000000)]⟩ i = (filterBusy 0x3 1).bv.bit i) ∧
      exec .exist (filterBusy 0x3 1) = .next t ∧
      exec .exist { filterBusy 0x3 1 with bv := ⟨0, 1, [(0, 0x100000000)]⟩ } = .next v :=
  ⟨_, _, inv_filterBusy_exist, by constructor <;> decide +kernel, by decide +kernel, rfl, rfl⟩

/-- SerializeWritesTheImage and ImageBitPlacement: the 32-bit filter, its last bit of the word. -/
theorem witness_Serialize :
    (filterBusy 0x4 0).Inv ∧ (filterBusy 0x4 0).fault = false ∧ (filterBusy 0x4 0).cfg.valid = true ∧
    (filterBusy 0x4 0).pend = some ⟨0x4, 0, 0, 0⟩ ∧ 63 < 64 * wordCount (filterBusy 0x4 0).cfg.bitLen.toNat :=
  ⟨inv_filterBusy_serialize, rfl, rfl, rfl, by decide⟩

/-- A DESERIALIZE of `len` bytes, the bytes given. -/
def loading (bytes : List Byte) (len : Word) : State := keyed (pending State.reset 0x5 len 0 0) bytes

/-- DeserializeLoadsTheImage: the 1-bit filter of T9 row 12. -/
theorem witness_Deserialize :
    (loading (headerBytes 1 5000 ++ leBytes 8 1) 28).params.legal = true ∧ (28 : Word).toNat ≤ Params.rc.xferBytes ∧
    fromLE (((loading (headerBytes 1 5000 ++ leBytes 8 1) 28).memRead 0 28).take 8) = 2 ^ 0 ∧
    fromLE ((((loading (headerBytes 1 5000 ++ leBytes 8 1) 28).memRead 0 28).drop 8).take 4) = 5000 ∧
    Params.rc.hdr ≤ 28 ∧ 1 ≤ Params.rc.capBits ∧ 28 = Params.rc.hdr + 8 * ((1 + 63) / 64) := by decide +kernel

/-- DeserializeErrorsInOrder: each clause, at the lengths and fields next to the ones that pass. -/
theorem witness_DeserializeErrors :
    Params.rc.xferBytes < (0x40001 : Word).toNat ∧ (19 : Word).toNat < Params.rc.hdr ∧ Params.rc.hdr ≤ (20 : Word).toNat ∧
    (∀ e < 64, (0 : Nat) ≠ 2 ^ e) ∧ Params.rc.capBits < 2 ^ 21 ∧ 2 ^ 20 ≤ Params.rc.capBits ∧
    27 ≠ Params.rc.hdr + 8 * ((32 + 63) / 64) ∧ 29 ≠ Params.rc.hdr + 8 * ((32 + 63) / 64) ∧
    fromLE (((loading (headerBytes 0 6) 20).memRead 0 20).take 8) = 0 ∧
    fromLE ((((loading (headerBytes 32 0) 20).memRead 0 20).drop 8).take 4) = 0 ∧
    fromLE (((loading (headerBytes (2 ^ 21) 1) 20).memRead 0 20).take 8) = 2 ^ 21 := by decide +kernel

/-- RoundTripKeepsTheFilter: the block after SERIALIZE, asked to load what it wrote. -/
theorem witness_RoundTripFilter :
    ∃ t u : State, (filterBusy 0x4 0).Inv ∧ exec .serialize (filterBusy 0x4 0) = .next t ∧ u.params = (filterBusy 0x4 0).params ∧
      u.pend = some ⟨0x5, t.outlen, 0, 0⟩ ∧ u.memRead 0 t.outlen.toNat = t.memRead 0 t.outlen.toNat :=
  ⟨_, { serializeFilter (filterBusy 0x4 0) with pend := some ⟨0x5, (serializeFilter (filterBusy 0x4 0)).outlen, 0, 0⟩ },
    inv_filterBusy_serialize, rfl, by decide +kernel, rfl, rfl⟩

/-- RoundTripKeepsTheImage: T12's image loaded, then a SERIALIZE. -/
theorem witness_RoundTripImage :
    ∃ t u : State, (loading (image32 [0, 0, 0, 0, 0xFF, 0xFF, 0xFF, 0xFF]) 28).params.legal = true ∧
      exec .deserialize (loading (image32 [0, 0, 0, 0, 0xFF, 0xFF, 0xFF, 0xFF]) 28) = .next t ∧ t.err = 0 ∧
      u.params = t.params ∧ u.cfg = t.cfg ∧ u.bv = t.bv ∧ u.pend = some ⟨0x4, 0, 0, 0⟩ :=
  ⟨_, { deserializeFilter (loading (image32 [0, 0, 0, 0, 0xFF, 0xFF, 0xFF, 0xFF]) 28) ⟨0x5, 28, 0, 0⟩ with
    pend := some ⟨0x4, 0, 0, 0⟩ }, by decide, rfl, by decide +kernel, rfl, rfl, rfl, rfl⟩

/-- FilterIsReplacedWhole: a NEW.S and a DESERIALIZE that replace a filter, an INSERT, and a reset. -/
theorem witness_FilterIsReplaced :
    (∃ t : State, step (pending filterIdle 0x101 1 0x3FE0000000000000 0) = .next t ∧ t.err = 0 ∧ t.cfg ≠ filterIdle.cfg) ∧
    (∃ t : State, step (keyed (pending filterIdle 0x5 28 0 0) (headerBytes 1 5000 ++ leBytes 8 1)) = .next t ∧ t.err = 0 ∧
      t.cfg ≠ filterIdle.cfg) ∧
    (∃ t : State, step (filterBusy 0x2 1) = .next t ∧ t.bv.word 0 ≠ (filterBusy 0x2 1).bv.word 0) ∧
    (∃ t : State, step (facing filterIdle [.reset]) = .next t ∧ t.cfg.valid = false) ∧ filterIdle.Inv :=
  ⟨⟨_, rfl, by decide +kernel, by decide +kernel⟩, ⟨_, rfl, by decide +kernel, by decide +kernel⟩,
    ⟨_, rfl, by decide +kernel⟩, ⟨_, rfl, by decide +kernel⟩, inv_filterIdle⟩

end Sys2Proof.Tests
end

section
/-! PROOFS. The refusal of a configuration outside R7 (00_scope.md R7, R9): each constraint negated, and a step of a legal
configuration is never refused. -/

namespace Sys2Proof

/-- R7's constraint on `MAX_BITLEN_LOG2`, broken. -/
theorem Params.capacityLegal_eq_false {p : Params} :
    p.capacityLegal = false ↔ p.maxBitLenLog2 < 6 ∨ p.wBL < p.maxBitLenLog2 + 1 := by
  rw [Params.capacityLegal, Bool.and_eq_false_iff, decide_eq_false_iff_not, decide_eq_false_iff_not]
  omega

/-- R7's constraints on the three field widths, broken. -/
theorem Params.widthsLegal_eq_false {p : Params} :
    p.widthsLegal = false ↔ p.wBL ∉ [8, 16, 32, 64] ∨ p.wHR ∉ [16, 32, 64] ∨ p.wSeed ∉ [8, 16, 32, 64] := by
  rw [← Bool.not_eq_true, Params.widthsLegal, Bool.and_eq_true, Bool.and_eq_true, List.contains_iff_mem,
    List.contains_iff_mem, List.contains_iff_mem, not_and_or, not_and_or, or_assoc]

/-- R7's constraint on `XFER_BYTES`, broken. -/
theorem Params.xferLegal_eq_false {p : Params} :
    p.xferLegal = false ↔
      p.xferBytes % 8 ≠ 0 ∨ p.xferBytes < p.hdr + 8 * p.capWords ∨ 2 ^ 32 ≤ p.xferBytes := by
  rw [Params.xferLegal, Bool.and_eq_false_iff, Bool.and_eq_false_iff, beq_eq_false_iff_ne,
    decide_eq_false_iff_not, decide_eq_false_iff_not, not_le, not_lt, or_assoc]

/-- R7's constraint on `SIZING_BAND`, broken: only a quotient can break it. -/
theorem BandChoice.legal_eq_false {b : BandChoice} :
    b.legal = false ↔ ∃ num den, b = .ratio num den ∧ (den = 0 ∨ den < num * 2 ^ 30) := by
  cases b with
  | ratio num den =>
    rw [BandChoice.legal, Bool.and_eq_false_iff, bne_eq_false_iff_eq, decide_eq_false_iff_not, not_le]
    constructor
    · exact fun h => ⟨num, den, rfl, h⟩
    · rintro ⟨_, _, ⟨⟩, h⟩
      exact h
  | digits id => simp [BandChoice.legal]

/-- The parameters are no configuration of the block exactly where one of R7's four groups of constraints is broken. -/
theorem Params.legal_eq_false {p : Params} :
    p.legal = false ↔
      p.capacityLegal = false ∨ p.widthsLegal = false ∨ p.xferLegal = false ∨ p.sizingBand.legal = false := by
  simp only [Params.legal, Bool.and_eq_false_iff]
  tauto

end Sys2Proof

namespace Sys2Proof.Machine

/-- The engine's turn always has a next state. -/
theorem engineTurn_total (s : State) : ∃ t, engineTurn s = .next t := by
  unfold engineTurn
  cases hp : s.pend with
  | none => exact ⟨s, rfl⟩
  | some q =>
    cases hf : s.fault with
    | true => exact ⟨s, rfl⟩
    | false =>
      cases hd : decode q.cmd with
      | error e => exact ⟨(s.fail .illegalCommand).retire, by simp [hd]⟩
      | ok i => exact ⟨(commandResult i s q).retire, by simp [hd, exec_pending hp]⟩

/-- An entry of the host port's list is never refused: it has a next state or is a fault. -/
theorem serve_ne_refused (i : Input) (s : State) (r : Refusal) : serve i s ≠ .refused r := by
  cases i with
  | engine =>
    obtain ⟨t, h⟩ := engineTurn_total s
    simp [serve, h]
  | load addr width => cases h : s.access addr width <;> simp [serve, hostLoad, h]
  | store addr width v => cases h : s.access addr width <;> simp [serve, hostStore, h]
  | wait => simp [serve]
  | readImage => simp [serve]
  | reset => simp [serve]

/-- A step of a legal configuration is never refused, for any reason. -/
theorem step_ne_refused {s : State} (hl : s.params.legal = true) (r : Refusal) : step s ≠ .refused r := by
  unfold step advance
  rw [if_pos hl]
  cases s.inbox with
  | nil =>
    obtain ⟨t, h⟩ := engineTurn_total s
    simp [h]
  | cons i rest => exact serve_ne_refused i _ r

/-- R9: the configuration is refused exactly where the parameters break R7. -/
theorem step_eq_illegalConfiguration {s : State} :
    step s = .refused .illegalConfiguration ↔ s.params.legal = false := by
  cases hl : s.params.legal with
  | true => simp [step_ne_refused hl]
  | false => simp [step, advance, hl]

/-- Settles O3: the step refuses exactly the illegal parameters, and R7's constraints are negated one by one. -/
theorem illegalConfigurationIsRefused : Obligations.IllegalConfigurationIsRefused := by
  unfold Obligations.IllegalConfigurationIsRefused
  rintro s p rfl
  rw [step_eq_illegalConfiguration, Params.legal_eq_false, Params.capacityLegal_eq_false, Params.widthsLegal_eq_false,
    Params.xferLegal_eq_false, BandChoice.legal_eq_false, Params.hdr, Params.capWords]
  simp only [or_assoc]

end Sys2Proof.Machine
end

section
/-! PROOFS. The step as equations, and everything a step can write (10_state.md R33, 30_encoding.md R95, R96). -/

namespace Sys2Proof.Machine

/-! The step and the engine's turn as equations. -/

/-- An entry at the head of the host port's list is served. -/
theorem step_cons {s : State} {i : Input} {rest : List Input} (hl : s.params.legal = true) (hi : s.inbox = i :: rest) :
    step s = serve i { s with inbox := rest } := by
  simp [step, advance, hl, hi]

/-- With nothing in the list it is the engine's turn. -/
theorem step_nil {s : State} (hl : s.params.legal = true) (hi : s.inbox = []) : step s = engineTurn s := by
  simp [step, advance, hl, hi]

/-- A run goes on from the next state. -/
theorem run_succ {s t : State} (h : step s = .next t) (k : Nat) :
    Host.Core.run Sys2Proof.core (k + 1) s = Host.Core.run Sys2Proof.core k t := by
  have hc : Sys2Proof.core.step s = .next t := h
  simp [Host.Core.run, hc]

/-- What the engine makes of a pending command before it retires it: the command's own effect, or `ILLEGAL_COMMAND`
(R93, R96). -/
def engineEffect (s : State) (q : Pending) : State :=
  match decode q.cmd with
  | .ok i => commandResult i s q
  | .error _ => s.fail .illegalCommand

/-- The effect of a word that decodes is its command's. -/
theorem engineEffect_ok {q : Pending} {i : Instr} (h : decode q.cmd = .ok i) (s : State) :
    engineEffect s q = commandResult i s q := by
  simp [engineEffect, h]

/-- Where the engine has no enabled step its turn changes nothing (R35). -/
theorem engineTurn_idle {s : State} (h : s.pend = none ∨ s.fault = true) : engineTurn s = .next s := by
  unfold engineTurn
  cases hp : s.pend with
  | none => rfl
  | some q =>
    have hf : s.fault = true := h.resolve_left (by simp [hp])
    simp [hf]

/-- An enabled step of the engine is the pending command's effect, and the command retired (R96). -/
theorem engineTurn_enabled {s : State} {q : Pending} (hf : s.fault = false) (hp : s.pend = some q) :
    engineTurn s = .next (engineEffect s q).retire := by
  unfold engineTurn engineEffect
  cases hd : decode q.cmd with
  | ok i => simp [hp, hf, hd, exec_pending hp]
  | error e => simp [hp, hf, hd]

/-- Where it is the engine's turn, the step is that turn, with its own entry taken off the list. -/
theorem step_engineMoves {s : State} (hl : s.params.legal = true) (hm : s.engineMoves) :
    ∃ rest, step s = engineTurn { s with inbox := rest } := by
  rcases hm with hi | hi
  · exact ⟨s.inbox, step_nil hl hi⟩
  · obtain ⟨rest, hi⟩ := List.head?_eq_some_iff.1 hi
    exact ⟨rest, step_cons hl hi⟩

/-- Two steps, one after the other, are a run of two. -/
theorem run_two {s t u : State} (h : step s = .next t) (h' : step t = .next u) :
    Host.Core.run Sys2Proof.core 2 s = .next u :=
  (run_succ h 1).trans (run_succ h' 0)

/-! The register window. -/

/-- A register that a host store changes the state through (R33). -/
def HostReg.Writable (r : HostReg) : Prop := r = .cmd ∨ r = .arg0 ∨ r = .arg1 ∨ r = .arg2

/-- A named register stands at its own offset alone (R25). -/
theorem offset_of_regAt {o : Nat} {r : HostReg} (h : regAt o = r) (hr : r ≠ .reserved) : o = r.offset := by
  subst h
  unfold regAt at hr ⊢
  split_ifs at hr ⊢ <;> simp_all [HostReg.offset]

/-- The offsets from 0x50 on are reserved (R25, R32). -/
theorem regAt_reserved {o : Nat} (h : 0x50 ≤ o) : regAt o = .reserved := by
  unfold regAt
  split_ifs <;> simp_all

/-- An aligned 8-byte access inside the register window is its register's (R61). -/
theorem access_register {s : State} {o : Nat} (ha : o % 8 = 0) (ho : o ≤ 0xF8) :
    s.access (s.params.regBase + o) 8 = .reg (regAt o) := by
  have hr : route s.params (s.params.regBase + o) = some (.reg o) := by
    rw [route, if_pos (by omega), Nat.add_sub_cancel_left]
  simp [State.access, hr, regAccessOk, ha, ho]

/-- A host load of a register is a step that returns its value. -/
theorem step_loadRegister {s : State} {o : Nat} {rest : List Input} (hl : s.params.legal = true) (ha : o % 8 = 0)
    (ho : o ≤ 0xF8) (hi : s.inbox = .load (s.params.regBase + o) 8 :: rest) :
    step s = .next (State.loadReg (regAt o) { s with inbox := rest }) := by
  have hacc : State.access { s with inbox := rest } (s.params.regBase + o) 8 = .reg (regAt o) := access_register ha ho
  rw [step_cons hl hi, serve, hostLoad, hacc]

/-- A host store to a register is a step that writes it. -/
theorem step_storeRegister {s : State} {o : Nat} {v : Word} {rest : List Input} (hl : s.params.legal = true)
    (ha : o % 8 = 0) (ho : o ≤ 0xF8) (hi : s.inbox = .store (s.params.regBase + o) 8 v :: rest) :
    step s = .next (State.writeReg (regAt o) v { s with inbox := rest }) := by
  have hacc : State.access { s with inbox := rest } (s.params.regBase + o) 8 = .reg (regAt o) := access_register ha ho
  rw [step_cons hl hi, serve, hostStore, hacc]

/-- A store to a register that is not writable is ignored (R25, R32). -/
theorem State.writeReg_readOnly {r : HostReg} (h : ¬ r.Writable) (v : Word) (s : State) : s.writeReg r v = s := by
  cases r <;> simp_all [HostReg.Writable, State.writeReg]


/-- A store to a register changes neither the parameters nor the host's list. -/
@[simp] theorem State.writeReg_params (r : HostReg) (v : Word) (s : State) : (s.writeReg r v).params = s.params := by
  cases r <;> simp only [State.writeReg, State.acceptCmd]
  split_ifs <;> rfl

@[simp] theorem State.writeReg_inbox (r : HostReg) (v : Word) (s : State) : (s.writeReg r v).inbox = s.inbox := by
  cases r <;> simp only [State.writeReg, State.acceptCmd]
  split_ifs <;> rfl

/-! The tier 1 obligations. -/

/-- Settles O1: each field of `State.powerOn`, read off. -/
theorem resetLeavesTheListedValues : Obligations.ResetLeavesTheListedValues := by
  unfold Obligations.ResetLeavesTheListedValues
  refine ⟨rfl, ?_⟩
  rintro p s rfl
  have hstatus : (State.powerOn p).status = 0 := by simp [State.status, State.powerOn]
  exact ⟨rfl, hstatus, rfl, rfl, rfl, rfl, rfl, rfl, rfl, rfl, rfl, rfl, rfl, rfl, fun j => rfl, fun a => rfl⟩

/-- Appending bits below a value multiplies it. -/
theorem toNat_append_add {m n : Nat} (x : BitVec m) (y : BitVec n) : (x ++ y).toNat = x.toNat * 2 ^ n + y.toNat := by
  rw [BitVec.toNat_append, ← Nat.shiftLeft_add_eq_or_of_lt y.isLt, Nat.shiftLeft_eq]

/-- Settles O4: CAPS is the sum of its fields, each below the weight of the next. -/
theorem capsShowsTheParameters : Obligations.CapsShowsTheParameters := by
  unfold Obligations.CapsShowsTheParameters
  refine ⟨by decide, fun p hp => ?_⟩
  obtain ⟨hBL, hHR, hSeed, hL, hLBL, -, hX⟩ := Params.legal_spec hp
  have hcaps : p.caps.toNat =
      (((p.xferBytes * 2 ^ 8 + p.wSeed) * 2 ^ 8 + p.wHR) * 2 ^ 8 + p.wBL) * 2 ^ 8 + p.maxBitLenLog2 := by
    simp only [Params.caps, BitVec.toNat_setWidth, toNat_append_add, BitVec.toNat_ofNat]
    omega
  simp only [BitVec.extractLsb'_toNat, hcaps, Nat.shiftRight_eq_div_pow]
  omega

/-- After power-on there is no filter, no command, nothing stored and nothing reported. -/
theorem inv_powerOn {p : Params} (hp : p.legal = true) : (State.powerOn p).Inv where
  config := hp
  fits := ⟨Nat.two_pow_pos _, Nat.two_pow_pos _, Nat.two_pow_pos _⟩
  filter := fun _ hv => by cases hv
  noFilter := fun _ _ => rfl
  latch := rfl
  interval := fun hb => by cases hb
  storage := ⟨⟨List.Pairwise.nil, by simp [State.powerOn]⟩, Nat.zero_le _⟩
  buffer := ⟨List.Pairwise.nil, by simp [State.powerOn]⟩
  report := fun _ => ⟨Nat.zero_le _, fun _ => rfl⟩
  length := Nat.zero_le _
  faulted := fun hf => by cases hf
  sound := fun _ => rfl

/-- Settles O5: the power-on state of each legal configuration, RC among them. -/
theorem invariantHoldsAtReset : Obligations.InvariantHoldsAtReset := by
  unfold Obligations.InvariantHoldsAtReset
  exact ⟨inv_powerOn (by decide), fun _ hp => inv_powerOn hp⟩

/-- Settles O14: neither way the engine comes to move has an enabled step. -/
theorem engineIdlesUnlessEnabled : Obligations.EngineIdlesUnlessEnabled := by
  unfold Obligations.EngineIdlesUnlessEnabled
  intro s hl hidle
  refine ⟨fun hi => ?_, fun rest hi => ?_⟩
  · rw [step_nil hl hi, engineTurn_idle hidle]
  · rw [step_cons hl hi]
    exact engineTurn_idle hidle

/-- A store to an operand register and a load of the same register return what was stored. -/
theorem run_storeOperand_load {s : State} {o : Nat} {v : Word} {rest : List Input} (hl : s.params.legal = true)
    (ho : regAt o = .arg0 ∨ regAt o = .arg1 ∨ regAt o = .arg2)
    (hi : s.inbox = .store (s.params.regBase + o) 8 v :: .load (s.params.regBase + o) 8 :: rest) :
    Host.Core.run Sys2Proof.core 2 s = .next (State.returnLoad v (State.writeReg (regAt o) v { s with inbox := rest })) := by
  have hoff : o % 8 = 0 ∧ o ≤ 0xF8 := by
    rcases ho with h | h | h <;> simp [offset_of_regAt h, HostReg.offset]
  obtain ⟨ha, hle⟩ := hoff
  have hstore := step_storeRegister hl ha hle hi
  have hload := step_loadRegister (rest := rest)
    (s := State.writeReg (regAt o) v { s with inbox := .load (s.params.regBase + o) 8 :: rest })
    (by simpa using hl) ha hle (by simp)
  refine run_two hstore (hload.trans ?_)
  rcases ho with h | h | h <;> rw [h] <;> rfl

/-- Settles O24: the run of the store and the load, at the offset of each operand register. -/
theorem operandRegistersReadBack : Obligations.OperandRegistersReadBack := by
  unfold Obligations.OperandRegistersReadBack
  intro s v rest hl
  exact ⟨fun hi => run_storeOperand_load hl (.inl rfl) hi, fun hi => run_storeOperand_load hl (.inr (.inl rfl)) hi,
    fun hi => run_storeOperand_load hl (.inr (.inr rfl)) hi⟩

/-- Settles O26: the load of a register is a step, and `readReg` gives its value at each offset. -/
theorem registerReads : Obligations.RegisterReads := by
  unfold Obligations.RegisterReads
  intro s o rest hl ha ho hi
  refine ⟨s.readReg (regAt o), ?_, ?_⟩
  · rw [step_loadRegister hl ha ho hi, State.loadReg_eq]
    simp only [regAt_eq_status]
    rfl
  · refine ⟨?_, ?_, ?_, ?_, ?_, ?_, ?_, ?_, ?_, ?_, fun h => by rw [regAt_reserved h]; rfl⟩ <;> (rintro rfl; rfl)

/-- Settles O27: STATUS and the registers from OUTLEN on are not writable. -/
theorem writesToReadOnlyRegistersAreIgnored : Obligations.WritesToReadOnlyRegistersAreIgnored := by
  unfold Obligations.WritesToReadOnlyRegistersAreIgnored
  intro s o v rest hl ha ho hro hi
  have hw : ¬ (regAt o).Writable := by
    rintro (h | h | h | h) <;> have := offset_of_regAt h (by decide) <;> simp only [HostReg.offset] at this <;> omega
  rw [step_storeRegister hl ha ho hi, State.writeReg_readOnly hw]

/-- The fields of STATUS are below their widths' bounds. -/
theorem State.status_fields_lt (s : State) :
    s.err.toNat < 256 ∧ s.ovr.toNat < 2 ∧ s.fault.toNat < 2 ∧ s.result.toNat < 2 ∧ s.cfg.valid.toNat < 2 ∧
      s.busy.toNat < 2 :=
  ⟨s.err.isLt, s.ovr.toNat_lt, s.fault.toNat_lt, s.result.toNat_lt, s.cfg.valid.toNat_lt, s.busy.toNat_lt⟩

/-- The value of STATUS is the sum of its fields, each at its weight (R27). -/
theorem State.status_toNat (s : State) :
    s.status.toNat = 256 * s.err.toNat + 16 * s.ovr.toNat + 8 * s.fault.toNat + 4 * s.result.toNat +
      2 * s.cfg.valid.toNat + s.busy.toNat := by
  obtain ⟨herr, hovr, hfault, hresult, hvalid, hbusy⟩ := s.status_fields_lt
  simp only [State.status, BitVec.toNat_setWidth, toNat_append_add, BitVec.toNat_ofNat, BitVec.toNat_ofBool]
  omega

/-- A bit whose value is that of a Boolean. -/
theorem getLsbD_eq_of_toNat {w : Nat} {x : BitVec w} {i : Nat} {b : Bool} (h : x.toNat / 2 ^ i % 2 = b.toNat) :
    x.getLsbD i = b := by
  rw [BitVec.getLsbD, Nat.testBit_eq_decide_div_mod_eq, h]
  cases b <;> rfl

/-- Settles O28: the sum of the fields, divided by each weight. -/
theorem statusLayout : Obligations.StatusLayout := by
  unfold Obligations.StatusLayout
  intro s
  have hstatus := s.status_toNat
  obtain ⟨herr, hovr, hfault, hresult, hvalid, hbusy⟩ := s.status_fields_lt
  refine ⟨getLsbD_eq_of_toNat (by omega), getLsbD_eq_of_toNat (by omega), getLsbD_eq_of_toNat (by omega),
    getLsbD_eq_of_toNat (by omega), getLsbD_eq_of_toNat (by omega), BitVec.eq_of_toNat_eq ?_,
    BitVec.eq_of_toNat_eq ?_, BitVec.eq_of_toNat_eq ?_⟩
  all_goals
    simp only [BitVec.extractLsb'_toNat, Nat.shiftRight_eq_div_pow, BitVec.ofNat_eq_ofNat, BitVec.toNat_ofNat]
    omega

end Sys2Proof.Machine
end

section
/-! PROOFS. Who writes what (10_state.md R33): what no command changes, and everything a step can write, each case with
its writer. -/

namespace Sys2Proof.Machine

/-! What no command changes. -/

/-- What a command leaves as it was, one that raises FAULT included; `codec` says that it is SERIALIZE (R28, R29, R33). -/
structure CommandFrame (codec : Prop) (s t : State) : Prop where
  arg0 : t.arg0 = s.arg0
  arg1 : t.arg1 = s.arg1
  arg2 : t.arg2 = s.arg2
  ovr : t.ovr = s.ovr
  params : t.params = s.params
  xferEpoch : t.xferEpoch = s.xferEpoch
  raceOpen : t.raceOpen = s.raceOpen
  inbox : t.inbox = s.inbox
  returned : t.returned = s.returned
  xfer : ¬ codec → t.xfer = s.xfer
  outlen : ¬ codec → t.outlen = s.outlen

theorem CommandFrame.mono {c d : Prop} {s t : State} (h : CommandFrame c s t) (hcd : c → d) : CommandFrame d s t :=
  { h with
    xfer := fun hd => h.xfer (mt hcd hd)
    outlen := fun hd => h.outlen (mt hcd hd) }

/-- What a command leaves as it was, its bytes of XFER are still read. -/
theorem CommandFrame.xferByte {c : Prop} {s t : State} (h : CommandFrame c s t) (hc : ¬ c) (a : Nat) :
    t.xferByte a = s.xferByte a := State.xferByte_congr (h.xfer hc) h.xferEpoch a

theorem fail_frame (e : ErrorCode) (s : State) : CommandFrame False s (s.fail e) := by
  constructor <;> intros <;> rfl

theorem raiseFault_frame (r : FaultReason) (s : State) : CommandFrame False s (s.raiseFault r) := by
  constructor <;> intros <;> rfl

theorem construct_frame (seed : Word) (q : Pending) (s : State) : CommandFrame False s (construct seed q s) := by
  rcases construct_cases seed q s with ⟨e, -, -, h⟩ | ⟨bitLen, k, -, h⟩ <;> rw [h] <;> constructor <;> intros <;> rfl

theorem insertKey_frame (s : State) (q : Pending) : CommandFrame False s (insertKey s q) := by
  rcases insertKey_cases s q with ⟨e, -, -, h⟩ | ⟨-, t, hbits, h⟩ | ⟨-, -, h⟩ <;> rw [h]
  · exact fail_frame e s
  · obtain ⟨-, ht, -⟩ := setBits_some hbits
    rw [ht]
    constructor <;> intros <;> rfl
  · exact raiseFault_frame _ s

theorem queryKey_frame (s : State) (q : Pending) : CommandFrame False s (queryKey s q) := by
  rcases queryKey_cases s q with ⟨e, -, -, h⟩ | ⟨-, r, -, h⟩ | ⟨-, -, h⟩ <;> rw [h]
  · exact fail_frame e s
  · constructor <;> intros <;> rfl
  · exact raiseFault_frame _ s

theorem serializeFilter_frame (s : State) : CommandFrame True s (serializeFilter s) := by
  rcases serializeFilter_cases s with ⟨-, h⟩ | ⟨-, h⟩ <;> rw [h] <;> constructor <;> simp

theorem deserializeFilter_frame (s : State) (q : Pending) : CommandFrame False s (deserializeFilter s q) := by
  rcases deserializeFilter_cases s q with ⟨e, -, h⟩ | ⟨-, -, h⟩ <;> rw [h]
  · exact fail_frame e s
  · constructor <;> intros <;> rfl

/-- No command changes the operand registers or OVR, and only SERIALIZE changes XFER and OUTLEN. -/
theorem commandResult_frame (i : Instr) (s : State) (q : Pending) :
    CommandFrame (i = .serialize) s (commandResult i s q) := by
  cases i with
  | new => exact (construct_frame _ q s).mono False.elim
  | newS => exact (construct_frame _ q s).mono False.elim
  | insert => exact (insertKey_frame s q).mono False.elim
  | exist => exact (queryKey_frame s q).mono False.elim
  | serialize => exact (serializeFilter_frame s).mono fun _ => rfl
  | deserialize => exact (deserializeFilter_frame s q).mono False.elim

/-- Nor does the engine's execution of any pending word. -/
theorem engineEffect_frame (s : State) (q : Pending) :
    CommandFrame (decode q.cmd = .ok .serialize) s (engineEffect s q) := by
  unfold engineEffect
  cases hd : decode q.cmd with
  | ok i => exact (commandResult_frame i s q).mono fun h => by rw [h]
  | error e => exact (fail_frame _ s).mono False.elim

/-- Settles O17: the frame of the command. -/
theorem engineNeverWritesOperandRegisters : Obligations.EngineNeverWritesOperandRegisters := by
  unfold Obligations.EngineNeverWritesOperandRegisters
  intro i s t h
  obtain ⟨q, -, rfl⟩ := exec_next h
  have hf := commandResult_frame i s q
  exact ⟨hf.arg0, hf.arg1, hf.arg2, hf.ovr, hf.params, hf.inbox, hf.returned, hf.raceOpen,
    fun hi => ⟨hf.xfer hi, hf.xferByte hi⟩⟩

/-! Everything a step can write. -/

/-- The step from `s` to `t` was seen by the host alone: its list, the values its loads returned, and outside a command
the interval of R311. -/
structure Observes (s t : State) : Prop where
  eq : t = { s with inbox := t.inbox, returned := t.returned, raceOpen := t.raceOpen }
  interval : s.busy = true → t.raceOpen = s.raceOpen

/-- Everything a step can do, by its writer (R33): the engine's step of a pending command; nothing of the block; a host
store to CMD, to an operand register or to XFER; a reset. -/
inductive StepEffect (s : State) : State → Prop where
  | command {q : Pending} {rest : List Input} (moves : s.engineMoves) (enabled : s.fault = false)
      (latched : s.pend = some q) : StepEffect s (engineEffect { s with inbox := rest } q).retire
  | observe {t : State} (h : Observes s t) : StepEffect s t
  | accept {v : Word} {rest : List Input} (served : s.inbox = .store s.params.regBase 8 v :: rest) :
      StepEffect s (State.acceptCmd v { s with inbox := rest })
  | operand {r : HostReg} {v : Word} {rest : List Input} (hr : r = .arg0 ∨ r = .arg1 ∨ r = .arg2)
      (served : s.inbox = .store (s.params.regBase + r.offset) 8 v :: rest) :
      StepEffect s (State.writeReg r v { s with inbox := rest })
  | buffer {off width : Nat} {v : Word} {rest : List Input}
      (served : s.inbox = .store (s.params.xferBase + off) width v :: rest)
      (inside : off + width ≤ s.params.xferBytes) :
      StepEffect s (State.memWrite { s with inbox := rest } off (leBytes width v.toNat))
  | reset {rest : List Input} (served : s.inbox = .reset :: rest) : StepEffect s (State.resetBlock { s with inbox := rest })

/-- A poll of WAIT is seen by the host alone. -/
theorem hostWait_observes (s : State) : Observes s (hostWait s) := by
  cases hb : s.busy with
  | false =>
    rw [hostWait_idle hb]
    exact ⟨rfl, fun h => by simp [hb] at h⟩
  | true =>
    rw [hostWait_busy hb]
    exact ⟨rfl, fun _ => rfl⟩

/-- A host store to a register is the acceptance of a command, the write of an operand register, or ignored. -/
theorem storeRegister_effect {s : State} {addr width : Nat} {v : Word} {rest : List Input} {r : HostReg}
    (hi : s.inbox = .store addr width v :: rest) (hacc : s.access addr width = .reg r) :
    StepEffect s (State.writeReg r v { s with inbox := rest }) := by
  obtain ⟨rfl, o, rfl, -, -, hr⟩ := of_access_reg hacc
  by_cases hw : r.Writable
  · have ho := offset_of_regAt hr (by rintro rfl; simp [HostReg.Writable] at hw)
    subst ho
    rcases hw with rfl | hw
    · exact .accept hi
    · exact .operand hw hi
  · rw [State.writeReg_readOnly hw]
    exact .observe ⟨rfl, fun _ => rfl⟩

/-- The inversion of a step: whoever writes, and what. -/
theorem step_effect {s t : State} (h : step s = .next t) : StepEffect s t := by
  obtain ⟨-, ⟨u, hu, ht⟩ | ⟨addr, width, rest, v, hi, rfl⟩ | ⟨addr, width, v, rest, r, hi, hacc, rfl⟩ |
    ⟨addr, width, v, rest, a, hi, hacc, rfl⟩ | ⟨rest, hi, rfl⟩ | ⟨rest, hi, rfl⟩ | ⟨rest, hi, rfl⟩⟩ := step_cases h
  · obtain ⟨hm, rest, rfl⟩ : s.engineMoves ∧ ∃ rest, u = { s with inbox := rest } := by
      rcases hu with ⟨hi, rfl⟩ | ⟨rest, hi, rfl⟩
      · exact ⟨.inl hi, u.inbox, rfl⟩
      · exact ⟨.inr (by simp [hi]), rest, rfl⟩
    rcases engineTurn_cases ht with ⟨rfl, -⟩ | ⟨hf, q, hp, -⟩
    · exact .observe ⟨rfl, fun _ => rfl⟩
    · rw [engineTurn_enabled hf hp] at ht
      cases ht
      exact .command hm hf hp
  · exact .observe ⟨rfl, fun hb => by simp [hb]⟩
  · exact storeRegister_effect hi hacc
  · obtain ⟨rfl, hok, -, -⟩ := of_access_xfer hacc
    simp only [xferAccessOk, Bool.and_eq_true, decide_eq_true_eq] at hok
    exact .buffer hi hok.2
  · obtain ⟨heq, hint⟩ := hostWait_observes { s with inbox := rest }
    exact .observe ⟨heq, hint⟩
  · exact .observe ⟨rfl, fun _ => rfl⟩
  · exact .reset hi

/-- The acceptance of a CMD write changes PEND, BUSY, OVR and the interval of R311, and nothing else (R95). -/
theorem State.acceptCmd_frame (v : Word) (s : State) :
    s.acceptCmd v = { s with
      pend := (s.acceptCmd v).pend, busy := (s.acceptCmd v).busy, ovr := (s.acceptCmd v).ovr,
      raceOpen := (s.acceptCmd v).raceOpen } := by
  unfold State.acceptCmd
  split_ifs <;> rfl

/-- Settles O20: the writers of each case of a step. -/
theorem writeAccessIsComplete : Obligations.WriteAccessIsComplete := by
  unfold Obligations.WriteAccessIsComplete
  intro s t h hreset
  cases step_effect h with
  | @command q rest hm hf hp =>
    have hfr := engineEffect_frame { s with inbox := rest } q
    have hw : s.engineMoves ∧ s.fault = false ∧ s.pend ≠ none := ⟨hm, hf, by simp [hp]⟩
    refine ⟨fun h => absurd hfr.arg0 h, fun h => absurd hfr.arg1 h, fun h => absurd hfr.arg2 h,
      fun a ha => .inr ⟨hm, hf, q, hp, ?_⟩, fun _ => hw, fun _ => .inl hw⟩
    by_contra hd
    exact ha (hfr.xferByte hd a)
  | observe ho =>
    rw [ho.eq]
    simp [State.xferByte]
  | @accept v rest hi =>
    rw [State.acceptCmd_frame]
    simp [hi, State.xferByte]
  | operand hr hi => rcases hr with rfl | rfl | rfl <;> simp [hi, State.writeReg, HostReg.offset, State.xferByte]
  | @buffer off width v rest hi =>
    refine ⟨by simp, by simp, by simp, fun a ha => .inl ⟨off, width, v, by simp [hi], ?_⟩, by simp, by simp⟩
    by_contra hout
    refine ha (State.xferByte_memWrite_outside _ ?_)
    rw [leBytes_length]
    omega
  | reset hi => simp [hi] at hreset

/-- OUTLEN is changed by a reset and by the execution of a SERIALIZE alone (R29). -/
theorem step_outlen {s t : State} (h : step s = .next t) (hne : t.outlen ≠ s.outlen) :
    s.inbox.head? = some .reset ∨ (s.engineMoves ∧ ∃ q, s.pend = some q ∧ decode q.cmd = .ok .serialize) := by
  cases step_effect h with
  | @command q rest hm _ hp =>
    refine .inr ⟨hm, q, hp, ?_⟩
    by_contra hd
    exact hne ((engineEffect_frame { s with inbox := rest } q).outlen hd)
  | observe ho => exact absurd (congrArg State.outlen ho.eq) hne
  | accept _ => exact absurd (congrArg State.outlen (State.acceptCmd_frame _ _)) hne
  | operand hr _ => rcases hr with rfl | rfl | rfl <;> exact absurd rfl hne
  | buffer _ _ => exact absurd rfl hne
  | reset hi => exact .inl (by simp [hi])

end Sys2Proof.Machine
end

section
/-! PROOFS. The bounds of a successful sizing (40_sizing.md R125, R132, R140), over the exact reals. -/

namespace Sys2Proof.Machine

/-! Powers of two. -/

/-- A power of two passes the check of R235. -/
theorem isPow2_two_pow (k : Nat) : isPow2 (2 ^ k) = true := by
  simp [isPow2, Nat.and_two_pow_sub_one_eq_mod]

theorem ne_zero_of_isPow2 {n : Nat} (h : isPow2 n = true) : n ≠ 0 := by
  rintro rfl
  simp [isPow2] at h

theorem exists_pow2ceil (m : Nat) : ∃ k, pow2ceil m = 2 ^ k := by
  unfold pow2ceil
  split
  · exact ⟨0, rfl⟩
  · exact ⟨_, rfl⟩

/-- Rounding up to a power of two less than doubles. -/
theorem pow2ceil_lt {m : Nat} (hm : 1 ≤ m) : pow2ceil m < 2 * m := by
  unfold pow2ceil
  split
  · omega
  · have h := Nat.log2_self_le (n := m - 1) (by omega)
    rw [Nat.pow_succ]
    omega

/-- Rounding up to a power of two stays within a power of two. -/
theorem pow2ceil_le_two_pow {m k : Nat} (h : m ≤ 2 ^ k) : pow2ceil m ≤ 2 ^ k := by
  unfold pow2ceil
  split
  · exact Nat.one_le_two_pow
  · exact Nat.pow_le_pow_right (by omega) ((Nat.log2_lt (by omega)).2 (by omega))

/-- The zero clamp does nothing to a power of two (R126). -/
theorem clampZero_pow2ceil (m : Nat) : clampZero (pow2ceil m) = pow2ceil m := by
  obtain ⟨k, hk⟩ := exists_pow2ceil m
  rw [hk, clampZero, if_neg (Nat.two_pow_pos k).ne']

/-! The size. -/

theorem itemCount_pos (nIn : Word) : 1 ≤ itemCount nIn := by
  unfold itemCount
  split
  · exact le_refl 1
  · rename_i h
    have : nIn.toNat ≠ 0 := fun e => h (BitVec.eq_of_toNat_eq (by simpa using e))
    omega

/-- What a sizing that succeeds answers: an admitted `m_raw` within the capacity, rounded up, and an admitted round
count for it (R124, R125, R127). -/
theorem size_ok {c : Params} {draw : Nat} {nIn pBits : Word} {bitLen k : Nat}
    (h : size c draw nIn pBits = .ok (bitLen, k)) :
    ∃ p m, probabilityOf pBits = some p ∧ m = (mRawSpan c (itemCount nIn) p).pick (Config.sizingDraw draw) ∧
      m ≤ c.capBits ∧ bitLen = pow2ceil m ∧
      k = (roundsSpan c (itemCount nIn) bitLen).pick (Config.roundsDraw draw) := by
  unfold size at h
  cases hp : probabilityOf pBits with
  | none => simp [hp] at h
  | some p =>
    simp only [hp, clampZero_pow2ceil] at h
    split at h
    · cases h
    · cases h
      exact ⟨p, _, rfl, rfl, by omega, rfl, rfl⟩

/-- `x ln 2 <= 1074 n`: the least probability is `2^-1074`. -/
theorem idealBits_mul_log_le {p : Probability} (hp : p.scale ≤ 1074) (n : Nat) :
    idealBits n p.toReal * Real.log 2 ≤ 1074 * n := by
  have hL : 0 < Real.log 2 := Real.log_pos (by norm_num)
  have hm : (1 : ℝ) ≤ p.mant := by exact_mod_cast Nat.one_le_iff_ne_zero.2 p.pos
  have hlog : -Real.log p.toReal ≤ 1074 * Real.log 2 := by
    rw [Probability.toReal, Real.log_div (by positivity) (by positivity), Real.log_pow]
    have h1 := Real.log_nonneg hm
    have h2 : (p.scale : ℝ) ≤ 1074 := by exact_mod_cast hp
    nlinarith
  have e : idealBits n p.toReal * Real.log 2 = n * -Real.log p.toReal / Real.log 2 := by
    unfold idealBits
    field_simp
  rw [e, div_le_iff₀ hL]
  have hn : (0 : ℝ) ≤ n := Nat.cast_nonneg n
  nlinarith

/-- An `m_raw` admitted is less than one above the upper end of the tie band. -/
theorem pick_mRawSpan_lt {c : Params} (hc : c.legal = true) {n : Nat} (hn : 1 ≤ n) (p : Probability) (d : Nat) :
    1 ≤ (mRawSpan c n p).pick d ∧ ((mRawSpan c n p).pick d : ℝ) < idealBits n p.toReal * (1 + c.band) + 1 := by
  obtain ⟨hlo, hle⟩ := mRawSpan_le hc hn p
  obtain ⟨h1, h2⟩ := Span.pick_mem hle d
  refine ⟨hlo.trans h1, ?_⟩
  rw [(mRawSpan_ends hc n p).2] at h2
  have hx := idealBits_pos hn p
  obtain ⟨hb, -⟩ := band_mem hc
  exact lt_of_le_of_lt (by exact_mod_cast h2) (Nat.ceil_lt_add_one (by positivity))

/-- For the power of two above an admitted `m_raw`, `t` rounds to at most 2149, even at the upper end of the tie band
(R140). -/
theorem idealRounds_lt {c : Params} (hc : c.legal = true) {n m : Nat} (hn : 1 ≤ n) {p : Probability}
    (hp : p.scale ≤ 1074) (hm1 : 1 ≤ m) (hm : (m : ℝ) < idealBits n p.toReal * (1 + c.band) + 1) :
    idealRounds n (pow2ceil m) * (1 + c.band) + 1 / 2 < 2150 := by
  obtain ⟨hb0, hb1⟩ := band_mem hc
  have hband : c.band ≤ 1 / 1000000 := hb1.trans (by norm_num)
  have hn' : (1 : ℝ) ≤ n := by exact_mod_cast hn
  have hL := Real.log_two_lt_d9
  have hL0 : 0 < Real.log 2 := Real.log_pos (by norm_num)
  have hbits : (pow2ceil m : ℝ) ≤ 2 * (idealBits n p.toReal * (1 + c.band)) + 1 := by
    have : (pow2ceil m : ℝ) + 1 ≤ 2 * m := by exact_mod_cast pow2ceil_lt hm1
    linarith
  have hx := idealBits_mul_log_le hp n
  have ht : idealRounds n (pow2ceil m) ≤ 2148 * (1 + c.band) + 1 := by
    rw [idealRounds, div_mul_eq_mul_div, div_le_iff₀ (by linarith)]
    nlinarith
  nlinarith

/-- The bounds of a successful sizing: `bitLength` a power of two within the capacity, `hashRounds` from 1 to 2149
(R132, R140). -/
theorem size_bounds {c : Params} (hc : c.legal = true) {draw : Nat} {nIn pBits : Word} {bitLen k : Nat}
    (h : size c draw nIn pBits = .ok (bitLen, k)) :
    isPow2 bitLen = true ∧ bitLen ≤ c.capBits ∧ 1 ≤ k ∧ k ≤ 2149 := by
  obtain ⟨p, m, hp, hm, hcap, rfl, rfl⟩ := size_ok h
  have hn := itemCount_pos nIn
  obtain ⟨hm1, hmx⟩ := pick_mRawSpan_lt hc hn p (Config.sizingDraw draw)
  rw [← hm] at hm1 hmx
  obtain ⟨hlo, hle⟩ := roundsSpan_le hc (itemCount nIn) (pow2ceil m)
  obtain ⟨h1, h2⟩ := Span.pick_mem hle (Config.roundsDraw draw)
  obtain ⟨e, he⟩ := exists_pow2ceil m
  refine ⟨by rw [he]; exact isPow2_two_pow e, pow2ceil_le_two_pow hcap, hlo.trans h1, h2.trans ?_⟩
  rw [(roundsSpan_ends hc _ _).2]
  refine max_le (by norm_num) (Nat.lt_succ_iff.1 ((Nat.floor_lt' (by norm_num)).2 ?_))
  exact_mod_cast idealRounds_lt hc hn (probabilityOf_scale hp) hm1 hmx

end Sys2Proof.Machine
end

section
/-! PROOFS. Every step keeps the invariant (10_state.md R21, R22, R27, R29, R30, R34, R35): one lemma per operation of the
state, then one per command, then the step. -/

namespace Sys2Proof.Machine

/-! What the invariant gives. -/

/-- A filter's indices are all within it (R156, R278). -/
theorem State.Inv.indicesOf_lt {s : State} (h : s.Inv) (hf : s.fault = false) (hv : s.cfg.valid = true)
    (key : List Byte) : ∀ w ∈ s.indicesOf key, w.toNat < s.cfg.bitLen.toNat := by
  obtain ⟨⟨hpow, -, -⟩, -⟩ := h.filter hf hv
  have hb : s.cfg.bitLen ≠ 0 := fun e => ne_zero_of_isPow2 hpow (by rw [e]; rfl)
  intro w hw
  obtain ⟨i, -, -, rfl⟩ := mem_indicesFrom.1 hw
  exact hashIndex_lt hb _ i

/-- Everything INSERT can do in a state of the invariant: it never violates the contract of SetBit. -/
theorem State.Inv.insertKey_cases {s : State} (h : s.Inv) (hf : s.fault = false) (q : Pending) :
    (∃ e, e ≠ .ok ∧ insertKey s q = s.fail e) ∨
    (s.cfg.valid = true ∧ ∃ t, setBits (s.indicesOf (s.operandBytes q.a0)) s = some t ∧
      insertKey s q = t.report .ok false) := by
  rcases Machine.insertKey_cases s q with ⟨e, he, -, hr⟩ | ⟨hk, ht⟩ | ⟨hk, hnone, -⟩
  · exact .inl ⟨e, he, hr⟩
  · exact .inr ⟨(keyError_none.1 hk).1, ht⟩
  · obtain ⟨t, ht⟩ := setBits_isSome (h.indicesOf_lt hf (keyError_none.1 hk).1 (s.operandBytes q.a0))
    rw [hnone] at ht
    cases ht

/-- Everything EXIST can do in a state of the invariant: it never violates the contract of TestBit. -/
theorem State.Inv.queryKey_cases {s : State} (h : s.Inv) (hf : s.fault = false) (q : Pending) :
    (∃ e, e ≠ .ok ∧ queryKey s q = s.fail e) ∨ (s.cfg.valid = true ∧ ∃ r, queryKey s q = s.report .ok r) := by
  rcases Machine.queryKey_cases s q with ⟨e, he, -, hr⟩ | ⟨hk, r, -, hr⟩ | ⟨hk, hnone, -⟩
  · exact .inl ⟨e, he, hr⟩
  · exact .inr ⟨(keyError_none.1 hk).1, r, hr⟩
  · rw [allBitsSet_eq (h.indicesOf_lt hf (keyError_none.1 hk).1 (s.operandBytes q.a0))] at hnone
    cases hnone

/-- A filter's image fits the transfer buffer (R7, R64). -/
theorem State.Inv.image_length_le {s : State} (h : s.Inv) (hf : s.fault = false) (hv : s.cfg.valid = true) :
    s.image.length ≤ s.params.xferBytes := by
  obtain ⟨⟨-, hcap, -⟩, -⟩ := h.filter hf hv
  obtain ⟨-, -, -, -, -, hbuf, -⟩ := Params.legal_spec h.config
  have hwc := wordCount_le_capWords h.config hcap
  rw [State.image_length h.config, Params.imageLen]
  omega

/-- The length of a filter's image as OUTLEN shows it (R29). -/
theorem State.Inv.image_length_toNat {s : State} (h : s.Inv) (hf : s.fault = false) (hv : s.cfg.valid = true) :
    (BitVec.ofNat 64 s.image.length).toNat = s.image.length := by
  have hlen := h.image_length_le hf hv
  obtain ⟨-, -, -, -, -, -, hX⟩ := Params.legal_spec h.config
  rw [BitVec.toNat_ofNat]
  omega

/-! The operations of the state. -/

theorem inv_inbox {s : State} (h : s.Inv) (is : List Input) : State.Inv { s with inbox := is } := { h with }

theorem inv_report {s : State} (h : s.Inv) {e : ErrorCode} {r : Bool} (hr : r = true → e = .ok) :
    (s.report e r).Inv :=
  { h with report := fun _ => ⟨ErrorCode.code_le e, fun ht => ErrorCode.code_eq_zero.2 (hr ht)⟩ }

theorem inv_fail {s : State} (h : s.Inv) (e : ErrorCode) : (s.fail e).Inv := inv_report h (by simp)

theorem inv_tick {s : State} (h : s.Inv) : s.tick.Inv := { h with }

theorem inv_outlen {s : State} (h : s.Inv) {n : Word} (hn : n.toNat ≤ s.params.xferBytes) :
    State.Inv { s with outlen := n } :=
  { h with length := hn }

theorem inv_memWrite {s : State} (h : s.Inv) {a : Nat} {bs : List Byte} (hin : a + bs.length ≤ s.params.xferBytes) :
    (s.memWrite a bs).Inv :=
  { h with
    buffer := by
      obtain ⟨hwf, hbound⟩ := h.buffer
      exact ⟨Memory.wf_memWrite hwf a bs, Memory.bounded_memWrite hbound hin⟩ }

/-- A storage of the same written part, in its form, may take the place of the other. -/
theorem inv_storage {s : State} (h : s.Inv) {b : BitStore} (hwf : b.wf) (hc : b.cleared = s.bv.cleared) :
    State.Inv { s with bv := b } :=
  { h with
    filter := fun hf hv => by simpa only [hc] using h.filter hf hv
    storage := ⟨hwf, by simpa only [hc] using h.storage.2⟩ }

/-- A value below `2^w` is held in a 64-bit register as it is. -/
theorem toNat_ofNat_of_lt_width {w n : Nat} (hw : w ≤ 64) (hn : n < 2 ^ w) : (BitVec.ofNat 64 n).toNat = n := by
  rw [BitVec.toNat_ofNat, Nat.mod_eq_of_lt (lt_of_lt_of_le hn (Nat.pow_le_pow_right (by omega) hw))]

/-- A legal filter may be installed with a storage whose written part covers it. -/
theorem inv_install {s : State} (h : s.Inv) {bl k : Nat} {seed : Word} {b : BitStore} (hpow : isPow2 bl = true)
    (hcap : bl ≤ s.params.capBits) (hk1 : 1 ≤ k) (hk : k < 2 ^ s.params.wHR) (hseed : seed.toNat < 2 ^ s.params.wSeed)
    (hwf : b.wf) (hc : b.cleared = max s.bv.cleared (wordCount bl)) :
    (s.install ⟨true, BitVec.ofNat 64 bl, BitVec.ofNat 64 k, seed⟩ b).Inv := by
  obtain ⟨hBL, hHR, -⟩ := Params.legal_spec h.config
  have hblw : bl < 2 ^ s.params.wBL := lt_of_le_of_lt hcap (Params.capBits_lt h.config)
  have hbl := toNat_ofNat_of_lt_width (by omega) hblw
  have hkn := toNat_ofNat_of_lt_width (by omega) hk
  have hwc := wordCount_le_capWords h.config hcap
  obtain ⟨-, hcw⟩ := h.storage
  exact { h with
    fits := ⟨by simpa only [State.install, hbl] using hblw, by simpa only [State.install, hkn] using hk, hseed⟩
    filter := fun _ _ => by
      simp only [State.install, FilterCfg.Legal, hbl, hkn, hc]
      exact ⟨⟨hpow, hcap, hk1⟩, le_max_right _ _⟩
    noFilter := fun _ hv => by cases hv
    storage := ⟨hwf, by simpa only [State.install, hc] using max_le hcw hwc⟩ }

theorem inv_retire {s : State} (h : s.Inv) : s.retire.Inv :=
  { h with
    latch := rfl
    interval := fun hb => by cases hb
    faulted := fun hf => ⟨rfl, (h.faulted hf).2⟩ }

theorem inv_resetBlock {s : State} (h : s.Inv) : s.resetBlock.Inv := { inv_powerOn h.config with }

theorem inv_acceptCmd {s : State} (h : s.Inv) (v : Word) : (s.acceptCmd v).Inv := by
  unfold State.acceptCmd
  split_ifs with hf
  · exact h
  · exact { h with }
  · exact { h with
      latch := rfl
      interval := fun _ => rfl
      faulted := fun hf' => absurd hf' hf }

theorem inv_writeOperand {s : State} (h : s.Inv) {r : HostReg} (hr : r = .arg0 ∨ r = .arg1 ∨ r = .arg2) (v : Word) :
    (s.writeReg r v).Inv := by
  rcases hr with rfl | rfl | rfl <;> exact { h with }

theorem inv_observes {s t : State} (h : s.Inv) (ho : Observes s t) : t.Inv := by
  rw [ho.eq]
  exact { h with interval := fun hb => (ho.interval hb).trans (h.interval hb) }

/-! The commands. -/

theorem inv_construct {s : State} (h : s.Inv) {seed : Word} (hseed : seed.toNat < 2 ^ s.params.wSeed) (q : Pending) :
    (construct seed q s).Inv := by
  rcases construct_cases seed q s with ⟨e, -, -, hr⟩ | ⟨bitLen, k, hsize, hr⟩ <;> rw [hr]
  · exact inv_fail (inv_tick h) e
  · obtain ⟨hpow, hcap, hk1, hk⟩ := size_bounds h.config hsize
    obtain ⟨-, hHR, -⟩ := Params.legal_spec h.config
    have hkw : k < 2 ^ s.params.wHR :=
      lt_of_lt_of_le (by omega) (Nat.pow_le_pow_right (n := 2) (by omega) (show 16 ≤ s.params.wHR by omega))
    exact inv_report (inv_install (inv_tick h) hpow hcap hk1 hkw hseed (BitStore.wf_clear h.storage.1 _) rfl) (by simp)

theorem inv_insertKey {s : State} (h : s.Inv) (hf : s.fault = false) (q : Pending) : (insertKey s q).Inv := by
  rcases h.insertKey_cases hf q with ⟨e, -, hr⟩ | ⟨hv, t, hbits, hr⟩ <;> rw [hr]
  · exact inv_fail h e
  · obtain ⟨-, ht, hc, -, hcover⟩ := setBits_some hbits
    obtain ⟨hwf, -⟩ := hcover (h.filter hf hv).2
    rw [ht]
    exact inv_report (inv_storage h (hwf h.storage.1) hc) (by simp)

theorem inv_queryKey {s : State} (h : s.Inv) (hf : s.fault = false) (q : Pending) : (queryKey s q).Inv := by
  rcases h.queryKey_cases hf q with ⟨e, -, hr⟩ | ⟨-, r, hr⟩ <;> rw [hr]
  · exact inv_fail h e
  · exact inv_report h fun _ => rfl

theorem inv_serializeFilter {s : State} (h : s.Inv) (hf : s.fault = false) : (serializeFilter s).Inv := by
  rcases serializeFilter_cases s with ⟨-, hr⟩ | ⟨hv, hr⟩ <;> rw [hr]
  · exact inv_fail (inv_outlen h (Nat.zero_le _)) _
  · have hlen := h.image_length_le hf hv
    have hout := (h.image_length_toNat hf hv).le.trans hlen
    exact inv_report (inv_outlen (inv_memWrite h (by omega)) hout) (by simp)

/-- What the checks of DESERIALIZE let through (R233, R272). -/
theorem imageError_none {p : Params} {len : Nat} {img : List Byte} (h : imageError p len img = none) :
    isPow2 (headerOf p img).bitLen = true ∧ 1 ≤ (headerOf p img).hRounds ∧ (headerOf p img).bitLen ≤ p.capBits ∧
    len = p.imageLen (headerOf p img).bitLen := by
  unfold imageError at h
  split_ifs at h with h1 h2 h3 h4 h5 h6
  exact ⟨by simpa using h2, by omega, by omega, by omega⟩

theorem fromLE_take_lt (n : Nat) (bs : List Byte) : fromLE (bs.take n) < 2 ^ (8 * n) :=
  lt_of_lt_of_le (fromLE_lt _)
    (Nat.pow_le_pow_right (by omega) (Nat.mul_le_mul_left 8 (List.length_take_le n bs)))

/-- The round count and the seed of a header fit their fields (R100). -/
theorem headerOf_lt {p : Params} (hp : p.legal = true) (img : List Byte) :
    (headerOf p img).hRounds < 2 ^ p.wHR ∧ (headerOf p img).seed < 2 ^ p.wSeed := by
  obtain ⟨-, hHR, hSeed, -⟩ := Params.legal_spec hp
  have h1 := fromLE_take_lt (p.wHR / 8) (img.drop (p.wBL / 8))
  have h2 := fromLE_take_lt (p.wSeed / 8) (img.drop ((p.wBL + p.wHR) / 8))
  rw [Nat.mul_div_cancel' (by omega)] at h1 h2
  exact ⟨h1, h2⟩

theorem inv_deserializeFilter {s : State} (h : s.Inv) (q : Pending) : (deserializeFilter s q).Inv := by
  rcases deserializeFilter_cases s q with ⟨e, -, hr⟩ | ⟨-, hnone, hr⟩ <;> rw [hr]
  · exact inv_fail h e
  · obtain ⟨hpow, hk1, hcap, -⟩ := imageError_none hnone
    obtain ⟨hk, hseed⟩ := headerOf_lt h.config (s.operandBytes q.a0)
    obtain ⟨-, -, hSeed, -⟩ := Params.legal_spec h.config
    refine inv_report (inv_install h hpow hcap hk1 hk ?_ (BitStore.wf_load h.storage.1 _) ?_) (by simp)
    · rwa [toNat_ofNat_of_lt_width (by omega) hseed]
    · rw [BitStore.load_cleared, wordsFrom_length]

theorem inv_commandResult {s : State} (h : s.Inv) (hf : s.fault = false) (i : Instr) (q : Pending) :
    (commandResult i s q).Inv := by
  cases i with
  | new => exact inv_construct h (truncTo_toNat_lt _ _) q
  | newS => exact inv_construct h (truncTo_toNat_lt _ _) q
  | insert => exact inv_insertKey h hf q
  | exist => exact inv_queryKey h hf q
  | serialize => exact inv_serializeFilter h hf
  | deserialize => exact inv_deserializeFilter h q

theorem inv_engineEffect {s : State} (h : s.Inv) (hf : s.fault = false) (q : Pending) : (engineEffect s q).Inv := by
  unfold engineEffect
  cases decode q.cmd with
  | ok i => exact inv_commandResult h hf i q
  | error e => exact inv_fail h _

/-- Settles O6: whatever the step writes, the invariant is kept. -/
theorem stepKeepsTheInvariant : Obligations.StepKeepsTheInvariant := by
  unfold Obligations.StepKeepsTheInvariant
  intro s t h hstep
  cases step_effect hstep with
  | @command q rest _ hf _ => exact inv_retire (inv_engineEffect (inv_inbox h rest) hf q)
  | observe ho => exact inv_observes h ho
  | accept _ => exact inv_acceptCmd (inv_inbox h _) _
  | operand hr _ => exact inv_writeOperand (inv_inbox h _) hr _
  | buffer _ hin => exact inv_memWrite (inv_inbox h _) (by rw [leBytes_length]; exact hin)
  | reset _ => exact inv_resetBlock (inv_inbox h _)

/-- Settles O18: OUTLEN has no other writer, and each outcome of SERIALIZE writes it. -/
theorem outlenIsWrittenOnlyBySerialize : Obligations.OutlenIsWrittenOnlyBySerialize := by
  unfold Obligations.OutlenIsWrittenOnlyBySerialize
  refine ⟨fun s t h hne => step_outlen h hne, fun s t h hinv hf => ?_⟩
  obtain ⟨q, -, rfl⟩ := exec_next h
  rcases serializeFilter_cases s with ⟨-, hr⟩ | ⟨hv, hr⟩ <;> rw [commandResult, hr]
  · exact ⟨fun he => absurd he (by simp [ErrorCode.code]), fun _ => rfl⟩
  · exact ⟨fun _ => (hinv.image_length_toNat hf hv).trans (State.image_length hinv.config), fun he => absurd rfl he⟩

end Sys2Proof.Machine
end

section
/-! PROOFS. The filter is replaced whole (10_state.md R21, 70_reset_and_hazards.md R302): what a command that installs one
leaves in its words, and which steps change CFG and the storage at all. -/

namespace Sys2Proof.Machine

/-! The words of an image. -/

/-- The `j`-th word of a word string is its `j`-th group of 8 bytes (R100). -/
theorem wordsFrom_getD {n j : Nat} (hj : j < n) (bs : List Byte) :
    (wordsFrom n bs).getD j 0 = BitVec.ofNat 64 (fromLE ((bs.drop (8 * j)).take 8)) := by
  induction n generalizing j bs with
  | zero => omega
  | succ n ih =>
    cases j with
    | zero => rfl
    | succ j =>
      have hdrop : (bs.drop 8).drop (8 * j) = bs.drop (8 * (j + 1)) := by rw [List.drop_drop]; congr 1; omega
      rw [wordsFrom, List.getD_cons_succ, ih (by omega), hdrop]

/-- A part of the bytes read is what a read of that part gives. -/
theorem State.memRead_drop_take (s : State) {a n d k : Nat} (h : d + k ≤ n) :
    ((s.memRead a n).drop d).take k = s.memRead (a + d) k := by
  refine List.ext_getElem (by simp; omega) fun i h1 h2 => ?_
  simp [State.memRead, Nat.add_assoc]

/-! The commands that install a filter. -/

/-- A command that installs a filter with the words `word`, or fails and keeps the old one (R142, R143, R238, R239). -/
inductive InstallsOrFails (word : Nat → Word) (s t : State) : Prop where
  | failed (code : t.err ≠ ErrorCode.ok.code) (cfg : t.cfg = s.cfg) (bv : t.bv = s.bv)
  | installed (code : t.err = ErrorCode.ok.code) (valid : t.cfg.valid = true)
      (words : ∀ j < wordCount t.cfg.bitLen.toNat, t.bv.word j = word j)

theorem ErrorCode.code_ne_ok {e : ErrorCode} (h : e ≠ .ok) : e.code ≠ ErrorCode.ok.code :=
  mt ErrorCode.code_eq_zero.1 h

/-- NEW and NEW.S install a filter of words 0. -/
theorem construct_installs {s : State} (hl : s.params.legal = true) (seed : Word) (q : Pending) :
    InstallsOrFails (fun _ => 0) s (construct seed q s) := by
  rcases construct_cases seed q s with ⟨e, he, -, hr⟩ | ⟨bitLen, k, hsize, hr⟩ <;> rw [hr]
  · exact .failed (ErrorCode.code_ne_ok he) rfl rfl
  · obtain ⟨-, hcap, -, -⟩ := size_bounds hl hsize
    have hbl : (BitVec.ofNat 64 bitLen).toNat = bitLen :=
      toNat_ofNat_of_lt_width (w := 64) le_rfl (by have := Params.capBits_le hl; omega)
    refine .installed rfl rfl fun j hj => ?_
    simp only [State.report_cfg, State.install_cfg, hbl] at hj
    simp only [State.report_bv, State.install_bv, BitStore.word_clear, if_pos hj]

/-- DESERIALIZE installs a filter of the image's words. -/
theorem deserializeFilter_installs {s : State} (hl : s.params.legal = true) (q : Pending) :
    InstallsOrFails (fun j => BitVec.ofNat 64 (fromLE (s.memRead (s.params.hdr + 8 * j) 8))) s
      (deserializeFilter s q) := by
  rcases deserializeFilter_cases s q with ⟨e, he, hr⟩ | ⟨-, hnone, hr⟩ <;> rw [hr]
  · exact .failed (ErrorCode.code_ne_ok he) rfl rfl
  · obtain ⟨-, -, hcap, hlen⟩ := imageError_none hnone
    have hbl := toNat_ofNat_of_lt_width (w := 64) le_rfl
      (show (headerOf s.params (s.operandBytes q.a0)).bitLen < 2 ^ 64 by have := Params.capBits_le hl; omega)
    refine .installed rfl rfl fun j hj => ?_
    simp only [State.report_cfg, loadImage, State.install_cfg, hbl] at hj
    rw [Params.imageLen] at hlen
    have hgroup : (((s.operandBytes q.a0).drop s.params.hdr).drop (8 * j)).take 8 =
        s.memRead (s.params.hdr + 8 * j) 8 := by
      rw [List.drop_drop, State.operandBytes, State.memRead_drop_take _ (by omega), Nat.zero_add]
    simp only [State.report_bv, loadImage, State.install_bv, BitStore.word_load, wordsFrom_length, if_pos hj,
      wordsFrom_getD hj, hgroup]

/-! The steps that change the filter. -/

/-- The words whose commands install a filter. -/
def Pending.Installs (q : Pending) : Prop :=
  decode q.cmd = .ok .new ∨ decode q.cmd = .ok .newS ∨ decode q.cmd = .ok .deserialize

/-- The filter after a command that may install one. -/
theorem InstallsOrFails.filter {word : Nat → Word} {s t : State} {q : Pending} (h : InstallsOrFails word s t)
    (hq : q.Installs) :
    (q.Installs ∧ t.err = ErrorCode.ok.code ∧ t.cfg.valid = true) ∨
    (t.cfg = s.cfg ∧ (t.bv = s.bv ∨ decode q.cmd = .ok .insert)) := by
  cases h with
  | failed _ hcfg hbv => exact .inr ⟨hcfg, .inl hbv⟩
  | installed hcode hvalid _ => exact .inl ⟨hq, hcode, hvalid⟩

/-- Everything the engine does to the filter in a state of the invariant: one is installed, its bits are set, or it
stays. -/
theorem engineEffect_filter {s : State} (h : s.Inv) (hf : s.fault = false) (q : Pending) :
    (q.Installs ∧ (engineEffect s q).err = ErrorCode.ok.code ∧ (engineEffect s q).cfg.valid = true) ∨
    ((engineEffect s q).cfg = s.cfg ∧ ((engineEffect s q).bv = s.bv ∨ decode q.cmd = .ok .insert)) := by
  cases hd : decode q.cmd with
  | error e => exact .inr (by simp [engineEffect, hd])
  | ok i =>
    rw [engineEffect_ok hd, ← hd]
    cases i with
    | new => exact (construct_installs h.config _ q).filter (.inl hd)
    | newS => exact (construct_installs h.config _ q).filter (.inr (.inl hd))
    | deserialize => exact (deserializeFilter_installs h.config q).filter (.inr (.inr hd))
    | insert =>
      right
      rcases h.insertKey_cases hf q with ⟨e, -, hr⟩ | ⟨-, t, hbits, hr⟩ <;> rw [commandResult, hr]
      · exact ⟨rfl, .inr hd⟩
      · obtain ⟨-, ht, -⟩ := setBits_some hbits
        rw [ht]
        exact ⟨rfl, .inr hd⟩
    | exist =>
      right
      rcases h.queryKey_cases hf q with ⟨e, -, hr⟩ | ⟨-, r, hr⟩ <;> rw [commandResult, hr] <;> exact ⟨rfl, .inl rfl⟩
    | serialize =>
      right
      rcases serializeFilter_cases s with ⟨-, hr⟩ | ⟨-, hr⟩ <;> rw [commandResult, hr] <;> exact ⟨rfl, .inl rfl⟩

/-- Everything a step does to the filter: its lifetime ends at a reset or with a new filter, an INSERT sets bits, or it
stays. -/
theorem step_filter {s t : State} (h : s.Inv) (hf : s.fault = false) (hstep : step s = .next t) :
    (EndsLifetime s t ∧ (s.inbox.head? = some .reset ∨ t.cfg.valid = true)) ∨
    (t.cfg = s.cfg ∧ (t.bv = s.bv ∨ s.engineMoves ∧ ∃ q, s.pend = some q ∧ decode q.cmd = .ok .insert)) := by
  cases step_effect hstep with
  | @command q rest hm _ hp =>
    rcases engineEffect_filter (inv_inbox h rest) hf q with ⟨hq, hcode, hvalid⟩ | ⟨hcfg, hbv⟩
    · exact .inl ⟨.inr ⟨hm, hf, hcode, q, hp, hq⟩, .inr hvalid⟩
    · exact .inr ⟨hcfg, hbv.imp_right fun hd => ⟨hm, q, hp, hd⟩⟩
  | observe ho =>
    rw [ho.eq]
    exact .inr ⟨rfl, .inl rfl⟩
  | accept _ =>
    rw [State.acceptCmd_frame]
    exact .inr ⟨rfl, .inl rfl⟩
  | operand hr _ => rcases hr with rfl | rfl | rfl <;> exact .inr ⟨rfl, .inl rfl⟩
  | buffer _ _ => exact .inr ⟨rfl, .inl rfl⟩
  | reset hi =>
    have hhead : s.inbox.head? = some .reset := by simp [hi]
    exact .inl ⟨.inl hhead, .inl hhead⟩

/-- A reset at the head of the list is served. -/
theorem step_reset {s : State} (hl : s.params.legal = true) (hi : s.inbox.head? = some .reset) :
    ∃ rest, step s = .next (State.resetBlock { s with inbox := rest }) := by
  obtain ⟨rest, hi⟩ := List.head?_eq_some_iff.1 hi
  exact ⟨rest, step_cons hl hi⟩

/-- The filter that a successful NEW, NEW.S or DESERIALIZE leaves, whole. -/
theorem installed_filter {s : State} {q : Pending} (hl : s.params.legal = true) (hq : q.Installs)
    (hcode : (engineEffect s q).err = ErrorCode.ok.code) :
    (engineEffect s q).cfg.valid = true ∧
    (decode q.cmd = .ok .new ∨ decode q.cmd = .ok .newS →
      ∀ j < wordCount (engineEffect s q).cfg.bitLen.toNat, (engineEffect s q).bv.word j = 0) ∧
    (decode q.cmd = .ok .deserialize → ∀ j < wordCount (engineEffect s q).cfg.bitLen.toNat,
      (engineEffect s q).bv.word j = BitVec.ofNat 64 (fromLE (s.memRead (s.params.hdr + 8 * j) 8))) := by
  rcases hq with hd | hd | hd <;> rw [engineEffect_ok hd] at hcode ⊢ <;> rw [hd]
  · cases construct_installs hl (seedDraw s.params s.draws) q with
    | failed hne _ _ => exact absurd hcode hne
    | installed _ hvalid hwords => exact ⟨hvalid, fun _ => hwords, fun h => by cases h⟩
  · cases construct_installs hl (seedOperand s.params q) q with
    | failed hne _ _ => exact absurd hcode hne
    | installed _ hvalid hwords => exact ⟨hvalid, fun _ => hwords, fun h => by cases h⟩
  · cases deserializeFilter_installs hl q with
    | failed hne _ _ => exact absurd hcode hne
    | installed _ hvalid hwords => exact ⟨hvalid, by simp, fun _ => hwords⟩

/-- Settles O60: the cases of a step on the filter, and what a reset or an installing command leaves. -/
theorem filterIsReplacedWhole : Obligations.FilterIsReplacedWhole := by
  unfold Obligations.FilterIsReplacedWhole
  intro s t h hf hstep
  refine ⟨fun hne => ?_, fun hv hv' => ?_, fun ⟨j, hj⟩ => ?_, fun hi => ?_, fun hend hi => ?_⟩
  · rcases step_filter h hf hstep with ⟨hend, -⟩ | ⟨hcfg, -⟩
    · exact hend
    · exact absurd hcfg hne
  · rcases step_filter h hf hstep with ⟨-, hi | hvalid⟩ | ⟨hcfg, -⟩
    · exact hi
    · simp [hvalid] at hv'
    · simp [hcfg, hv] at hv'
  · rcases step_filter h hf hstep with ⟨hend, -⟩ | ⟨-, hbv | hinsert⟩
    · exact .inl hend
    · exact absurd (by rw [hbv]) hj
    · exact .inr hinsert
  · obtain ⟨rest, hr⟩ := step_reset h.config hi
    cases hr.symm.trans hstep
    exact ⟨rfl, fun _ => rfl⟩
  · rcases hend with hi' | ⟨hm, -, hcode, q, hp, hq⟩
    · exact absurd hi' hi
    · obtain ⟨rest, hr⟩ := step_engineMoves h.config hm
      have henabled : engineTurn { s with inbox := rest } = .next (engineEffect { s with inbox := rest } q).retire :=
        engineTurn_enabled hf hp
      cases (hr.trans henabled).symm.trans hstep
      obtain ⟨hvalid, hwords⟩ := installed_filter (s := { s with inbox := rest }) h.config hq hcode
      exact ⟨hvalid, q, hp, hwords⟩

end Sys2Proof.Machine
end

section
/-! PROOFS. The host's accesses by their address (20_memory.md R60 to R67, 60_exceptions.md R280): which are defined,
what a defined one to XFER does, and the interval in which it is a race (70_reset_and_hazards.md R311). -/

namespace Sys2Proof.Machine

/-! Where an address leads. -/

theorem route_register (p : Params) {o : Nat} (ho : o < 256) : route p (p.regBase + o) = some (.reg o) := by
  rw [route, if_pos (by omega), Nat.add_sub_cancel_left]

theorem route_xfer {p : Params} {a : Nat} (hw : p.windowsApart) (ha : a < p.xferBytes) :
    route p (p.xferBase + a) = some (.xfer a) := by
  have hreg : ¬ (p.regBase ≤ p.xferBase + a ∧ p.xferBase + a < p.regBase + 256) := by
    rcases hw with h | h <;> omega
  rw [route, if_neg hreg, if_pos (by omega), Nat.add_sub_cancel_left]

theorem route_outside {p : Params} {addr : Nat} (hr : addr < p.regBase ∨ p.regBase + 256 ≤ addr)
    (hx : addr < p.xferBase ∨ p.xferBase + p.xferBytes ≤ addr) : route p addr = none := by
  rw [route, if_neg (by omega), if_neg (by omega)]

/-! What an access is. -/

/-- An aligned offset of the register window is at most 0xF8 (R61). -/
theorem regAccessOk_iff {o width : Nat} (ho : o < 256) : regAccessOk o width = true ↔ width = 8 ∧ o % 8 = 0 := by
  simp only [regAccessOk, Bool.and_eq_true, beq_iff_eq, decide_eq_true_eq]
  omega

theorem xferAccessOk_iff {p : Params} {a width : Nat} :
    xferAccessOk p a width = true ↔ width ∈ [1, 2, 4, 8] ∧ a % width = 0 ∧ a + width ≤ p.xferBytes := by
  simp only [xferAccessOk, Bool.and_eq_true, List.contains_iff_mem, beq_iff_eq, decide_eq_true_eq, and_assoc]

/-- A width of R62 is between one byte and a word. -/
theorem width_bounds {width : Nat} (h : width ∈ [1, 2, 4, 8]) : 1 ≤ width ∧ width ≤ 8 := by
  simp only [List.mem_cons, List.not_mem_nil, or_false] at h
  omega

/-- A register access of another width or alignment is a bus error (R61, R280). -/
theorem access_register_undefined {s : State} {o width : Nat} (ho : o < 256) (h : ¬ (width = 8 ∧ o % 8 = 0)) :
    s.access (s.params.regBase + o) width = .fault .hostBusError := by
  simp [State.access, route_register s.params ho, mt (regAccessOk_iff ho).1 h]

/-- An undefined access to XFER is a bus error, within the interval of a race too (R62, R280, log entry 11). -/
theorem access_xfer_undefined {s : State} {a width : Nat} (hw : s.params.windowsApart) (ha : a < s.params.xferBytes)
    (h : ¬ xferAccessOk s.params a width = true) : s.access (s.params.xferBase + a) width = .fault .hostBusError := by
  simp [State.access, route_xfer hw ha, h]

/-- A defined access to XFER is a race within the interval of R311, and the buffer's outside it (R62, R63). -/
theorem access_xfer_defined {s : State} {a width : Nat} (hw : s.params.windowsApart)
    (h : xferAccessOk s.params a width = true) :
    s.access (s.params.xferBase + a) width = if s.racing then .fault .hostRace else .xfer a := by
  obtain ⟨hwidth, -, hin⟩ := xferAccessOk_iff.1 h
  have hpos := (width_bounds hwidth).1
  simp [State.access, route_xfer hw (show a < s.params.xferBytes by omega), h]

/-- An access outside both windows is a bus error (R280, log entry 12). -/
theorem access_outside {s : State} {addr : Nat} (width : Nat)
    (hr : addr < s.params.regBase ∨ s.params.regBase + 256 ≤ addr)
    (hx : addr < s.params.xferBase ∨ s.params.xferBase + s.params.xferBytes ≤ addr) :
    s.access addr width = .fault .hostBusError := by
  simp [State.access, route_outside hr hx]

/-! The steps of an access. -/

/-- An access that is a fault is that fault of the step, for a load as for a store. -/
theorem step_access_fault {s : State} {addr width : Nat} {f : Fault} (v : Word) (rest : List Input)
    (hl : s.params.legal = true) (hacc : s.access addr width = .fault f) :
    (s.inbox = .load addr width :: rest → step s = .fault f) ∧
    (s.inbox = .store addr width v :: rest → step s = .fault f) := by
  have hacc' : State.access { s with inbox := rest } addr width = .fault f := hacc
  constructor <;> intro hi
  · rw [step_cons hl hi, serve, hostLoad, hacc']
  · rw [step_cons hl hi, serve, hostStore, hacc']

/-- A load of XFER is a step that returns the bytes' value (R62). -/
theorem step_loadXfer {s : State} {addr width a : Nat} {rest : List Input} (hl : s.params.legal = true)
    (hacc : s.access addr width = .xfer a) (hi : s.inbox = .load addr width :: rest) :
    step s = .next (State.returnLoad (BitVec.ofNat 64 (fromLE (s.memRead a width))) { s with inbox := rest }) := by
  have hacc' : State.access { s with inbox := rest } addr width = .xfer a := hacc
  rw [step_cons hl hi, serve, hostLoad, hacc']
  rfl

/-- A store to XFER is a step that writes the value's low bytes (R62). -/
theorem step_storeXfer {s : State} {addr width a : Nat} {v : Word} {rest : List Input} (hl : s.params.legal = true)
    (hacc : s.access addr width = .xfer a) (hi : s.inbox = .store addr width v :: rest) :
    step s = .next (State.memWrite { s with inbox := rest } a (leBytes width v.toNat)) := by
  have hacc' : State.access { s with inbox := rest } addr width = .xfer a := hacc
  rw [step_cons hl hi, serve, hostStore, hacc']

/-! The bytes of an access. -/

/-- A byte of a number's little-endian form (R13). -/
theorem leBytes_getD {n j : Nat} (hj : j < n) (x : Nat) : (leBytes n x).getD j 0 = BitVec.ofNat 8 (x >>> (8 * j)) := by
  induction n generalizing j x with
  | zero => omega
  | succ n ih =>
    cases j with
    | zero => rfl
    | succ j =>
      have hshift : x / 256 = x >>> 8 := (Nat.shiftRight_eq_div_pow x 8).symm
      rw [leBytes, List.getD_cons_succ, ih (by omega), hshift, ← Nat.shiftRight_add, Nat.mul_succ, Nat.add_comm]

/-- A byte of the word that at most eight bytes make up (R13). -/
theorem extractLsb'_fromLE {bs : List Byte} {j : Nat} (hj : j < bs.length) (h8 : bs.length ≤ 8) :
    (BitVec.ofNat 64 (fromLE bs)).extractLsb' (8 * j) 8 = bs.getD j 0 := by
  have hlt : fromLE bs < 2 ^ 64 := (fromLE_lt bs).trans_le (Nat.pow_le_pow_right (by omega) (by omega))
  calc (BitVec.ofNat 64 (fromLE bs)).extractLsb' (8 * j) 8
      = BitVec.ofNat 8 (fromLE bs >>> (8 * j)) := by
        rw [BitVec.extractLsb', BitVec.toNat_ofNat, Nat.mod_eq_of_lt hlt]
    _ = (leBytes bs.length (fromLE bs)).getD j 0 := (leBytes_getD hj _).symm
    _ = bs.getD j 0 := by rw [leBytes_fromLE]

theorem State.memRead_getD (s : State) (a : Nat) {n j : Nat} (hj : j < n) :
    (s.memRead a n).getD j 0 = s.xferByte (a + j) := by
  simp [State.memRead, List.getD, hj]

/-- The word a 1-byte load returns is its byte, zero-extended (log entry 17). -/
theorem fromLE_memRead_one (s : State) (a : Nat) :
    BitVec.ofNat 64 (fromLE (s.memRead a 1)) = (s.xferByte a).zeroExtend 64 := by
  simp [State.memRead, fromLE]

/-- The bytes of XFER after a store of a word's low bytes (R62). -/
theorem State.xferByte_memWrite_leBytes (s : State) (a width : Nat) (v : Word) (b : Nat) :
    (s.memWrite a (leBytes width v.toNat)).xferByte b =
      if a ≤ b ∧ b < a + width then v.extractLsb' (8 * (b - a)) 8 else s.xferByte b := by
  rw [State.xferByte_memWrite, leBytes_length]
  split_ifs with h
  · exact leBytes_getD (by omega) v.toNat
  · rfl

/-! The interval of R311. -/

/-- A CMD write opens the interval where it is accepted, and never closes it (R95). -/
theorem State.writeReg_cmd_raceOpen (v : Word) (s : State) :
    (s.writeReg .cmd v).raceOpen = true ↔ (s.fault = false ∧ s.busy = false) ∨ s.raceOpen = true := by
  rw [State.writeReg, State.acceptCmd]
  cases s.fault <;> cases s.busy <;> simp

/-- No other store to a register touches the interval. -/
theorem State.writeReg_raceOpen {r : HostReg} (hr : r ≠ .cmd) (v : Word) (s : State) :
    (s.writeReg r v).raceOpen = s.raceOpen := by
  cases r with
  | cmd => exact absurd rfl hr
  | _ => rfl

/-- A poll of WAIT closes the interval where it finds BUSY = 0. -/
theorem hostWait_raceOpen (s : State) : (hostWait s).raceOpen = (s.busy && s.raceOpen) := by
  cases hb : s.busy with
  | false => rw [hostWait_idle hb]; rfl
  | true => rw [hostWait_busy hb]; rfl

/-- The engine's turn leaves the interval as it is, for the host has read nothing. -/
theorem engineTurn_raceOpen {s t : State} (h : engineTurn s = .next t) : t.raceOpen = s.raceOpen := by
  rcases engineTurn_cases h with ⟨rfl, -⟩ | ⟨hf, q, hp, -⟩
  · rfl
  · rw [engineTurn_enabled hf hp] at h
    cases h
    exact (engineEffect_frame s q).raceOpen

/-- A load at STATUS's address that is a step is 8 bytes wide (R61). -/
theorem width_of_loadStatus {s t : State} {width : Nat} {rest : List Input} (h : step s = .next t)
    (hi : s.inbox = .load (s.params.regBase + 0x08) width :: rest) : width = 8 := by
  by_contra hne
  have hacc : s.access (s.params.regBase + 0x08) width = .fault .hostBusError :=
    access_register_undefined (by decide) fun ⟨h8, _⟩ => hne h8
  cases ((step_access_fault 0 rest (step_cases h).1 hacc).1 hi).symm.trans h

/-- What opens the interval of R311, what closes it, and that every other step keeps it. -/
theorem step_raceOpen {s t : State} (h : step s = .next t) :
    t.raceOpen = true ↔
      (s.fault = false ∧ s.busy = false ∧ ∃ v, s.inbox.head? = some (.store s.params.regBase 8 v)) ∨
      (s.raceOpen = true ∧ s.inbox.head? ≠ some .reset ∧
        ¬ (s.busy = false ∧
          (s.inbox.head? = some .wait ∨ s.inbox.head? = some (.load (s.params.regBase + 0x08) 8)))) := by
  obtain ⟨-, ⟨u, hu, ht⟩ | ⟨addr, width, rest, v, hi, rfl⟩ | ⟨addr, width, v, rest, r, hi, hacc, rfl⟩ |
    ⟨addr, width, v, rest, a, hi, hacc, rfl⟩ | ⟨rest, hi, rfl⟩ | ⟨rest, hi, rfl⟩ | ⟨rest, hi, rfl⟩⟩ := step_cases h
  · rw [engineTurn_raceOpen ht]
    rcases hu with ⟨hi, rfl⟩ | ⟨rest, hi, rfl⟩ <;> simp [hi]
  · by_cases haddr : addr = s.params.regBase + 0x08
    · subst haddr
      obtain rfl := width_of_loadStatus h hi
      simp [hi, and_comm]
    · simp [hi, haddr]
  · obtain ⟨rfl, o, rfl, -, -, rfl⟩ := of_access_reg hacc
    by_cases ho : o = 0
    · rw [regAt_eq_cmd.2 ho, State.writeReg_cmd_raceOpen]
      simp [hi, ho]
    · rw [State.writeReg_raceOpen (mt regAt_eq_cmd.1 ho)]
      simp [hi, ho]
  · obtain ⟨-, -, -, hout⟩ := of_access_xfer hacc
    have haddr : addr ≠ s.params.regBase := by rintro rfl; omega
    simp [hi, haddr]
  · rw [hostWait_raceOpen]
    simp [hi, and_comm]
  · simp [hi, hostReadImage]
  · simp [hi]

/-! The obligations on the two windows. -/

/-- Settles O25: the width and the alignment decide what the access is, and the access what the step is. -/
theorem registerAccessesDefined : Obligations.RegisterAccessesDefined := by
  unfold Obligations.RegisterAccessesDefined
  intro s o width v rest hl ho
  refine ⟨fun ⟨hwidth, halign⟩ => ?_, fun hundef => step_access_fault v rest hl (access_register_undefined ho hundef)⟩
  subst hwidth
  exact ⟨fun hi => ⟨_, step_loadRegister hl halign (by omega) hi⟩,
    fun hi => ⟨_, step_storeRegister hl halign (by omega) hi⟩⟩

/-- Settles O29: what the access is in each case, and the bytes a store leaves. -/
theorem transferBufferAccesses : Obligations.TransferBufferAccesses := by
  unfold Obligations.TransferBufferAccesses
  intro s a width v rest hl hw ha
  refine ⟨fun hdef hbusy hopen => ?_, fun hundef => ?_, fun addr hr hx => ?_⟩
  · have hacc : s.access (s.params.xferBase + a) width = .xfer a := by
      rw [access_xfer_defined hw (xferAccessOk_iff.2 hdef), State.racing_eq_false.2 ⟨hbusy, hopen⟩]
      rfl
    refine ⟨step_loadXfer hl hacc, fun hi => ⟨_, step_storeXfer hl hacc hi, rfl, ?_⟩⟩
    exact State.xferByte_memWrite_leBytes { s with inbox := rest } a width v
  · exact step_access_fault v rest hl (access_xfer_undefined hw ha (mt xferAccessOk_iff.1 hundef))
  · exact step_access_fault v rest hl (access_outside width hr hx)

/-- Settles O30: a defined access in the interval is the race, and each kind of step on the interval. -/
theorem transferBufferRace : Obligations.TransferBufferRace := by
  unfold Obligations.TransferBufferRace
  refine ⟨fun s a width v rest hl hw hwidth halign hin hrace => ?_, fun s t => step_raceOpen⟩
  have hacc : s.access (s.params.xferBase + a) width = .fault .hostRace := by
    rw [access_xfer_defined hw (xferAccessOk_iff.2 ⟨hwidth, halign, hin⟩), State.racing_eq_true.2 hrace]
    rfl
  exact step_access_fault v rest hl hacc

/-- A defined store to XFER outside the interval of a race, then a defined load of it: the load reads what the store left. -/
theorem run_storeXfer_load {s : State} {a width a' width' : Nat} {v : Word} {rest : List Input}
    (hl : s.params.legal = true) (hw : s.params.windowsApart) (hrace : s.racing = false)
    (hstore : xferAccessOk s.params a width = true) (hload : xferAccessOk s.params a' width' = true)
    (hi : s.inbox = .store (s.params.xferBase + a) width v :: .load (s.params.xferBase + a') width' :: rest) :
    ∃ t, Host.Core.run Sys2Proof.core 2 s = .next t ∧
      t.returned =
        BitVec.ofNat 64 (fromLE ((s.memWrite a (leBytes width v.toNat)).memRead a' width')) :: s.returned := by
  have hacc {off w : Nat} (h : xferAccessOk s.params off w = true) : s.access (s.params.xferBase + off) w = .xfer off := by
    rw [access_xfer_defined hw h, hrace]
    rfl
  exact ⟨_, run_two (step_storeXfer hl (hacc hstore) hi) (step_loadXfer hl (hacc hload) rfl), rfl⟩

/-- Settles O31: the byte of XFER that both accesses cover. -/
theorem mixedWidthsSeeTheBytes : Obligations.MixedWidthsSeeTheBytes := by
  unfold Obligations.MixedWidthsSeeTheBytes
  intro s v rest hl hw hbusy hopen
  have hrace := State.racing_eq_false.2 ⟨hbusy, hopen⟩
  refine ⟨fun a j halign hin hj hi => ?_, fun a j width hwidth halign hin hj hi => ?_⟩
  · obtain ⟨t, hrun, hret⟩ := run_storeXfer_load hl hw hrace (xferAccessOk_iff.2 ⟨by decide, halign, hin⟩)
      (xferAccessOk_iff.2 ⟨by decide, Nat.mod_one _, by omega⟩) hi
    refine ⟨t, hrun, ?_⟩
    rw [hret, fromLE_memRead_one, State.xferByte_memWrite_leBytes, if_pos (by omega), Nat.add_sub_cancel_left]
  · have hwidth' : width ∈ [1, 2, 4, 8] := List.mem_cons_of_mem 1 hwidth
    have h8 := (width_bounds hwidth').2
    obtain ⟨t, hrun, hret⟩ := run_storeXfer_load hl hw hrace
      (xferAccessOk_iff.2 ⟨by decide, Nat.mod_one _, by omega⟩) (xferAccessOk_iff.2 ⟨hwidth', halign, hin⟩) hi
    refine ⟨t, _, hrun, hret, ?_⟩
    rw [extractLsb'_fromLE (by simpa using hj) (by simpa using h8), State.memRead_getD _ _ hj,
      State.xferByte_memWrite_leBytes, if_pos (by omega), Nat.sub_self]

end Sys2Proof.Machine
end

section
/-! PROOFS. The command words (30_encoding.md R91 to R93): a word is its fields, the fields of a legal word are a
command's, and which words those are. -/

namespace Sys2Proof

/-- A word is the word of its fields (R91). -/
theorem packFields_fieldsOf (c : Word) : packFields (fieldsOf c) = c := by
  refine BitVec.eq_of_getLsbD_eq fun i hi => ?_
  simp only [packFields, fieldsOf, BitVec.getLsbD_append, BitVec.getLsbD_extractLsb', BitVec.getLsbD_ofBool]
  rcases Nat.lt_trichotomy i 8 with h | rfl | h
  · simp [h]
  · simp
  · have h1 : i - 8 - 1 < 55 := by omega
    have h2 : 9 + (i - 8 - 1) = i := by omega
    simp [show ¬ i < 8 by omega, show ¬ i - 8 < 1 by omega, h1, h2]

/-- The round trip of every command's word (R92). -/
theorem roundTrip (i : Instr) : Laws.RoundTrip.Statement i :=
  match i with
  | .new => Laws.RoundTrip.new
  | .newS => Laws.RoundTrip.newS
  | .insert => Laws.RoundTrip.insert
  | .exist => Laws.RoundTrip.exist
  | .serialize => Laws.RoundTrip.serialize
  | .deserialize => Laws.RoundTrip.deserialize

/-- A word that decodes to a command has that command's fields: every path of the decoder checks all three. -/
theorem fieldsOf_of_decode {c : Word} {i : Instr} (h : decode c = .ok i) : fieldsOf c = instrFields i := by
  unfold decode at h
  generalize fieldsOf c = f at h ⊢
  obtain ⟨op, seedSel, rsvd⟩ := f
  split_ifs at h <;> cases h <;> simp_all [instrFields]

/-- A word decodes to a command exactly when it is the command's word (R92). -/
theorem decode_eq_ok_iff {c : Word} {i : Instr} : decode c = .ok i ↔ c = encode i := by
  constructor
  · intro h
    calc c = packFields (fieldsOf c) := (packFields_fieldsOf c).symm
      _ = encode i := by rw [fieldsOf_of_decode h, encode]
  · rintro rfl
    obtain ⟨hdecode, -⟩ := roundTrip i
    exact hdecode

/-- The words of the commands are the six of R92. -/
theorem mem_tableWords_iff {c : Word} :
    c ∈ ([0x1, 0x101, 0x2, 0x3, 0x4, 0x5] : List Word) ↔ ∃ i, c = encode i := by
  have hwords : ([0x1, 0x101, 0x2, 0x3, 0x4, 0x5] : List Word) =
      [Instr.new, .newS, .insert, .exist, .serialize, .deserialize].map encode := by decide
  have hall (i : Instr) : i ∈ [Instr.new, .newS, .insert, .exist, .serialize, .deserialize] := by
    cases i <;> decide
  simp only [hwords, List.mem_map, hall, true_and, eq_comm]

/-- Settles O9: a word is determined by its fields, which the decoder reads whole. -/
theorem exactlySixWordsAreLegal : Obligations.ExactlySixWordsAreLegal := by
  unfold Obligations.ExactlySixWordsAreLegal
  refine ⟨fun c i => decode_eq_ok_iff, fun c => ?_⟩
  simp only [decode_eq_ok_iff, mem_tableWords_iff]

/-- Settles O8: each word is its command's. -/
theorem tableWordsDecode : Obligations.TableWordsDecode := by
  unfold Obligations.TableWordsDecode
  simp only [decode_eq_ok_iff]
  decide

/-- The fields of the commands are exactly the legal ones (R92, R93). -/
theorem CommandFields.wf_iff {f : CommandFields} : f.wf = true ↔ ∃ i, f = instrFields i := by
  constructor
  · obtain ⟨op, seedSel, rsvd⟩ := f
    simp only [wf, rsvdClear, opAssigned, seedSelAllowed, Bool.and_eq_true, Bool.or_eq_true, beq_iff_eq,
      decide_eq_true_eq, Bool.not_eq_true']
    rintro ⟨⟨rfl, h1, h5⟩, hsel⟩
    obtain h | h | h | h | h : op.toNat = 1 ∨ op.toNat = 2 ∨ op.toNat = 3 ∨ op.toNat = 4 ∨ op.toNat = 5 := by omega
    · obtain rfl : op = 1 := BitVec.eq_of_toNat_eq h
      cases seedSel with
      | false => exact ⟨.new, rfl⟩
      | true => exact ⟨.newS, rfl⟩
    · obtain rfl : op = 2 := BitVec.eq_of_toNat_eq h
      exact ⟨.insert, by simpa [instrFields] using hsel⟩
    · obtain rfl : op = 3 := BitVec.eq_of_toNat_eq h
      exact ⟨.exist, by simpa [instrFields] using hsel⟩
    · obtain rfl : op = 4 := BitVec.eq_of_toNat_eq h
      exact ⟨.serialize, by simpa [instrFields] using hsel⟩
    · obtain rfl : op = 5 := BitVec.eq_of_toNat_eq h
      exact ⟨.deserialize, by simpa [instrFields] using hsel⟩
  · rintro ⟨i, rfl⟩
    obtain ⟨-, hwf, -⟩ := roundTrip i
    exact hwf

/-- A word decodes exactly when its fields are legal (R93). -/
theorem exists_decode_iff_wf {c : Word} : (∃ i, decode c = .ok i) ↔ (fieldsOf c).wf = true := by
  rw [CommandFields.wf_iff]
  constructor
  · rintro ⟨i, h⟩
    exact ⟨i, fieldsOf_of_decode h⟩
  · rintro ⟨i, h⟩
    exact ⟨i, decode_eq_ok_iff.2 (by rw [encode, ← h, packFields_fieldsOf])⟩

/-! The fields as parts of the word's value (R91). -/

theorem fieldsOf_op_toNat (c : Word) : (fieldsOf c).op.toNat = c.toNat % 256 := by
  simp [fieldsOf, BitVec.extractLsb'_toNat]

theorem fieldsOf_op_eq_one {c : Word} : (fieldsOf c).op = 1 ↔ c.toNat % 256 = 1 := by
  rw [← fieldsOf_op_toNat, ← BitVec.toNat_inj]
  rfl

theorem fieldsOf_seedSel (c : Word) : (fieldsOf c).seedSel = c.getLsbD 8 := rfl

theorem fieldsOf_rsvd_eq_zero {c : Word} : (fieldsOf c).rsvd = 0 ↔ c.toNat < 512 := by
  have hc := c.isLt
  simp only [← BitVec.toNat_inj, fieldsOf, BitVec.extractLsb'_toNat, Nat.shiftRight_eq_div_pow, BitVec.ofNat_eq_ofNat,
    BitVec.toNat_ofNat]
  omega

/-- The legal fields, by the word's value (R91, R93). -/
theorem wf_fieldsOf_iff {c : Word} :
    (fieldsOf c).wf = true ↔
      c.toNat < 512 ∧ 1 ≤ c.toNat % 256 ∧ c.toNat % 256 ≤ 5 ∧ (c.getLsbD 8 = true → c.toNat % 256 = 1) := by
  simp only [CommandFields.wf, CommandFields.rsvdClear, CommandFields.opAssigned, CommandFields.seedSelAllowed,
    Bool.and_eq_true, Bool.or_eq_true, beq_iff_eq, decide_eq_true_eq, Bool.not_eq_true', fieldsOf_op_toNat,
    fieldsOf_op_eq_one, fieldsOf_rsvd_eq_zero, fieldsOf_seedSel, imp_iff_not_or, Bool.not_eq_true, and_assoc]

/-- The illegal words, by R93's causes. -/
theorem decode_ne_ok_iff {c : Word} :
    (∀ i, decode c ≠ .ok i) ↔
      (c.toNat % 256 = 0 ∨ 6 ≤ c.toNat % 256 ∨ (c.getLsbD 8 = true ∧ c.toNat % 256 ≠ 1) ∨ 512 ≤ c.toNat) := by
  rw [← not_exists, exists_decode_iff_wf, wf_fieldsOf_iff]
  cases c.getLsbD 8 with
  | false =>
    simp only [Bool.false_eq_true, false_imp_iff, false_and, false_or, and_true]
    omega
  | true =>
    simp only [forall_const, true_and]
    omega

/-- A row of the opcode table that decodes is a word that does. -/
theorem decode_of_decodeTableWord {n w : Nat} {i : Instr} (h : decodeTableWord n w = some i) :
    decode (BitVec.ofNat 64 w) = .ok i := by
  unfold decodeTableWord at h
  split_ifs at h
  split at h
  · rename_i hd
    rw [hd, Option.some.inj h]
  · cases h

end Sys2Proof
end

section
/-! PROOFS. The acceptance of a command word and the engine's step on it (30_encoding.md R93, R95, R96). -/

namespace Sys2Proof.Machine

/-- Whichever way the engine comes to move, from an empty list or by its own entry, the pending command stays, and the
step is the command's effect and its retirement (R96). -/
theorem step_enabled {s u : State} {q : Pending} (hl : s.params.legal = true) (hf : s.fault = false)
    (hp : s.pend = some q)
    (hu : (s.inbox = [] ∧ u = s) ∨ ∃ rest, s.inbox = .engine :: rest ∧ u = { s with inbox := rest }) :
    u.pend = some q ∧ step s = .next (engineEffect u q).retire := by
  rcases hu with ⟨hi, rfl⟩ | ⟨rest, hi, rfl⟩
  · exact ⟨hp, (step_nil hl hi).trans (engineTurn_enabled hf hp)⟩
  · exact ⟨hp, (step_cons hl hi).trans (engineTurn_enabled (s := { s with inbox := rest }) hf hp)⟩

/-- The effect of a word that decodes to no command is the report of `ILLEGAL_COMMAND` (R93). -/
theorem engineEffect_illegal {q : Pending} (h : ∀ i, decode q.cmd ≠ .ok i) (s : State) :
    engineEffect s q = s.fail .illegalCommand := by
  unfold engineEffect
  cases hd : decode q.cmd with
  | ok i => exact absurd hd (h i)
  | error e => rfl

/-- Settles O10: the causes of R93, and the engine's effect of such a word. -/
theorem illegalWordsOnlyReport : Obligations.IllegalWordsOnlyReport := by
  unfold Obligations.IllegalWordsOnlyReport
  refine ⟨fun c => decode_ne_ok_iff, fun s u q hl hf hp hq hu => ?_⟩
  obtain ⟨-, hstep⟩ := step_enabled hl hf hp hu
  rw [hstep, engineEffect_illegal hq]
  rfl

/-- Settles O11: exec answers the command's effect, and the step retires it. -/
theorem stepRunsTheDecodedCommand : Obligations.StepRunsTheDecodedCommand := by
  unfold Obligations.StepRunsTheDecodedCommand
  intro s u q i hl hf hp hd hu
  obtain ⟨hup, hstep⟩ := step_enabled hl hf hp hu
  exact ⟨commandResult i u q, exec_pending hup i, by rw [hstep, engineEffect_ok hd]; rfl⟩

/-- Settles O12: the placed word is pending and the engine's entry is at the head of the list, so O11 applies. -/
theorem placedWordRunsNext : Obligations.PlacedWordRunsNext := by
  unfold Obligations.PlacedWordRunsNext
  intro s i w hl hw
  obtain ⟨t, hexec, hstep⟩ := stepRunsTheDecodedCommand (s.withFetchWord 64 w)
    { s.withFetchWord 64 w with inbox := s.inbox } _ i hl rfl rfl (decode_of_decodeTableWord hw) (.inr ⟨_, rfl, rfl⟩)
  exact ⟨{ s.withFetchWord 64 w with inbox := s.inbox }, t, rfl, rfl, rfl, rfl, rfl, rfl, hexec, hstep⟩

/-- Settles O13: exec is total on a pending command, and so is the engine's turn. -/
theorem engineStepAlwaysCompletes : Obligations.EngineStepAlwaysCompletes := by
  unfold Obligations.EngineStepAlwaysCompletes
  refine ⟨fun s q i hp => ⟨_, exec_pending hp i⟩, fun s hl hi => ?_⟩
  have hm : s.engineMoves := hi.imp_right fun ⟨rest, h⟩ => by simp [h]
  obtain ⟨rest, hstep⟩ := step_engineMoves hl hm
  rw [hstep]
  exact engineTurn_total _

/-- A host write of CMD is its acceptance (R25, R95). -/
theorem step_storeCmd {s : State} {v : Word} {rest : List Input} (hl : s.params.legal = true)
    (hi : s.inbox = .store s.params.regBase 8 v :: rest) :
    step s = .next (State.acceptCmd v { s with inbox := rest }) :=
  step_storeRegister (o := 0) hl rfl (Nat.zero_le _) hi

/-- Settles O23: the three cases of the acceptance. -/
theorem commandAcceptance : Obligations.CommandAcceptance := by
  unfold Obligations.CommandAcceptance
  intro s v rest hl hi
  rw [step_storeCmd hl hi, State.acceptCmd]
  exact ⟨fun hf => by simp [hf], fun hf hb => by simp [hf, hb], fun hf hb => by simp [hf, hb]⟩

end Sys2Proof.Machine
end

section
/-! PROOFS. The host assembly's XWR (30_encoding.md R103): a run of 1-byte stores leaves their bytes. -/

namespace Sys2Proof.Machine

/-- The bytes read from an offset on are the byte there and those after it. -/
theorem State.memRead_succ (s : State) (a n : Nat) :
    s.memRead a (n + 1) = s.xferByte a :: s.memRead (a + 1) n := by
  simp [State.memRead, List.range_succ_eq_map, Nat.add_assoc, Nat.add_comm 1]

/-- The one byte that a 1-byte store of a byte writes. -/
theorem leBytes_one_zeroExtend (b : Byte) : leBytes 1 (b.zeroExtend 64).toNat = [b] := by
  have hb : b.toNat % 2 ^ 64 = b.toNat := Nat.mod_eq_of_lt (by have := b.isLt; omega)
  rw [BitVec.toNat_setWidth, hb]
  simp [leBytes]

/-- The first store of an XWR, outside the interval of a race, writes its byte (R62). -/
theorem step_xwr {s : State} {off : Nat} {b : Byte} {rest : List Input} (hl : s.params.legal = true)
    (hw : s.params.windowsApart) (hrace : s.racing = false) (hoff : off + 1 ≤ s.params.xferBytes)
    (hi : s.inbox = .store (s.params.xferBase + off) 1 (b.zeroExtend 64) :: rest) :
    step s = .next (State.memWrite { s with inbox := rest } off [b]) := by
  have hacc : s.access (s.params.xferBase + off) 1 = .xfer off := by
    rw [access_xfer_defined hw (xferAccessOk_iff.2 ⟨by decide, Nat.mod_one _, hoff⟩), hrace]
    rfl
  rw [step_storeXfer hl hacc hi, leBytes_one_zeroExtend]

/-- Settles O32, by induction on the bytes: the first store leaves its byte, which the stores after it keep. -/
theorem hostAssemblyWritesItsBytes : Obligations.HostAssemblyWritesItsBytes := by
  unfold Obligations.HostAssemblyWritesItsBytes
  intro bs
  induction bs with
  | nil =>
    intro s off rest _ _ _ _ _ hi
    exact ⟨s, rfl, rfl, hi, fun _ _ => rfl⟩
  | cons b bs ih =>
    intro s off rest hl hw hbusy hopen hin hi
    rw [List.length_cons] at hin
    have hstep := step_xwr hl hw (State.racing_eq_false.2 ⟨hbusy, hopen⟩) (by omega) hi
    obtain ⟨(t : State), hrun, hread, hrest, hkeep⟩ := ih
      (State.memWrite { s with inbox := asmXwr s.params (off + 1) bs ++ rest } off [b]) (off + 1) rest hl hw hbusy hopen
      (show off + 1 + bs.length ≤ s.params.xferBytes by omega) rfl
    refine ⟨t, (run_succ hstep bs.length).trans hrun, ?_, hrest, fun a ha => ?_⟩
    · have hfirst : t.xferByte off = b := by
        rw [hkeep off (.inl (by omega)), State.xferByte_memWrite, if_pos (by simp), Nat.sub_self]
        rfl
      rw [List.length_cons, State.memRead_succ, hfirst, hread]
    · rw [List.length_cons] at ha
      rw [hkeep a (by omega), State.xferByte_memWrite_outside _ (by rw [List.length_singleton]; omega)]
      rfl

end Sys2Proof.Machine
end

section
/-! PROOFS. The real number an operand pattern denotes (30_encoding.md R97, 40_sizing.md R121). -/

namespace Sys2Proof.Machine

/-- A finite pattern's significand and exponent: subnormal, or normal with its hidden bit (R97). -/
theorem Binary64.ofBits_finite {b : Word} {neg : Bool} {mant expo : Nat} (h : ofBits b = .finite neg mant expo) :
    (b.toNat / 2 ^ 52 % 2 ^ 11 = 0 ∧ mant = b.toNat % 2 ^ 52 ∧ expo = 1) ∨
    (b.toNat / 2 ^ 52 % 2 ^ 11 ≠ 0 ∧ mant = 2 ^ 52 + b.toNat % 2 ^ 52 ∧ expo = b.toNat / 2 ^ 52 % 2 ^ 11) := by
  simp only [ofBits] at h
  split_ifs at h with h1 h2 h3
  · cases h
    exact .inl ⟨h3, rfl, rfl⟩
  · cases h
    exact .inr ⟨h3, rfl, rfl⟩

/-- A valid pattern is finite, and its probability is its value (R121). -/
theorem probabilityOf_some {b : Word} {p : Probability} (h : probabilityOf b = some p) :
    ∃ expo, Binary64.ofBits b = .finite false p.mant expo ∧ p.scale = 1075 - expo := by
  unfold probabilityOf at h
  split at h
  · cases h
  · cases h
  · rename_i neg mant expo hb
    split_ifs at h with hneg hok
    cases h
    exact ⟨expo, by rw [hb, Bool.eq_false_of_not_eq_true hneg], rfl⟩

/-- The weight of a binary64 significand's last place, by the exponent's field: bias 1023 and 52 fraction bits (R97). -/
theorem two_zpow_sub_bias {e : Nat} (he : e ≤ 1075) : (2 : ℝ) ^ ((e : ℤ) - 1023) = 2 ^ 52 / 2 ^ (1075 - e) := by
  have hexp : (e : ℤ) - 1023 = (52 : ℕ) - ((1075 - e : ℕ) : ℤ) := by omega
  rw [hexp, zpow_sub₀ two_ne_zero, zpow_natCast, zpow_natCast]

/-- Settles O34: the significand over the scale, for a subnormal and for a normal pattern. -/
theorem probabilityIsTheBinary64Value : Obligations.ProbabilityIsTheBinary64Value := by
  unfold Obligations.ProbabilityIsTheBinary64Value
  intro b p h
  obtain ⟨hpos, hlt⟩ := p.toReal_mem
  obtain ⟨expo, hbits, hscale⟩ := probabilityOf_some h
  have hbelow := p.below
  rw [Probability.toReal, hscale] at hpos hlt ⊢
  rcases Binary64.ofBits_finite hbits with ⟨he, hmant, hexpo⟩ | ⟨he, hmant, hexpo⟩
  · exact ⟨hpos, hlt, fun _ => by rw [hmant, hexpo], fun hne => absurd he hne⟩
  · refine ⟨hpos, hlt, fun h0 => absurd h0 he, fun _ => ?_⟩
    rw [← hexpo, two_zpow_sub_bias (by omega), hmant, Nat.cast_add, Nat.cast_pow, Nat.cast_ofNat]
    field_simp

end Sys2Proof.Machine
end

section
/-! PROOFS. Where the filter's bits stand in its image (30_encoding.md R100, R102). -/

namespace Sys2Proof.Machine

/-- Byte `8 j + r` of a word string is byte `r` of word `j` (R100). -/
theorem flatMap_leBytes_getD {ws : List Word} {k : Nat} (hk : k / 8 < ws.length) :
    (ws.flatMap fun w => leBytes 8 w.toNat).getD k 0 = (leBytes 8 (ws.getD (k / 8) 0).toNat).getD (k % 8) 0 := by
  induction ws generalizing k with
  | nil => simp at hk
  | cons w ws ih =>
    rw [List.length_cons] at hk
    rw [List.flatMap_cons]
    rcases Nat.lt_or_ge k 8 with h | h
    · rw [List.getD_append _ _ _ _ (by rwa [leBytes_length]), Nat.div_eq_of_lt h, Nat.mod_eq_of_lt h]
      rfl
    · have hdiv : k / 8 = (k - 8) / 8 + 1 := by omega
      have hmod : k % 8 = (k - 8) % 8 := by omega
      rw [List.getD_append_right _ _ _ _ (by rwa [leBytes_length]), leBytes_length, ih (by omega), hdiv, hmod,
        List.getD_cons_succ]

/-- Past its header an image is its words' bytes (R100). -/
theorem imageOf_getD {p : Params} (hl : p.legal = true) (c : FilterCfg) {ws : List Word} {k : Nat}
    (hk : k / 8 < ws.length) :
    (imageOf p c ws).getD (p.hdr + k) 0 = (leBytes 8 (ws.getD (k / 8) 0).toNat).getD (k % 8) 0 := by
  have hheader : (leBytes (p.wBL / 8) c.bitLen.toNat ++ leBytes (p.wHR / 8) c.hRounds.toNat ++
      leBytes (p.wSeed / 8) c.seed.toNat).length = p.hdr := by
    obtain ⟨hBL, hHR, hSeed, -⟩ := Params.legal_spec hl
    simp only [List.length_append, leBytes_length, Params.hdr]
    omega
  rw [imageOf, List.getD_append_right _ _ _ _ (by omega), hheader, Nat.add_sub_cancel_left, flatMap_leBytes_getD hk]

/-- A bit of a byte of a word is the word's bit (R13). -/
theorem leBytes_getD_getLsbD {j r : Nat} (hj : j < 8) (hr : r < 8) (w : Word) :
    ((leBytes 8 w.toNat).getD j 0).getLsbD r = w.getLsbD (8 * j + r) := by
  rw [leBytes_getD hj, BitVec.getLsbD_ofNat, Nat.testBit_shiftRight, decide_eq_true hr, Bool.true_and, BitVec.getLsbD]

theorem BitStore.words_getD (b : BitStore) {wc j : Nat} (hj : j < wc) : (b.words wc).getD j 0 = b.word j := by
  simp [BitStore.words, List.getD, hj]

/-- Settles O55: the byte of the word that holds the bit, and the bit's place in it. -/
theorem imageBitPlacement : Obligations.ImageBitPlacement := by
  unfold Obligations.ImageBitPlacement
  intro s i hl hi
  have hword : i / 8 / 8 = i / 64 := by omega
  have hplace : 8 * (i / 8 % 8) + i % 8 = i % 64 := by omega
  have hj : i / 64 < wordCount s.cfg.bitLen.toNat := by omega
  rw [State.image, imageOf_getD hl _ (by simpa [BitStore.words, hword] using hj),
    leBytes_getD_getLsbD (by omega) (by omega), hword, hplace, BitStore.words_getD _ hj, BitStore.bit]

end Sys2Proof.Machine
end

section
/-! PROOFS. The valid probability patterns (40_sizing.md R121), the sizing as equations (R122, R124, R125, R127,
R130), and the bounds of a size (R132). -/

namespace Sys2Proof.Machine

/-! The probability check. -/

/-- The patterns of the finite values of positive sign: subnormal below `2^52`, normal from there (R97). -/
theorem Binary64.ofBits_eq_finite_false_iff {b : Word} {mant expo : Nat} :
    ofBits b = .finite false mant expo ↔ b.toNat < 2047 * 2 ^ 52 ∧
      (b.toNat < 2 ^ 52 ∧ mant = b.toNat ∧ expo = 1 ∨
        2 ^ 52 ≤ b.toNat ∧ mant = 2 ^ 52 + b.toNat % 2 ^ 52 ∧ expo = b.toNat / 2 ^ 52) := by
  have hsign : b.getLsbD 63 = decide (2 ^ 63 ≤ b.toNat) := by
    rw [← BitVec.msb_eq_getLsbD_last, BitVec.msb_eq_decide]
  have hb := b.isLt
  simp only [ofBits, hsign]
  split_ifs with hspecial hfrac hsub
  · simp only [false_iff]
    omega
  · simp only [false_iff]
    omega
  · simp only [finite.injEq, decide_eq_false_iff_not]
    omega
  · simp only [finite.injEq, decide_eq_false_iff_not]
    omega

/-- The check passes for a finite value of positive sign with a significand above 0 and a value below 1. -/
theorem probabilityOf_isSome_iff_finite {b : Word} : (probabilityOf b).isSome ↔
    ∃ mant expo, Binary64.ofBits b = .finite false mant expo ∧ mant ≠ 0 ∧ mant.log2 < 1075 - expo := by
  constructor
  · intro h
    obtain ⟨p, hp⟩ := Option.isSome_iff_exists.1 h
    obtain ⟨expo, hbits, hscale⟩ := probabilityOf_some hp
    exact ⟨p.mant, expo, hbits, p.pos, hscale ▸ p.below⟩
  · rintro ⟨mant, expo, hbits, hpos, hbelow⟩
    simp [probabilityOf, hbits, hpos, hbelow]

/-- A normal significand has 53 bits (R97). -/
theorem log2_normal_significand (b : Nat) : (2 ^ 52 + b % 2 ^ 52).log2 = 52 :=
  (Nat.log2_eq_iff (by omega)).2 (by omega)

/-- The check passes for exactly the patterns of R121. -/
theorem probabilityOf_isSome_iff {b : Word} :
    (probabilityOf b).isSome ↔ 1 ≤ b.toNat ∧ b.toNat ≤ 0x3FEFFFFFFFFFFFFF := by
  simp only [probabilityOf_isSome_iff_finite, Binary64.ofBits_eq_finite_false_iff]
  constructor
  · rintro ⟨mant, expo, ⟨hmax, ⟨hsub, rfl, rfl⟩ | ⟨hnorm, rfl, rfl⟩⟩, hpos, hbelow⟩
    · omega
    · rw [log2_normal_significand] at hbelow
      omega
  · rintro ⟨hmin, hmax⟩
    rcases Nat.lt_or_ge b.toNat (2 ^ 52) with hsub | hnorm
    · refine ⟨_, _, ⟨by omega, .inl ⟨hsub, rfl, rfl⟩⟩, by omega, ?_⟩
      have : b.toNat.log2 < 52 := (Nat.log2_lt (by omega)).2 hsub
      omega
    · refine ⟨_, _, ⟨by omega, .inr ⟨hnorm, rfl, rfl⟩⟩, by omega, ?_⟩
      rw [log2_normal_significand]
      omega

/-! The sizing as equations. -/

theorem size_of_none {b : Word} (h : probabilityOf b = none) (c : Params) (draw : Nat) (n : Word) :
    size c draw n b = .error .invalidParameter := by
  simp [size, h]

/-- With a valid probability the size is a pick of `m_raw`, checked, rounded up and given its rounds. -/
theorem size_of_some {b : Word} {p : Probability} (h : probabilityOf b = some p) {c : Params} {draw : Nat} {n : Word}
    {m : Nat} (hm : m = (mRawSpan c (itemCount n) p).pick (Config.sizingDraw draw)) :
    size c draw n b =
      if c.capBits < m then .error .capacityExceeded
      else .ok (pow2ceil m, (roundsSpan c (itemCount n) (pow2ceil m)).pick (Config.roundsDraw draw)) := by
  simp only [size, h, clampZero_pow2ceil, hm]

/-- The size depends on the count as R122 reads it. -/
theorem size_congr {n n' : Word} (h : itemCount n = itemCount n') (c : Params) (draw : Nat) (b : Word) :
    size c draw n b = size c draw n' b := by
  simp only [size, h]

/-! Powers of two. -/

/-- Rounding up to a power of two does not round down. -/
theorem le_pow2ceil (m : Nat) : m ≤ pow2ceil m := by
  unfold pow2ceil
  split
  · omega
  · have := Nat.lt_log2_self (n := m - 1)
    omega

/-! The obligations. -/

/-- Settles O33: the size reports the probability check alone as INVALID_PARAMETER. -/
theorem validProbabilityPatterns : Obligations.ValidProbabilityPatterns := by
  unfold Obligations.ValidProbabilityPatterns
  intro c draw n b
  rw [← probabilityOf_isSome_iff]
  cases hp : probabilityOf b with
  | none => simp [size_of_none hp]
  | some p =>
    rw [size_of_some hp rfl]
    split_ifs <;> simp

/-- Settles O37: the bounds of the rounding, and its value at a power of two. -/
theorem powerOfTwoRounding : Obligations.PowerOfTwoRounding := by
  unfold Obligations.PowerOfTwoRounding
  intro m _
  exact ⟨exists_pow2ceil m, le_pow2ceil m, fun _ => pow2ceil_le_two_pow,
    fun k => le_antisymm (pow2ceil_le_two_pow le_rfl) (le_pow2ceil _), fun _ => pow2ceil_le_two_pow⟩

/-- Settles O39: the bounds of a successful sizing; a power of two is not 0. -/
theorem sizingSanity : Obligations.SizingSanity := by
  unfold Obligations.SizingSanity
  intro c draw n b bitLen k hc hsize
  obtain ⟨hpow, hcap, hk⟩ := size_bounds hc hsize
  exact ⟨hpow, Nat.one_le_iff_ne_zero.2 (ne_zero_of_isPow2 hpow), hcap, hk⟩

end Sys2Proof.Machine
end

section
/-! PROOFS. The admitted sizes are exactly those of 40_sizing.md R131 over the exact reals, and the size with a valid
probability (R122 to R131). -/

namespace Sys2Proof.Machine

/-! The admitted results. -/

/-- The values a monotone rounding takes on a real interval are the naturals between its values at the ends, where it
takes each of these at all. -/
theorem between_iff_exists_of_monotone {f : ℝ → ℕ} (hf : Monotone f) {a b : ℝ} (hab : a ≤ b) {m : ℕ}
    (hm : f a ≤ m → ∃ z, f z = m) : f a ≤ m ∧ m ≤ f b ↔ ∃ y, a ≤ y ∧ y ≤ b ∧ m = f y := by
  constructor
  · rintro ⟨h1, h2⟩
    obtain ⟨z, rfl⟩ := hm h1
    refine ⟨max a (min b z), le_max_left _ _, max_le hab (min_le_left _ _), ?_⟩
    rw [hf.map_max, hf.map_min, min_eq_right h2, max_eq_right h1]
  · rintro ⟨y, h1, h2, rfl⟩
    exact ⟨hf h1, hf h2⟩

/-- `hashRounds` of an ideal `t` rises with it (R127). -/
theorem monotone_roundCount : Monotone fun t : ℝ => max 1 ⌊t + 1 / 2⌋₊ := fun _ _ h =>
  max_le_max_left 1 (Nat.floor_mono (by linarith))

/-- Every count from 1 on is the `hashRounds` of some ideal `t` (R127). -/
theorem exists_roundCount_eq {k : ℕ} (hk : 1 ≤ k) : ∃ t : ℝ, max 1 ⌊t + 1 / 2⌋₊ = k :=
  ⟨k - 1 / 2, by rw [sub_add_cancel, Nat.floor_natCast, max_eq_right hk]⟩

/-- The ends of the tie band around a number are in order (R131). -/
theorem mul_band_le {c : Params} (hc : c.legal = true) {x : ℝ} (hx : 0 ≤ x) : x * (1 - c.band) ≤ x * (1 + c.band) := by
  obtain ⟨h0, -⟩ := band_mem hc
  exact mul_le_mul_of_nonneg_left (by linarith) hx

/-- The span of `m_raw` is the set of R131. -/
theorem mem_mRawSpan_iff {c : Params} (hc : c.legal = true) {n : Nat} (hn : 1 ≤ n) (p : Probability) (m : Nat) :
    (mRawSpan c n p).lo ≤ m ∧ m ≤ (mRawSpan c n p).hi ↔
      ∃ y : ℝ, idealBits n p.toReal * (1 - c.band) ≤ y ∧ y ≤ idealBits n p.toReal * (1 + c.band) ∧ m = ⌈y⌉₊ := by
  obtain ⟨hlo, hhi⟩ := mRawSpan_ends hc n p
  rw [hlo, hhi]
  exact between_iff_exists_of_monotone Nat.ceil_mono (mul_band_le hc (idealBits_pos hn p).le)
    fun _ => ⟨m, Nat.ceil_natCast m⟩

/-- The span of `hashRounds` is the set of R131. -/
theorem mem_roundsSpan_iff {c : Params} (hc : c.legal = true) (n bitLen k : Nat) :
    (roundsSpan c n bitLen).lo ≤ k ∧ k ≤ (roundsSpan c n bitLen).hi ↔
      ∃ y : ℝ, idealRounds n bitLen * (1 - c.band) ≤ y ∧ y ≤ idealRounds n bitLen * (1 + c.band) ∧
        k = max 1 ⌊y + 1 / 2⌋₊ := by
  obtain ⟨hlo, hhi⟩ := roundsSpan_ends hc n bitLen
  rw [hlo, hhi]
  exact between_iff_exists_of_monotone monotone_roundCount (mul_band_le hc (idealRounds_nonneg n bitLen))
    fun h => exists_roundCount_eq ((le_max_left _ _).trans h)

theorem pick_mRawSpan_mem {c : Params} (hc : c.legal = true) {n : Nat} (hn : 1 ≤ n) (p : Probability) (d : Nat) :
    (mRawSpan c n p).lo ≤ (mRawSpan c n p).pick d ∧ (mRawSpan c n p).pick d ≤ (mRawSpan c n p).hi := by
  obtain ⟨-, hle⟩ := mRawSpan_le hc hn p
  exact Span.pick_mem hle d

theorem pick_roundsSpan_mem {c : Params} (hc : c.legal = true) (n bitLen d : Nat) :
    (roundsSpan c n bitLen).lo ≤ (roundsSpan c n bitLen).pick d ∧
      (roundsSpan c n bitLen).pick d ≤ (roundsSpan c n bitLen).hi := by
  obtain ⟨-, hle⟩ := roundsSpan_le hc n bitLen
  exact Span.pick_mem hle d

/-- Without a band `m_raw` is the exact ceiling (R129). -/
theorem pick_mRawSpan_eq {c : Params} (hc : c.legal = true) (hband : c.band = 0) (n : Nat) (p : Probability) (d : Nat) :
    (mRawSpan c n p).pick d = ⌈idealBits n p.toReal⌉₊ := by
  obtain ⟨hlo, hhi⟩ := mRawSpan_ends hc n p
  rw [hband, sub_zero, mul_one] at hlo
  rw [hband, add_zero, mul_one] at hhi
  rw [Span.pick_eq (hlo.trans hhi.symm), hlo]

/-- Without a band `hashRounds` is the exact rounding (R129). -/
theorem pick_roundsSpan_eq {c : Params} (hc : c.legal = true) (hband : c.band = 0) (n bitLen d : Nat) :
    (roundsSpan c n bitLen).pick d = max 1 ⌊idealRounds n bitLen + 1 / 2⌋₊ := by
  obtain ⟨hlo, hhi⟩ := roundsSpan_ends hc n bitLen
  rw [hband, sub_zero, mul_one] at hlo
  rw [hband, add_zero, mul_one] at hhi
  rw [Span.pick_eq (hlo.trans hhi.symm), hlo]

/-! The obligations. -/

/-- Settles O35: the span of `m_raw` is R131's set, and a pick is in it. -/
theorem sizingIsTheIdealBitCount : Obligations.SizingIsTheIdealBitCount := by
  unfold Obligations.SizingIsTheIdealBitCount
  intro c p n hc hn
  obtain ⟨h0, h1⟩ := band_mem hc
  exact ⟨h0, h1, mem_mRawSpan_iff hc hn p, pick_mRawSpan_mem hc hn p, fun hband => pick_mRawSpan_eq hc hband n p⟩

/-- Settles O36: the span of `hashRounds` is R131's set, and a pick is in it. -/
theorem sizingIsTheIdealRoundCount : Obligations.SizingIsTheIdealRoundCount := by
  unfold Obligations.SizingIsTheIdealRoundCount
  intro c n bitLen hc
  exact ⟨mem_roundsSpan_iff hc n bitLen, pick_roundsSpan_mem hc n bitLen,
    fun hband => pick_roundsSpan_eq hc hband n bitLen⟩

/-- Settles O38: the picks of the two spans on the two sides of the capacity. -/
theorem capacityIsCheckedAfterTheProbability : Obligations.CapacityIsCheckedAfterTheProbability := by
  unfold Obligations.CapacityIsCheckedAfterTheProbability
  refine ⟨fun c draw b => size_congr rfl c draw b, fun c draw n b p hc hp => ?_⟩
  have hn := itemCount_pos n
  refine ⟨_, rfl, (mem_mRawSpan_iff hc hn p _).1 (pick_mRawSpan_mem hc hn p _), fun hover => ?_, fun hfits => ?_,
    fun hband => ?_⟩ <;> rw [size_of_some hp rfl]
  · rw [if_pos hover]
  · rw [if_neg hfits.not_gt]
    exact ⟨_, rfl, (mem_roundsSpan_iff hc _ _ _).1 (pick_roundsSpan_mem hc _ _ _)⟩
  · rw [pick_roundsSpan_eq hc hband, pick_mRawSpan_eq hc hband]

end Sys2Proof.Machine
end

section
/-! PROOFS. NEW and NEW.S: the filter they install, what they leave, and that it holds no key (40_sizing.md R142 to
R144). -/

namespace Sys2Proof.Machine

/-! The two commands as one. -/

theorem construct_ok {s : State} {q : Pending} {bitLen k : Nat}
    (h : size s.params s.draws q.a0 q.a1 = .ok (bitLen, k)) (seed : Word) :
    construct seed q s = (s.tick.install ⟨true, BitVec.ofNat 64 bitLen, BitVec.ofNat 64 k, seed⟩
      (s.bv.clear (wordCount bitLen))).report .ok false := by
  simp [construct, h]

theorem construct_error {s : State} {q : Pending} {e : ErrorCode} (h : size s.params s.draws q.a0 q.a1 = .error e)
    (seed : Word) : construct seed q s = s.tick.fail e := by
  simp [construct, h]

/-- NEW and NEW.S differ in the seed alone (R98, R142). -/
theorem exec_eq_construct {s : State} {q : Pending} {i : Instr} {seed : Word} (hp : s.pend = some q)
    (h : i = .new ∧ seed = truncTo s.params.wSeed (Config.entropy s.draws) ∨
      i = .newS ∧ seed = truncTo s.params.wSeed q.a2) : exec i s = .next (construct seed q s) := by
  rcases h with ⟨rfl, rfl⟩ | ⟨rfl, rfl⟩ <;> exact exec_pending hp _

theorem exists_exec_eq_construct {s : State} {q : Pending} {i : Instr} (hp : s.pend = some q)
    (hi : i = .new ∨ i = .newS) : ∃ seed, exec i s = .next (construct seed q s) :=
  hi.elim (fun h => ⟨_, exec_eq_construct hp (.inl ⟨h, rfl⟩)⟩) (fun h => ⟨_, exec_eq_construct hp (.inr ⟨h, rfl⟩)⟩)

/-- The sizes of a sized filter are held as they are. -/
theorem size_toNat {c : Params} (hc : c.legal = true) {draw : Nat} {n b : Word} {bitLen k : Nat}
    (h : size c draw n b = .ok (bitLen, k)) :
    (BitVec.ofNat 64 bitLen).toNat = bitLen ∧ (BitVec.ofNat 64 k).toNat = k := by
  obtain ⟨-, hcap, -, hk⟩ := size_bounds hc h
  have := Params.capBits_le hc
  exact ⟨toNat_ofNat_of_lt_width le_rfl (by omega), toNat_ofNat_of_lt_width le_rfl (by omega)⟩

/-! A filter without a key. -/

/-- A fresh filter: its words are 0 (R142), and it has a bit and a round. -/
structure State.Fresh (s : State) : Prop where
  valid : s.cfg.valid = true
  bitLen : s.cfg.bitLen ≠ 0
  hRounds : s.cfg.hRounds.toNat ≠ 0
  words : ∀ j < wordCount s.cfg.bitLen.toNat, s.bv.word j = 0

/-- A filter is fresh by its configuration and its words. -/
theorem State.Fresh.congr {s t : State} (h : s.Fresh) (hcfg : t.cfg = s.cfg) (hbv : t.bv = s.bv) : t.Fresh :=
  ⟨hcfg ▸ h.valid, hcfg ▸ h.bitLen, hcfg ▸ h.hRounds, by rw [hcfg, hbv]; exact h.words⟩

/-- A NEW or NEW.S that reports OK leaves a fresh filter. -/
theorem construct_fresh {s : State} (hl : s.params.legal = true) {seed : Word} {q : Pending}
    (h : (construct seed q s).err = 0) : (construct seed q s).Fresh := by
  rcases construct_cases seed q s with ⟨e, hne, -, hr⟩ | ⟨bitLen, k, hsize, hr⟩ <;> rw [hr] at h ⊢
  · exact absurd (ErrorCode.code_eq_zero.1 h) hne
  · obtain ⟨hpow, -, hk, -⟩ := size_bounds hl hsize
    obtain ⟨hbl, hkn⟩ := size_toNat hl hsize
    refine ⟨rfl, fun hz => ne_zero_of_isPow2 hpow ?_, ?_, fun j hj => ?_⟩
    · rw [← hbl]
      exact congrArg BitVec.toNat hz
    · simp only [State.report_cfg, State.install_cfg, hkn]
      omega
    · simp only [State.report_cfg, State.install_cfg, hbl] at hj
      simp only [State.report_bv, State.install_bv, BitStore.word_clear, if_pos hj]

/-- A filter of at least one bit has its indices within it (R156). -/
theorem State.indicesOf_lt {s : State} (hb : s.cfg.bitLen ≠ 0) (key : List Byte) :
    ∀ w ∈ s.indicesOf key, w.toNat < s.cfg.bitLen.toNat := by
  intro w hw
  obtain ⟨i, -, -, rfl⟩ := mem_indicesFrom.1 hw
  exact hashIndex_lt hb _ i

/-- A key has as many indices as the filter has rounds (R154). -/
theorem State.indicesOf_length (s : State) (key : List Byte) : (s.indicesOf key).length = s.cfg.hRounds.toNat :=
  indicesFrom_length _ _ _ _

/-- A bit of a word that is 0 is 0. -/
theorem BitStore.bit_eq_false {b : BitStore} {i : Nat} (h : b.word (i / 64) = 0) : b.bit i = false := by
  simp [BitStore.bit, h]

/-- EXIST of a key that fits answers the conjunction of its bits (R205, R206). -/
theorem queryKey_eq {s : State} {q : Pending} (hv : s.cfg.valid = true) (hb : s.cfg.bitLen ≠ 0)
    (hlen : q.a0.toNat ≤ s.params.xferBytes) :
    queryKey s q = s.report .ok ((s.indicesOf (s.operandBytes q.a0)).all fun w => s.bv.bit w.toNat) := by
  simp [queryKey, keyError_none.2 ⟨hv, hlen⟩, allBitsSet_eq (s.indicesOf_lt hb _)]

/-- In a fresh filter the bits of no key are all set: the first of them is 0. -/
theorem State.Fresh.all_bits_eq_false {s : State} (h : s.Fresh) (key : List Byte) :
    ((s.indicesOf key).all fun w => s.bv.bit w.toNat) = false := by
  have hlen := s.indicesOf_length key
  obtain ⟨w, hw⟩ := List.exists_mem_of_length_pos (l := s.indicesOf key) (by have := h.hRounds; omega)
  have hbit := BitStore.bit_eq_false (h.words _ (div_lt_wordCount (s.indicesOf_lt h.bitLen key w hw)))
  exact List.all_eq_false.2 ⟨w, hw, by simp [hbit]⟩

/-! The obligations. -/

/-- Settles O40: the state of `construct_ok`, field by field. -/
theorem newInstallsAFreshFilter : Obligations.NewInstallsAFreshFilter := by
  unfold Obligations.NewInstallsAFreshFilter
  intro s q i seed bitLen k hl hp hi hsize
  obtain ⟨hbl, hk⟩ := size_toNat hl hsize
  refine ⟨_, exec_eq_construct hp hi, ?_⟩
  rw [construct_ok hsize]
  refine ⟨by constructor <;> rfl, rfl, hbl, hk, rfl, fun j hj => ?_, fun j hj => ?_, rfl, rfl, rfl, rfl, fun _ => rfl,
    rfl⟩
  · simp only [State.report_bv, State.install_bv, BitStore.word_clear, if_pos hj]
  · simp only [State.report_bv, State.install_bv, BitStore.word_clear, if_neg hj.not_gt]

/-- Settles O41: the state of `construct_error`. -/
theorem failedNewChangesNothing : Obligations.FailedNewChangesNothing := by
  unfold Obligations.FailedNewChangesNothing
  intro s q i e hi hp hsize
  obtain ⟨seed, hexec⟩ := exists_exec_eq_construct hp hi
  rw [hexec, construct_error hsize]
  rfl

/-- Settles O42: every round's bit of a fresh filter is 0, and there is a round. -/
theorem freshFilterHoldsNoKey : Obligations.FreshFilterHoldsNoKey := by
  unfold Obligations.FreshFilterHoldsNoKey
  intro s t u q q' i hl hp hi hexec herr _ hcfg hbv hp' hlen
  obtain ⟨seed, hexec'⟩ := exists_exec_eq_construct hp hi
  cases hexec'.symm.trans hexec
  have hfresh := (construct_fresh hl herr).congr hcfg hbv
  refine ⟨_, exec_pending hp' .exist, ?_⟩
  rw [commandResult, queryKey_eq hfresh.valid hfresh.bitLen hlen, hfresh.all_bits_eq_false]
  exact ⟨rfl, rfl⟩

end Sys2Proof.Machine
end

section
/-! PROOFS. The index sequence: its elements one by one, the mask as a residue, and the odd step of RefHash that keeps
indices apart (41_hash.md R154 to R161). -/

namespace Sys2Proof.Machine

/-! The sequence as a map over the rounds. -/

theorem indicesFrom_eq_map (h : Word × Word) (bitLen : Word) (i k : Nat) :
    indicesFrom h bitLen i k = (List.range' i k).map (hashIndex h bitLen) := by
  induction k generalizing i with
  | zero => rfl
  | succ k ih => rw [indicesFrom, ih, List.range'_succ, List.map_cons]

/-- The i-th index is that of round i (R154). -/
theorem indices_eq_map (h : HashChoice) (seed bitLen : Word) (k : Nat) (key : List Byte) :
    indices h seed k bitLen key = (List.range k).map (hashIndex (baseHash h seed key) bitLen) := by
  rw [indices, indicesFrom_eq_map, List.range_eq_range']

/-! The mask as a residue. -/

/-- Masking with a power of two less one leaves the residue. -/
theorem toNat_and_two_pow_sub_one (x : Word) {b : Nat} (hb : b ≤ 63) :
    (x &&& (BitVec.ofNat 64 (2 ^ b) - 1)).toNat = x.toNat % 2 ^ b := by
  have hlt : 2 ^ b < 2 ^ 64 := Nat.pow_lt_pow_right (by decide) (by omega)
  have hmask : (BitVec.ofNat 64 (2 ^ b) - 1).toNat = 2 ^ b - 1 := by
    have hpos := Nat.two_pow_pos b
    bv_omega
  rw [BitVec.toNat_and, hmask, Nat.and_two_pow_sub_one_eq_mod]

/-- Wrapping at 64 bits does not change a residue modulo `2 ^ b` (R155). -/
theorem toNat_hashIndex_two_pow (h : Word × Word) (i : Nat) {b : Nat} (hb : b ≤ 63) :
    (hashIndex h (BitVec.ofNat 64 (2 ^ b)) i).toNat = (h.1.toNat + i * h.2.toNat) % 2 ^ b := by
  have hdvd : 2 ^ b ∣ 2 ^ 64 := Nat.pow_dvd_pow 2 (by omega)
  have hsum : (h.1 + BitVec.ofNat 64 i * h.2).toNat = (h.1.toNat + i * h.2.toNat) % 2 ^ 64 := by simp
  rw [hashIndex, toNat_and_two_pow_sub_one _ hb, hsum, Nat.mod_mod_of_dvd _ hdvd]

/-! An odd step. -/

/-- RefHash forces the second lane odd (R152). -/
theorem odd_refHash_snd (seed : Word) (key : List Byte) : Odd (refHash seed key).2.toNat := by
  rw [Nat.odd_iff, refHash, BitVec.toNat_or]
  exact Nat.or_mod_two_eq_one.2 (.inr rfl)

/-- With an odd step, the rounds below `bitLength` have different indices: the step is invertible modulo `2 ^ b`. -/
theorem hashIndex_injOn_of_odd {h : Word × Word} (hodd : Odd h.2.toNat) {b i j : Nat} (hb : b ≤ 63) (hi : i < 2 ^ b)
    (hj : j < 2 ^ b)
    (heq : hashIndex h (BitVec.ofNat 64 (2 ^ b)) i = hashIndex h (BitVec.ofNat 64 (2 ^ b)) j) : i = j := by
  have hsum : h.1.toNat + i * h.2.toNat ≡ h.1.toNat + j * h.2.toNat [MOD 2 ^ b] := by
    rw [Nat.ModEq, ← toNat_hashIndex_two_pow h i hb, ← toNat_hashIndex_two_pow h j hb, heq]
  have hcop : Nat.gcd (2 ^ b) h.2.toNat = 1 := (Nat.coprime_two_left.2 hodd).pow_left b
  have hij := Nat.ModEq.cancel_right_of_coprime hcop (Nat.ModEq.add_left_cancel' _ hsum)
  exact hij.eq_of_lt_of_lt hi hj

/-! The obligations. -/

/-- Settles O43: the mask is a residue, and `bitLength` divides the wrapping modulus. -/
theorem maskedIndexIsTheResidue : Obligations.MaskedIndexIsTheResidue := by
  unfold Obligations.MaskedIndexIsTheResidue
  exact fun h b i hb => toNat_hashIndex_two_pow h i hb

/-- Settles O44: the sequence is a map over the rounds, and a masked index is in range. -/
theorem indicesLengthAndRange : Obligations.IndicesLengthAndRange := by
  unfold Obligations.IndicesLengthAndRange
  intro h seed bitLen k key
  refine ⟨indicesFrom_length _ _ _ _, fun i hi => ?_, fun hb w hw => ?_⟩
  · rw [indices_eq_map, List.getElem?_map, List.getElem?_range hi, Option.map_some, hashIndex]
  · obtain ⟨i, -, -, rfl⟩ := mem_indicesFrom.1 hw
    exact hashIndex_lt hb _ i

/-- Settles O45: the rounds are distinct, and the odd step of RefHash keeps their indices so. -/
theorem referenceIndicesAreDistinct : Obligations.ReferenceIndicesAreDistinct := by
  unfold Obligations.ReferenceIndicesAreDistinct
  intro seed b k key hb hk
  rw [indices_eq_map]
  refine List.nodup_range.map_on fun i hi j hj heq => ?_
  exact hashIndex_injOn_of_odd (odd_refHash_snd seed key) hb ((List.mem_range.1 hi).trans_le hk)
    ((List.mem_range.1 hj).trans_le hk) heq

/-- Settles O46: the hash and the indices of R161, evaluated. -/
theorem referenceHashExample : Obligations.ReferenceHashExample := by
  unfold Obligations.ReferenceHashExample
  exact ⟨by decide, by decide⟩

end Sys2Proof.Machine
end

section
/-! PROOFS. The bit vector (42_bitvector.md R183 to R188): one bit set, the bits INSERT sets and EXIST reads, and a
filter's lifetime. -/

namespace Sys2Proof.Machine

/-! The bits that INSERT sets and EXIST reads. -/

/-- A bit access out of range does not happen (R185). -/
theorem State.setBit_eq_none {s : State} {i : Word} (h : s.cfg.bitLen.toNat ≤ i.toNat) : s.setBit i = none :=
  Option.eq_none_iff_forall_ne_some.2 fun _ ht => h.not_gt (State.setBit_some.1 ht).1

/-- INSERT sets the bits of the key's indices, and no other; one that its checks stop sets none (R200, R272). -/
theorem State.Inv.insertKey_bit {s : State} (h : s.Inv) (hf : s.fault = false) (q : Pending) (k : Nat) :
    (insertKey s q).bv.bit k = true ↔ s.bv.bit k = true ∨
      keyError s q = none ∧ ∃ w ∈ s.indicesOf (s.operandBytes q.a0), w.toNat = k := by
  cases hk : keyError s q with
  | some e => simp [insertKey, hk]
  | none =>
    obtain ⟨hv, -⟩ := keyError_none.1 hk
    obtain ⟨t, ht⟩ := setBits_isSome (h.indicesOf_lt hf hv (s.operandBytes q.a0))
    obtain ⟨-, -, -, -, hcover⟩ := setBits_some ht
    obtain ⟨-, hbit⟩ := hcover (h.filter hf hv).2
    simp [insertKey, hk, ht, hbit k]

/-- No INSERT changes a bit outside the filter (R188). -/
theorem State.Inv.insertKey_bit_outside {s : State} (h : s.Inv) (hf : s.fault = false) (q : Pending) {k : Nat}
    (hk : s.cfg.bitLen.toNat ≤ k) : (insertKey s q).bv.bit k = s.bv.bit k := by
  refine Bool.eq_iff_iff.2 ((h.insertKey_bit hf q k).trans (or_iff_left ?_))
  rintro ⟨hnone, w, hw, rfl⟩
  exact hk.not_gt (h.indicesOf_lt hf (keyError_none.1 hnone).1 _ w hw)

/-- EXIST that passes its checks answers the conjunction of the key's bits (R205, R206). -/
theorem State.Inv.queryKey_eq {s : State} (h : s.Inv) (hf : s.fault = false) {q : Pending} (hk : keyError s q = none) :
    queryKey s q = s.report .ok ((s.indicesOf (s.operandBytes q.a0)).all fun w => s.bv.bit w.toNat) := by
  simp [queryKey, hk, allBitsSet_eq (h.indicesOf_lt hf (keyError_none.1 hk).1 _)]

/-- EXIST answers the same over two storages that agree on the bits of the filter (R188). -/
theorem State.Inv.queryKey_result_congr {s : State} {b : BitStore} (h : s.Inv) (hu : State.Inv { s with bv := b })
    (hf : s.fault = false) (q : Pending) (hb : ∀ i < s.cfg.bitLen.toNat, b.bit i = s.bv.bit i) :
    (queryKey s q).result = (queryKey { s with bv := b } q).result := by
  have hk' : keyError { s with bv := b } q = keyError s q := rfl
  cases hk : keyError s q with
  | some e => simp [queryKey, hk', hk]
  | none =>
    rw [h.queryKey_eq hf hk, hu.queryKey_eq hf (hk'.trans hk)]
    have hlt := h.indicesOf_lt hf (keyError_none.1 hk).1 (s.operandBytes q.a0)
    rw [Bool.eq_iff_iff]
    simp only [State.report_result, List.all_eq_true]
    exact forall₂_congr fun w hw => by rw [hb _ (hlt w hw)]

/-! A filter's lifetime. -/

/-- No command raises FAULT in a state of the invariant (R278). -/
theorem engineEffect_fault {s : State} (h : s.Inv) (hf : s.fault = false) (q : Pending) :
    (engineEffect s q).fault = false := by
  cases hd : decode q.cmd with
  | error e => simp [engineEffect, hd, hf]
  | ok i =>
    rw [engineEffect_ok hd]
    cases i with
    | new | newS =>
      rcases construct_cases _ q s with ⟨e, -, -, hr⟩ | ⟨bitLen, k, -, hr⟩ <;> rw [commandResult, hr] <;> exact hf
    | insert =>
      rcases h.insertKey_cases hf q with ⟨e, -, hr⟩ | ⟨-, t, hbits, hr⟩ <;> rw [commandResult, hr]
      · exact hf
      · obtain ⟨-, ht, -⟩ := setBits_some hbits
        rw [ht]
        exact hf
    | exist => rcases h.queryKey_cases hf q with ⟨e, -, hr⟩ | ⟨-, r, hr⟩ <;> rw [commandResult, hr] <;> exact hf
    | serialize => rcases serializeFilter_cases s with ⟨-, hr⟩ | ⟨-, hr⟩ <;> rw [commandResult, hr] <;> exact hf
    | deserialize =>
      rcases deserializeFilter_cases s q with ⟨e, -, hr⟩ | ⟨-, -, hr⟩ <;> rw [commandResult, hr] <;> exact hf

/-- No step raises FAULT in a state of the invariant (R278). -/
theorem step_fault {s t : State} (h : s.Inv) (hf : s.fault = false) (hstep : step s = .next t) : t.fault = false := by
  cases step_effect hstep with
  | @command q rest _ _ _ => exact engineEffect_fault (inv_inbox h rest) hf q
  | observe ho => rw [ho.eq]; exact hf
  | accept _ => rw [State.acceptCmd_frame]; exact hf
  | operand hr _ => rcases hr with rfl | rfl | rfl <;> exact hf
  | buffer _ _ => exact hf
  | reset _ => rfl

/-- The step of a pending INSERT leaves the storage that the command does (R96). -/
theorem step_insert {s t : State} {q : Pending} (h : s.Inv) (hf : s.fault = false) (hm : s.engineMoves)
    (hp : s.pend = some q) (hd : decode q.cmd = .ok .insert) (hstep : step s = .next t) :
    ∃ rest, t = (insertKey { s with inbox := rest } q).retire := by
  obtain ⟨rest, hr⟩ := step_engineMoves h.config hm
  have henabled := engineTurn_enabled (s := { s with inbox := rest }) hf hp
  cases (hr.trans henabled).symm.trans hstep
  exact ⟨rest, by rw [engineEffect_ok hd, commandResult]⟩

/-- A step that ends no lifetime keeps the configuration and every bit that is 1 (R186, R187). -/
theorem step_bits_rise {s t : State} (h : s.Inv) (hf : s.fault = false) (hstep : step s = .next t)
    (hend : ¬ EndsLifetime s t) : t.cfg = s.cfg ∧ ∀ i, s.bv.bit i = true → t.bv.bit i = true := by
  rcases step_filter h hf hstep with ⟨hend', -⟩ | ⟨hcfg, hbv | ⟨hm, q, hp, hd⟩⟩
  · exact absurd hend' hend
  · exact ⟨hcfg, fun i hi => hbv ▸ hi⟩
  · obtain ⟨rest, rfl⟩ := step_insert h hf hm hp hd hstep
    exact ⟨hcfg, fun i hi => ((inv_inbox h rest).insertKey_bit hf q i).2 (.inl hi)⟩

/-- Within a lifetime the invariant holds, no FAULT is raised, the configuration stays, and no bit falls. -/
theorem SameLifetime.bits_rise {s t : State} (hst : SameLifetime s t) (h : s.Inv) (hf : s.fault = false) :
    t.Inv ∧ t.fault = false ∧ t.cfg = s.cfg ∧ ∀ i, s.bv.bit i = true → t.bv.bit i = true := by
  induction hst with
  | refl => exact ⟨h, hf, rfl, fun _ hi => hi⟩
  | step _ hstep hend ih =>
    obtain ⟨hinv, hfault, hcfg, hbits⟩ := ih
    obtain ⟨hcfg', hbits'⟩ := step_bits_rise hinv hfault hstep hend
    exact ⟨stepKeepsTheInvariant _ _ hinv hstep, step_fault hinv hfault hstep, hcfg'.trans hcfg,
      fun i hi => hbits' i (hbits i hi)⟩

/-! The obligations. -/

/-- Settles O47: the word that holds the bit has been written, so setting it changes that bit alone. -/
theorem setBitSetsOneBit : Obligations.SetBitSetsOneBit := by
  unfold Obligations.SetBitSetsOneBit
  intro s i h hf hv
  refine ⟨State.setBit_eq_none, fun hi => ⟨_, State.setBit_some.2 ⟨hi, rfl⟩, rfl, fun k => ?_⟩⟩
  have hword : i.toNat / 64 < s.bv.cleared := (div_lt_wordCount hi).trans_le (h.filter hf hv).2
  exact BitStore.bit_orBit hword k

/-- Settles O51, by induction on the steps of the lifetime. -/
theorem bitsOnlyRiseWithinALifetime : Obligations.BitsOnlyRiseWithinALifetime := by
  unfold Obligations.BitsOnlyRiseWithinALifetime
  intro s t h hf hst
  obtain ⟨-, -, hcfg, hbits⟩ := hst.bits_rise h hf
  exact ⟨hcfg, fun i _ _ hi => hbits i hi⟩

/-- Settles O53: every index of a key is within the filter, for INSERT and for EXIST. -/
theorem tailBitsAreOutsideTheFilter : Obligations.TailBitsAreOutsideTheFilter := by
  unfold Obligations.TailBitsAreOutsideTheFilter
  refine ⟨fun s t h hf _ hexec i hi => ?_, fun s u t v b h hu hf hub hb ht hv => ?_⟩
  · obtain ⟨q, -, rfl⟩ := exec_next hexec
    exact h.insertKey_bit_outside hf q hi
  · subst hub
    obtain ⟨q, hp, rfl⟩ := exec_next ht
    cases (exec_pending (s := { s with bv := b }) hp .exist).symm.trans hv
    exact h.queryKey_result_congr hu hf q hb

end Sys2Proof.Machine
end

section
/-! PROOFS. INSERT and EXIST as whole commands (43_engine.md R200, R205, R206), what EXIST depends on (R211), and that a
key once inserted is found as long as its filter lives (R210). -/

namespace Sys2Proof.Machine

/-! The two commands by their outcome. -/

/-- An INSERT that ends with OK has passed its checks (R272). -/
theorem keyError_of_insertKey_ok {s : State} {q : Pending} (h : (insertKey s q).err = 0) : keyError s q = none := by
  rcases insertKey_cases s q with ⟨e, hne, -, hr⟩ | ⟨hk, -⟩ | ⟨hk, -⟩
  · rw [hr] at h
    exact absurd (ErrorCode.code_eq_zero.1 h) hne
  · exact hk
  · exact hk

/-- An EXIST that ends with OK has passed its checks (R272). -/
theorem keyError_of_queryKey_ok {s : State} {q : Pending} (h : (queryKey s q).err = 0) : keyError s q = none := by
  rcases queryKey_cases s q with ⟨e, hne, -, hr⟩ | ⟨hk, -⟩ | ⟨hk, -⟩
  · rw [hr] at h
    exact absurd (ErrorCode.code_eq_zero.1 h) hne
  · exact hk
  · exact hk

/-- INSERT of a key that passes its checks writes the storage, reports OK, and changes nothing else (R200). -/
theorem State.Inv.insertKey_eq {s : State} (h : s.Inv) (hf : s.fault = false) {q : Pending} (hk : keyError s q = none) :
    insertKey s q = State.report .ok false { s with bv := (insertKey s q).bv } := by
  obtain ⟨t, ht⟩ := setBits_isSome (h.indicesOf_lt hf (keyError_none.1 hk).1 (s.operandBytes q.a0))
  obtain ⟨-, hbv, -⟩ := setBits_some ht
  simp only [insertKey, hk, ht]
  exact congrArg (State.report .ok false) hbv

/-- INSERT of a key that passes its checks keeps the configuration (R200). -/
theorem State.Inv.insertKey_cfg {s : State} (h : s.Inv) (hf : s.fault = false) {q : Pending}
    (hk : keyError s q = none) : (insertKey s q).cfg = s.cfg := by
  rw [h.insertKey_eq hf hk, State.report_cfg]

/-! A key whose bits are all 1. -/

/-- Every bit of the key is 1: what EXIST asks of a filter (R205). -/
def State.HoldsKey (s : State) (key : List Byte) : Prop := ∀ w ∈ s.indicesOf key, s.bv.bit w.toNat = true

/-- The indices of a key depend on the base hash and `CFG` alone (R158). -/
theorem State.indicesOf_congr {s u : State} (hhash : u.params.hash = s.params.hash) (hcfg : u.cfg = s.cfg)
    (key : List Byte) : u.indicesOf key = s.indicesOf key := by
  rw [State.indicesOf, State.indicesOf, hhash, hcfg]

/-- EXIST of a key that passes its checks answers 1 exactly where every bit of the key is 1 (R205). -/
theorem State.Inv.queryKey_result_iff {s : State} (h : s.Inv) (hf : s.fault = false) {q : Pending}
    (hk : keyError s q = none) : (queryKey s q).result = true ↔ s.HoldsKey (s.operandBytes q.a0) := by
  rw [h.queryKey_eq hf hk]
  exact List.all_eq_true

/-- Whether a filter holds a key depends on the base hash, `CFG` and the filter's words alone (R211). -/
theorem State.Inv.holdsKey_congr {s u : State} (h : s.Inv) (hf : s.fault = false) (hv : s.cfg.valid = true)
    (hhash : u.params.hash = s.params.hash) (hcfg : u.cfg = s.cfg)
    (hwords : ∀ j < wordCount s.cfg.bitLen.toNat, u.bv.word j = s.bv.word j) (key : List Byte) :
    u.HoldsKey key ↔ s.HoldsKey key := by
  rw [State.HoldsKey, State.indicesOf_congr hhash hcfg]
  refine forall₂_congr fun w hw => ?_
  rw [BitStore.bit, hwords _ (div_lt_wordCount (h.indicesOf_lt hf hv key w hw)), BitStore.bit]

/-- A filter holds the key of an INSERT that passes its checks (R200). -/
theorem State.Inv.insertKey_holdsKey {s : State} (h : s.Inv) (hf : s.fault = false) {q : Pending}
    (hk : keyError s q = none) : (insertKey s q).HoldsKey (s.operandBytes q.a0) := by
  intro w hw
  rw [State.indicesOf_congr (congrArg Params.hash (insertKey_frame s q).params) (h.insertKey_cfg hf hk)] at hw
  exact (h.insertKey_bit hf q _).2 (.inr ⟨hk, w, hw, rfl⟩)

/-- The step of a pending INSERT that ends with OK leaves the configuration, and a filter that holds the key (R200). -/
theorem step_insert_holdsKey {s t : State} {q : Pending} (h : s.Inv) (hf : s.fault = false) (hm : s.engineMoves)
    (hp : s.pend = some q) (hd : decode q.cmd = .ok .insert) (hstep : step s = .next t) (herr : t.err = 0) :
    keyError s q = none ∧ t.cfg = s.cfg ∧ t.HoldsKey (s.operandBytes q.a0) := by
  obtain ⟨rest, rfl⟩ := step_insert h hf hm hp hd hstep
  have hi := inv_inbox h rest
  have hk := keyError_of_insertKey_ok herr
  exact ⟨hk, hi.insertKey_cfg hf hk, hi.insertKey_holdsKey hf hk⟩

/-! The key within a lifetime. -/

/-- No step changes the parameters (R7). -/
theorem step_params {s t : State} (h : step s = .next t) : t.params = s.params := by
  cases step_effect h with
  | @command q rest _ _ _ => exact (engineEffect_frame { s with inbox := rest } q).params
  | observe ho => rw [ho.eq]
  | accept _ => rw [State.acceptCmd_frame]
  | operand _ _ => rw [State.writeReg_params]
  | buffer _ _ => rfl
  | reset _ => rfl

/-- Within a lifetime the parameters stay. -/
theorem SameLifetime.params {s t : State} (hst : SameLifetime s t) : t.params = s.params := by
  induction hst with
  | refl => rfl
  | step _ hstep _ ih => exact (step_params hstep).trans ih

/-- Within a lifetime a filter that holds a key goes on holding it (R210). -/
theorem SameLifetime.holdsKey {s t : State} (hst : SameLifetime s t) (h : s.Inv) (hf : s.fault = false)
    {key : List Byte} (hkey : s.HoldsKey key) : t.HoldsKey key := by
  obtain ⟨-, -, hcfg, hbits⟩ := hst.bits_rise h hf
  intro w hw
  rw [State.indicesOf_congr (congrArg Params.hash hst.params) hcfg] at hw
  exact hbits _ (hkey w hw)

/-- Two reads of the same bytes are equally long. -/
theorem State.memRead_length_eq {s u : State} {a b m n : Nat} (h : u.memRead a m = s.memRead b n) : m = n := by
  simpa [State.memRead] using congrArg List.length h

/-! The obligations. -/

/-- Settles O48: the command's outcome with its checks passed, and the bits it sets. -/
theorem insertSetsExactlyTheIndexedBits : Obligations.InsertSetsExactlyTheIndexedBits := by
  unfold Obligations.InsertSetsExactlyTheIndexedBits
  intro s q h hf hv hp hlen
  have hk := keyError_none.2 ⟨hv, hlen⟩
  refine ⟨_, (exec_pending hp .insert).trans (congrArg _ (h.insertKey_eq hf hk)), by constructor <;> rfl, rfl, rfl, rfl,
    rfl, rfl, fun _ => rfl, rfl, fun i => ?_⟩
  calc (insertKey s q).bv.bit i = true
    _ ↔ s.bv.bit i = true ∨ keyError s q = none ∧ ∃ w ∈ s.indicesOf (s.operandBytes q.a0), w.toNat = i :=
      h.insertKey_bit hf q i
    _ ↔ s.bv.bit i = true ∨ ∃ w ∈ s.indicesOf (s.operandBytes q.a0), w.toNat = i := or_congr_right (and_iff_right hk)

/-- Settles O49: EXIST answers the conjunction of the key's bits. -/
theorem existTestsEveryIndexedBit : Obligations.ExistTestsEveryIndexedBit := by
  unfold Obligations.ExistTestsEveryIndexedBit
  intro s q h hf hv hp hlen
  have hquery := h.queryKey_eq hf (keyError_none.2 ⟨hv, hlen⟩)
  exact ⟨_, (exec_pending hp .exist).trans (congrArg _ hquery), List.all_eq_true⟩

/-- Settles O50: both answers say whether the same bits of the same words are 1. -/
theorem existDependsOnFilterAndKeyAlone : Obligations.ExistDependsOnFilterAndKeyAlone := by
  unfold Obligations.ExistDependsOnFilterAndKeyAlone
  intro s u v q q' t h hu hf hfu hhash hcfg hwords hp hp' hkey ht hv hterr hverr
  cases (exec_pending hp .exist).symm.trans ht
  cases (exec_pending hp' .exist).symm.trans hv
  have hk := keyError_of_queryKey_ok hterr
  have hk' := keyError_of_queryKey_ok hverr
  have hsame := h.holdsKey_congr hf (keyError_none.1 hk).1 hhash.symm hcfg.symm fun j hj => (hwords j hj).symm
  refine Bool.eq_iff_iff.2 ?_
  calc (queryKey s q).result = true
    _ ↔ s.HoldsKey (s.memRead 0 q.a0.toNat) := h.queryKey_result_iff hf hk
    _ ↔ u.HoldsKey (u.memRead 0 q'.a0.toNat) := hkey ▸ (hsame _).symm
    _ ↔ (queryKey u q').result = true := (hu.queryKey_result_iff hfu hk').symm

/-- Settles O52: the INSERT leaves a filter that holds the key, the lifetime keeps it, and EXIST asks for no more. -/
theorem noFalseNegatives : Obligations.NoFalseNegatives := by
  unfold Obligations.NoFalseNegatives
  intro s t u q q' h hf hp hd hm hstep herr hlife hp' hkey
  obtain ⟨hk, hcfg, hholds⟩ := step_insert_holdsKey h hf hm hp hd hstep herr
  obtain ⟨hvalid, hlen⟩ := keyError_none.1 hk
  have ht := stepKeepsTheInvariant _ _ h hstep
  have htf := step_fault h hf hstep
  obtain ⟨hu, huf, hcfg', -⟩ := hlife.bits_rise ht htf
  have hku : keyError u q' = none := by
    refine keyError_none.2 ⟨?_, ?_⟩
    · rw [hcfg', hcfg, hvalid]
    · rw [State.memRead_length_eq hkey, hlife.params, step_params hstep]
      exact hlen
  have huholds : u.HoldsKey (u.operandBytes q'.a0) := by
    rw [State.operandBytes, hkey]
    exact hlife.holdsKey ht htf hholds
  refine ⟨_, exec_pending hp' .exist, ?_, (hu.queryKey_result_iff huf hku).2 huholds⟩
  rw [commandResult, hu.queryKey_eq huf hku]
  rfl

end Sys2Proof.Machine
end

section
/-! PROOFS. The codec (44_codec.md R230 to R241): that taking an image apart and putting it together are inverse to each
other (30_encoding.md R100), SERIALIZE and DESERIALIZE as whole commands, and the two round trips. -/

namespace Sys2Proof.Machine

/-! The header. -/

/-- The check of R235 says that the declared length is a power of two. -/
theorem isPow2_iff {n : Nat} : isPow2 n = true ↔ ∃ e, n = 2 ^ e := by
  rw [isPow2, Bool.and_eq_true, bne_iff_ne, beq_iff_eq]
  exact Nat.ne_zero_and_sub_one_eq_zero_iff_isPowerOfTwo

theorem isPow2_eq_false_iff {n : Nat} : isPow2 n = false ↔ ¬ ∃ e, n = 2 ^ e := by
  rw [← isPow2_iff, Bool.not_eq_true]

/-- The fields of a header stand side by side, each a whole number of bytes (R7, R100). -/
theorem Params.field_bytes {p : Params} (hp : p.legal = true) :
    8 * (p.wBL / 8) = p.wBL ∧ 8 * (p.wHR / 8) = p.wHR ∧ 8 * (p.wSeed / 8) = p.wSeed ∧
    (p.wBL + p.wHR) / 8 = p.wBL / 8 + p.wHR / 8 ∧ p.hdr = p.wBL / 8 + p.wHR / 8 + p.wSeed / 8 := by
  obtain ⟨hBL, hHR, hSeed, -⟩ := Params.legal_spec hp
  unfold Params.hdr
  omega

/-- A value that fits its bytes is read back from them. -/
theorem fromLE_leBytes_of_lt {n v : Nat} (h : v < 2 ^ (8 * n)) : fromLE (leBytes n v) = v := by
  rw [fromLE_leBytes, Nat.mod_eq_of_lt h]

/-- Bytes that are read and written again are the same bytes, where there are enough of them. -/
theorem leBytes_fromLE_take {n : Nat} {bs : List Byte} (h : n ≤ bs.length) :
    leBytes n (fromLE (bs.take n)) = bs.take n := by
  simpa [h] using leBytes_fromLE (bs.take n)

/-- The fields of a header are held in their registers as they are (R100). -/
theorem headerOf_toNat {p : Params} (hp : p.legal = true) (img : List Byte) :
    (BitVec.ofNat 64 (headerOf p img).bitLen).toNat = (headerOf p img).bitLen ∧
    (BitVec.ofNat 64 (headerOf p img).hRounds).toNat = (headerOf p img).hRounds ∧
    (BitVec.ofNat 64 (headerOf p img).seed).toNat = (headerOf p img).seed := by
  obtain ⟨hBL, hHR, hSeed, -⟩ := Params.legal_spec hp
  obtain ⟨hk, hseed⟩ := headerOf_lt hp img
  exact ⟨toNat_ofNat_of_lt_width (by omega) (fromLE_take_lt (p.wBL / 8) img),
    toNat_ofNat_of_lt_width (by omega) hk, toNat_ofNat_of_lt_width (by omega) hseed⟩

/-! An image taken apart. -/

/-- The header of an image is its configuration (R100). -/
theorem headerOf_imageOf {p : Params} (hp : p.legal = true) {c : FilterCfg} (hc : c.Fits p) (ws : List Word) :
    headerOf p (imageOf p c ws) = ⟨c.bitLen.toNat, c.hRounds.toNat, c.seed.toNat⟩ := by
  obtain ⟨hBL, hHR, hSeed, hsum, -⟩ := Params.field_bytes hp
  obtain ⟨hbl, hk, hseed⟩ := hc
  rw [← hBL] at hbl
  rw [← hHR] at hk
  rw [← hSeed] at hseed
  simp only [headerOf, imageOf, hsum, List.append_assoc, ← List.drop_drop, List.take_left' (leBytes_length _ _),
    List.drop_left' (leBytes_length _ _), fromLE_leBytes_of_lt hbl, fromLE_leBytes_of_lt hk,
    fromLE_leBytes_of_lt hseed]

/-- Past its header an image is its words. -/
theorem drop_hdr_imageOf {p : Params} (hp : p.legal = true) (c : FilterCfg) (ws : List Word) :
    (imageOf p c ws).drop p.hdr = ws.flatMap fun w => leBytes 8 w.toNat := by
  obtain ⟨-, -, -, -, hhdr⟩ := Params.field_bytes hp
  exact List.drop_left' (by simp only [List.length_append, leBytes_length, hhdr])

/-- Words that are written and read again are the same words. -/
theorem wordsFrom_flatMap_leBytes (ws : List Word) :
    wordsFrom ws.length (ws.flatMap fun w => leBytes 8 w.toNat) = ws := by
  induction ws with
  | nil => rfl
  | cons w ws ih =>
    rw [List.flatMap_cons, List.length_cons, wordsFrom, List.take_left' (leBytes_length _ _),
      List.drop_left' (leBytes_length _ _), ih, fromLE_leBytes_of_lt w.isLt, BitVec.ofNat_toNat, BitVec.setWidth_eq]

/-! An image put together again. -/

/-- Bytes that are read as words and written again are the same bytes. -/
theorem flatMap_leBytes_wordsFrom {n : Nat} {bs : List Byte} (h : bs.length = 8 * n) :
    ((wordsFrom n bs).flatMap fun w => leBytes 8 w.toNat) = bs := by
  induction n generalizing bs with
  | zero => exact (List.length_eq_zero_iff.1 h).symm
  | succ n ih =>
    have hword := toNat_ofNat_of_lt_width (w := 64) le_rfl (fromLE_take_lt 8 bs)
    rw [wordsFrom, List.flatMap_cons, hword, leBytes_fromLE_take (by omega), ih (by rw [List.length_drop]; omega),
      List.take_append_drop]

/-- An image is its header's fields and its words, written again (R100, R241). -/
theorem imageOf_headerOf {p : Params} (hp : p.legal = true) {img : List Byte} {n : Nat}
    (hlen : img.length = p.hdr + 8 * n) :
    imageOf p ⟨true, BitVec.ofNat 64 (headerOf p img).bitLen, BitVec.ofNat 64 (headerOf p img).hRounds,
      BitVec.ofNat 64 (headerOf p img).seed⟩ (wordsFrom n (img.drop p.hdr)) = img := by
  obtain ⟨-, -, -, hsum, hhdr⟩ := Params.field_bytes hp
  obtain ⟨hbl, hk, hseed⟩ := headerOf_toNat hp img
  have hwords := flatMap_leBytes_wordsFrom (n := n) (bs := img.drop p.hdr) (by rw [List.length_drop]; omega)
  simp only [imageOf, hbl, hk, hseed, hwords]
  calc leBytes (p.wBL / 8) (headerOf p img).bitLen ++ leBytes (p.wHR / 8) (headerOf p img).hRounds ++
        leBytes (p.wSeed / 8) (headerOf p img).seed ++ img.drop p.hdr
    _ = img.take (p.wBL / 8) ++ (img.drop (p.wBL / 8)).take (p.wHR / 8) ++
          ((img.drop (p.wBL / 8)).drop (p.wHR / 8)).take (p.wSeed / 8) ++ img.drop p.hdr := by
      simp only [headerOf, hsum, ← List.drop_drop]
      rw [leBytes_fromLE_take (by omega), leBytes_fromLE_take (by rw [List.length_drop]; omega),
        leBytes_fromLE_take (by simp only [List.length_drop]; omega)]
    _ = img := by
      simp only [hhdr, ← List.drop_drop, List.append_assoc, List.take_append_drop]

/-! SERIALIZE. -/

/-- SERIALIZE of a filter (R230). -/
theorem serializeFilter_eq {s : State} (hv : s.cfg.valid = true) :
    serializeFilter s =
      State.report .ok false { s.memWrite 0 s.image with outlen := BitVec.ofNat 64 s.image.length } := by
  rw [serializeFilter, if_pos hv]

/-- The image that SERIALIZE writes stands at offset 0 of XFER (R230). -/
theorem memRead_serializeFilter {s : State} (hv : s.cfg.valid = true) :
    (serializeFilter s).memRead 0 s.image.length = s.image := by
  rw [serializeFilter_eq hv]
  exact s.memRead_memWrite 0 s.image

/-- The length that SERIALIZE writes to OUTLEN (R29, R230). -/
theorem State.Inv.serializeFilter_outlen {s : State} (h : s.Inv) (hf : s.fault = false) (hv : s.cfg.valid = true) :
    (serializeFilter s).outlen.toNat = s.image.length := by
  rw [serializeFilter_eq hv]
  exact h.image_length_toNat hf hv

/-- The image depends on the parameters, the configuration and the words alone (R232). -/
theorem State.image_congr {s u : State} (hp : u.params = s.params) (hcfg : u.cfg = s.cfg) (hbv : u.bv = s.bv) :
    u.image = s.image := by
  rw [State.image, State.image, hp, hcfg, hbv]

/-! DESERIALIZE. -/

/-- A length that the transfer buffer cannot hold is BAD_LENGTH (R94, R272). -/
theorem exec_deserialize_badLength {s : State} {q : Pending} (hp : s.pend = some q)
    (h : s.params.xferBytes < q.a0.toNat) : exec .deserialize s = .next (s.fail .badLength) := by
  rw [exec_pending hp, commandResult, deserializeFilter, lengthOk, if_neg (by simpa using h)]

/-- Past the length check the image's own error is reported (R272). -/
theorem exec_deserialize_error {s : State} {q : Pending} {e : ErrorCode} (hp : s.pend = some q)
    (hlen : q.a0.toNat ≤ s.params.xferBytes)
    (h : imageError s.params q.a0.toNat (s.operandBytes q.a0) = some e) :
    exec .deserialize s = .next (s.fail e) := by
  rw [exec_pending hp, commandResult, deserializeFilter, lengthOk, if_pos (by simpa using hlen), h]

/-- An image without an error is loaded (R238). -/
theorem exec_deserialize_ok {s : State} {q : Pending} (hp : s.pend = some q)
    (hlen : q.a0.toNat ≤ s.params.xferBytes) (h : imageError s.params q.a0.toNat (s.operandBytes q.a0) = none) :
    exec .deserialize s = .next ((loadImage (s.operandBytes q.a0) s).report .ok false) := by
  rw [exec_pending hp, commandResult, deserializeFilter, lengthOk, if_pos (by simpa using hlen), h]

/-! The errors of an image, in the order of R272, each with the checks before it passed. -/

section
variable {p : Params} {len : Nat} {img : List Byte}

/-- A header cut short (R234). -/
theorem imageError_of_lt_hdr (h : len < p.hdr) : imageError p len img = some .decodeError := if_pos h

/-- A declared length that is no power of two (R235). -/
theorem imageError_of_bitLen (hhdr : p.hdr ≤ len) (h : ¬ ∃ e, (headerOf p img).bitLen = 2 ^ e) :
    imageError p len img = some .decodeError := by
  rw [imageError, if_neg hhdr.not_gt, if_pos (isPow2_eq_false_iff.2 h)]

/-- What is checked of an image whose declared length is a power of two. -/
theorem imageError_of_two_pow (hhdr : p.hdr ≤ len) (hpow : ∃ e, (headerOf p img).bitLen = 2 ^ e) :
    imageError p len img =
      if (headerOf p img).hRounds = 0 then some .decodeError
      else if p.capBits < (headerOf p img).bitLen then some .capacityExceeded
      else if len < p.imageLen (headerOf p img).bitLen then some .decodeError
      else if p.imageLen (headerOf p img).bitLen < len then some .decodeError
      else none := by
  rw [imageError, if_neg hhdr.not_gt, if_neg fun h => isPow2_eq_false_iff.1 h hpow]

/-- A declared round count of 0 (R235). -/
theorem imageError_of_hRounds (hhdr : p.hdr ≤ len) (hpow : ∃ e, (headerOf p img).bitLen = 2 ^ e)
    (h : (headerOf p img).hRounds = 0) : imageError p len img = some .decodeError := by
  rw [imageError_of_two_pow hhdr hpow, if_pos h]

/-- A declared length above the capacity (R236). -/
theorem imageError_of_capBits (hhdr : p.hdr ≤ len) (hpow : ∃ e, (headerOf p img).bitLen = 2 ^ e)
    (hk : (headerOf p img).hRounds ≠ 0) (h : p.capBits < (headerOf p img).bitLen) :
    imageError p len img = some .capacityExceeded := by
  rw [imageError_of_two_pow hhdr hpow, if_neg hk, if_pos h]

/-- Words cut short, or bytes after them (R234, R237). -/
theorem imageError_of_length (hhdr : p.hdr ≤ len) (hpow : ∃ e, (headerOf p img).bitLen = 2 ^ e)
    (hk : (headerOf p img).hRounds ≠ 0) (hcap : (headerOf p img).bitLen ≤ p.capBits)
    (h : len ≠ p.imageLen (headerOf p img).bitLen) : imageError p len img = some .decodeError := by
  rw [imageError_of_two_pow hhdr hpow, if_neg hk, if_neg hcap.not_gt]
  rcases Nat.lt_or_gt_of_ne h with hshort | hlong
  · rw [if_pos hshort]
  · rw [if_neg hlong.not_gt, if_pos hlong]

/-- A well-formed image has no error (R234 to R237). -/
theorem imageError_of_wf (hpow : ∃ e, (headerOf p img).bitLen = 2 ^ e) (hk : (headerOf p img).hRounds ≠ 0)
    (hcap : (headerOf p img).bitLen ≤ p.capBits) (hlen : len = p.imageLen (headerOf p img).bitLen) :
    imageError p len img = none := by
  have hhdr : p.hdr ≤ len := hlen ▸ Nat.le_add_right _ _
  rw [imageError_of_two_pow hhdr hpow, if_neg hk, if_neg hcap.not_gt, if_neg hlen.not_lt, if_neg hlen.not_gt]

end

/-! A loaded image. -/

/-- The words of a loaded filter are the image's, and no other word changes (R238). -/
theorem loadImage_word (img : List Byte) (s : State) (j : Nat) :
    (loadImage img s).bv.word j =
      if j < wordCount (headerOf s.params img).bitLen then
        (wordsFrom (wordCount (headerOf s.params img).bitLen) (img.drop s.params.hdr)).getD j 0
      else s.bv.word j := by
  rw [loadImage, State.install_bv, BitStore.word_load, wordsFrom_length]

/-- A word of a loaded filter as its bytes in the image (R100, R238). -/
theorem loadImage_word_toNat {img : List Byte} {s : State} {j : Nat}
    (hj : j < wordCount (headerOf s.params img).bitLen) :
    ((loadImage img s).bv.word j).toNat = fromLE ((img.drop (s.params.hdr + 8 * j)).take 8) := by
  rw [loadImage_word, if_pos hj, wordsFrom_getD hj, List.drop_drop]
  exact toNat_ofNat_of_lt_width (w := 64) le_rfl (fromLE_take_lt 8 _)

/-- A storage's words right after they are loaded. -/
theorem BitStore.words_load (b : BitStore) (ws : List Word) : (b.load ws).words ws.length = ws := by
  refine List.ext_getElem (by simp [BitStore.words]) fun j h1 h2 => ?_
  simp [BitStore.words, BitStore.word_load, List.getD, h2]

/-- A filter loaded from an image has that image (R241). -/
theorem image_loadImage {s : State} (hl : s.params.legal = true) {img : List Byte}
    (hlen : img.length = s.params.imageLen (headerOf s.params img).bitLen) : (loadImage img s).image = img := by
  obtain ⟨hbl, -, -⟩ := headerOf_toNat hl img
  have hwords := BitStore.words_load s.bv
    (wordsFrom (wordCount (headerOf s.params img).bitLen) (img.drop s.params.hdr))
  rw [wordsFrom_length] at hwords
  simp only [State.image, loadImage, State.install_params, State.install_cfg, State.install_bv, hbl, hwords]
  exact imageOf_headerOf hl hlen

/-- A filter's image is well formed (R240). -/
theorem State.Inv.imageError_image {s : State} (h : s.Inv) (hf : s.fault = false) (hv : s.cfg.valid = true) :
    imageError s.params s.image.length s.image = none := by
  obtain ⟨⟨hpow, hcap, hk⟩, -⟩ := h.filter hf hv
  have hhead : headerOf s.params s.image = _ := headerOf_imageOf h.config h.fits _
  apply imageError_of_wf <;> rw [hhead]
  · exact isPow2_iff.1 hpow
  · exact Nat.one_le_iff_ne_zero.1 hk
  · exact hcap
  · exact State.image_length h.config

/-- Loading a filter's image gives its configuration (R240). -/
theorem State.Inv.loadImage_image_cfg {s u : State} (h : s.Inv) (hv : s.cfg.valid = true) (hp : u.params = s.params) :
    (loadImage s.image u).cfg = s.cfg := by
  rw [loadImage, State.install_cfg, hp, State.image, headerOf_imageOf h.config h.fits]
  simp [← hv]

/-- Loading a filter's image gives its words (R240). -/
theorem State.Inv.loadImage_image_word {s u : State} (h : s.Inv) (hp : u.params = s.params) {j : Nat}
    (hj : j < wordCount s.cfg.bitLen.toNat) : (loadImage s.image u).bv.word j = s.bv.word j := by
  have hwords := wordsFrom_flatMap_leBytes (s.bv.words (wordCount s.cfg.bitLen.toNat))
  rw [BitStore.words, List.length_map, List.length_range, ← BitStore.words] at hwords
  rw [loadImage_word, hp, State.image, headerOf_imageOf h.config h.fits, if_pos hj, drop_hdr_imageOf h.config, hwords,
    BitStore.words_getD _ hj]

/-! The obligations. -/

/-- Settles O54: the state of `serializeFilter_eq`, field by field. -/
theorem serializeWritesTheImage : Obligations.SerializeWritesTheImage := by
  unfold Obligations.SerializeWritesTheImage
  intro s q h hf hv hp
  refine ⟨serializeFilter s, s.image, exec_pending hp .serialize, ?_⟩
  have himg : s.image = leBytes (s.params.wBL / 8) s.cfg.bitLen.toNat ++
      leBytes (s.params.wHR / 8) s.cfg.hRounds.toNat ++ leBytes (s.params.wSeed / 8) s.cfg.seed.toNat ++
      ((List.range (wordCount s.cfg.bitLen.toNat)).flatMap fun j => leBytes 8 (s.bv.word j).toNat) := by
    rw [State.image, imageOf, BitStore.words, List.flatMap_map]
  have hread := memRead_serializeFilter hv
  have hout := h.serializeFilter_outlen hf hv
  rw [serializeFilter_eq hv] at hread hout ⊢
  exact ⟨by constructor <;> rfl, rfl, rfl, rfl, rfl, rfl, himg, State.image_length h.config, h.image_length_le hf hv,
    hout, hread, fun a ha => State.xferByte_memWrite_outside s (.inr (by omega))⟩

/-- Settles O56: the state of `exec_deserialize_ok`, field by field. -/
theorem deserializeLoadsTheImage : Obligations.DeserializeLoadsTheImage := by
  unfold Obligations.DeserializeLoadsTheImage
  rintro s q _ _ _ _ hl hp hlen rfl rfl rfl rfl - hpow hk hcap hsize
  have hnone : imageError s.params q.a0.toNat (s.operandBytes q.a0) = none :=
    imageError_of_wf hpow hk hcap hsize
  obtain ⟨hbl, hrounds, hseed⟩ := headerOf_toNat hl (s.operandBytes q.a0)
  exact ⟨_, exec_deserialize_ok hp hlen hnone, by constructor <;> rfl, rfl, hbl, hrounds, hseed,
    fun _ hj => loadImage_word_toNat hj, fun j hj => (loadImage_word _ s j).trans (if_neg (Nat.not_lt.2 hj)),
    rfl, rfl, rfl, rfl, fun _ => rfl, rfl⟩

/-- Settles O57: the checks of `imageError` one after another, each with those before it passed. -/
theorem deserializeErrorsInOrder : Obligations.DeserializeErrorsInOrder := by
  unfold Obligations.DeserializeErrorsInOrder
  rintro s q _ _ _ hp rfl rfl rfl
  refine ⟨fun h => exec_deserialize_badLength hp h, fun hlen => ?_⟩
  have hfail {e : ErrorCode} := exec_deserialize_error (e := e) hp hlen
  exact ⟨fun h => hfail (imageError_of_lt_hdr h), fun hhdr => ⟨fun h => hfail (imageError_of_bitLen hhdr h),
    fun hpow => ⟨fun h => hfail (imageError_of_hRounds hhdr hpow h), fun hk =>
      ⟨fun h => hfail (imageError_of_capBits hhdr hpow hk h),
        fun hcap h => hfail (imageError_of_length hhdr hpow hk hcap h)⟩⟩⟩⟩

/-- Settles O58: the image is well formed, and taking it apart gives back what it was made of. -/
theorem roundTripKeepsTheFilter : Obligations.RoundTripKeepsTheFilter := by
  unfold Obligations.RoundTripKeepsTheFilter
  intro s t u q h hf hv hexec hparams hp ha0 hread
  obtain ⟨q', -, rfl⟩ := exec_next hexec
  rw [commandResult] at ha0 hread
  have hlen : q.a0.toNat = s.image.length := by rw [ha0, h.serializeFilter_outlen hf hv]
  have hbytes : u.operandBytes q.a0 = s.image := by
    rw [State.operandBytes, ha0, hread, h.serializeFilter_outlen hf hv, memRead_serializeFilter hv]
  have hfits : q.a0.toNat ≤ u.params.xferBytes := by
    rw [hlen, hparams]
    exact h.image_length_le hf hv
  have hnone : imageError u.params q.a0.toNat (u.operandBytes q.a0) = none := by
    rw [hbytes, hlen, hparams]
    exact h.imageError_image hf hv
  have hword : ∀ j < wordCount s.cfg.bitLen.toNat, (loadImage s.image u).bv.word j = s.bv.word j :=
    fun _ => h.loadImage_image_word hparams
  refine ⟨_, exec_deserialize_ok hp hfits hnone, ?_⟩
  rw [hbytes]
  refine ⟨rfl, h.loadImage_image_cfg hv hparams, hword, fun i hi => ?_⟩
  rw [State.report_bv, BitStore.bit, hword _ (div_lt_wordCount hi), BitStore.bit]

/-- Settles O59: the loaded filter's image is the one that was loaded. -/
theorem roundTripKeepsTheImage : Obligations.RoundTripKeepsTheImage := by
  unfold Obligations.RoundTripKeepsTheImage
  intro s t u q q' hl hp hexec herr hparams hcfg hbv hp'
  cases (exec_pending hp .deserialize).symm.trans hexec
  rw [commandResult] at herr hparams hcfg hbv
  rcases deserializeFilter_cases s q with ⟨e, he, hr⟩ | ⟨-, hnone, hr⟩ <;> rw [hr] at herr hparams hcfg hbv
  · exact absurd (ErrorCode.code_eq_zero.1 herr) he
  · obtain ⟨-, -, -, hsize⟩ := imageError_none hnone
    have hlen : (s.operandBytes q.a0).length = q.a0.toNat := s.memRead_length 0 _
    have himg : u.image = s.operandBytes q.a0 :=
      (State.image_congr hparams hcfg hbv).trans (image_loadImage hl (hlen.trans hsize))
    have hvalid : u.cfg.valid = true := by rw [hcfg]; rfl
    have hread := memRead_serializeFilter hvalid
    rw [himg, hlen] at hread
    refine ⟨_, exec_pending hp' .serialize, ?_, ?_, hread⟩ <;> rw [commandResult, serializeFilter_eq hvalid]
    · rfl
    · simp only [State.report_outlen, himg, hlen, BitVec.ofNat_toNat, BitVec.setWidth_eq]

end Sys2Proof.Machine
end

section
/-! PROOFS. Errors and FAULT (60_exceptions.md R270 to R278): everything a command can report, the order of the
checks of INSERT and EXIST, what raises FAULT, and what a faulted block still does. -/

namespace Sys2Proof.Machine

/-! What a command reports. -/

/-- Everything a command can report (R271): an error, with no other effect but the OUTLEN of a SERIALIZE and the draw
counter (log entry 4); a success, with RESULT for EXIST alone; or the FAULT of R276. -/
inductive CommandReport (i : Instr) (s : State) : State → Prop where
  | error {e : ErrorCode} {d : Nat} {n : Word} (failed : e ≠ .ok)
      (outlen : n = if i = .serialize then 0 else s.outlen) :
      CommandReport i s (State.fail e { s with draws := d, outlen := n })
  | success {t : State} {r : Bool} (answers : r = true → i = .exist) : CommandReport i s (t.report .ok r)
  | fault {r : FaultReason} : CommandReport i s (s.raiseFault r)

theorem construct_report {i : Instr} (hi : i ≠ .serialize) (seed : Word) (q : Pending) (s : State) :
    CommandReport i s (construct seed q s) := by
  rcases construct_cases seed q s with ⟨e, he, -, hr⟩ | ⟨bitLen, k, -, hr⟩ <;> rw [hr]
  · exact .error he (if_neg hi).symm
  · exact .success (by simp)

theorem insertKey_report (s : State) (q : Pending) : CommandReport .insert s (insertKey s q) := by
  rcases insertKey_cases s q with ⟨e, he, -, hr⟩ | ⟨-, t, -, hr⟩ | ⟨-, -, hr⟩ <;> rw [hr]
  · exact .error he rfl
  · exact .success (by simp)
  · exact .fault

theorem queryKey_report (s : State) (q : Pending) : CommandReport .exist s (queryKey s q) := by
  rcases queryKey_cases s q with ⟨e, he, -, hr⟩ | ⟨-, r, -, hr⟩ | ⟨-, -, hr⟩ <;> rw [hr]
  · exact .error he rfl
  · exact .success fun _ => rfl
  · exact .fault

theorem serializeFilter_report (s : State) : CommandReport .serialize s (serializeFilter s) := by
  rcases serializeFilter_cases s with ⟨-, hr⟩ | ⟨-, hr⟩ <;> rw [hr]
  · exact .error (by decide) rfl
  · exact .success (by simp)

theorem deserializeFilter_report (s : State) (q : Pending) :
    CommandReport .deserialize s (deserializeFilter s q) := by
  rcases deserializeFilter_cases s q with ⟨e, he, hr⟩ | ⟨-, -, hr⟩ <;> rw [hr]
  · exact .error he rfl
  · exact .success (by simp)

theorem commandResult_report (i : Instr) (s : State) (q : Pending) : CommandReport i s (commandResult i s q) := by
  cases i with
  | new => exact construct_report (by decide) _ q s
  | newS => exact construct_report (by decide) _ q s
  | insert => exact insertKey_report s q
  | exist => exact queryKey_report s q
  | serialize => exact serializeFilter_report s
  | deserialize => exact deserializeFilter_report s q

/-- Every command that is executed reports so. -/
theorem exec_report {i : Instr} {s t : State} (h : exec i s = .next t) : CommandReport i s t := by
  obtain ⟨q, -, ht⟩ := exec_next h
  rw [ht]
  exact commandResult_report i s q

/-! The checks of INSERT and EXIST. -/

/-- Without a filter the check is NO_FILTER, whatever the length (R272). -/
theorem keyError_of_noFilter {s : State} (hv : s.cfg.valid = false) (q : Pending) :
    keyError s q = some .noFilter := by
  simp [keyError, hv]

/-- With a filter a length that the transfer buffer cannot hold is BAD_LENGTH (R94, R272). -/
theorem keyError_of_badLength {s : State} {q : Pending} (hv : s.cfg.valid = true)
    (hlen : s.params.xferBytes < q.a0.toNat) : keyError s q = some .badLength := by
  simp [keyError, lengthOk, hv, hlen]

/-- INSERT and EXIST report what their checks find, and do nothing else (R271). -/
theorem exec_of_keyError {s : State} {q : Pending} {e : ErrorCode} (hp : s.pend = some q) (hk : keyError s q = some e) :
    exec .insert s = .next (s.fail e) ∧ exec .exist s = .next (s.fail e) := by
  constructor <;> rw [exec_pending hp, commandResult]
  · rw [insertKey, hk]
  · rw [queryKey, hk]

/-- SERIALIZE without a filter (R231). -/
theorem exec_serialize_noFilter {s : State} {q : Pending} (hp : s.pend = some q) (hv : s.cfg.valid = false) :
    exec .serialize s = .next (State.fail .noFilter { s with outlen := 0 }) := by
  rw [exec_pending hp, commandResult, serializeFilter, if_neg (by simp [hv])]

/-! What raises FAULT. -/

/-- In a filter of no bits every bit access is out of range (R185). -/
theorem State.bitLen_le_of_eq_zero {s : State} (hb : s.cfg.bitLen = 0) (i : Word) : s.cfg.bitLen.toNat ≤ i.toNat := by
  simp [hb]

/-- A key of a filter with a round has an index (R154). -/
theorem State.exists_indicesOf_eq_cons {s : State} (hk : s.cfg.hRounds ≠ 0) (key : List Byte) :
    ∃ i is, s.indicesOf key = i :: is := by
  refine List.exists_cons_of_ne_nil fun hnil => hk ?_
  have hlen := s.indicesOf_length key
  rw [hnil] at hlen
  exact BitVec.eq_of_toNat_eq hlen.symm

/-- In a filter of no bits the first SetBit of a key violates its contract (R185). -/
theorem setBits_indicesOf_eq_none {s : State} (hb : s.cfg.bitLen = 0) (hk : s.cfg.hRounds ≠ 0) (key : List Byte) :
    setBits (s.indicesOf key) s = none := by
  obtain ⟨i, is, h⟩ := State.exists_indicesOf_eq_cons hk key
  rw [h, setBits, State.setBit_eq_none (State.bitLen_le_of_eq_zero hb i)]

/-- In a filter of no bits the first TestBit of a key violates its contract (R185). -/
theorem allBitsSet_indicesOf_eq_none {s : State} (hb : s.cfg.bitLen = 0) (hk : s.cfg.hRounds ≠ 0) (key : List Byte) :
    allBitsSet (s.indicesOf key) s = none := by
  obtain ⟨i, is, h⟩ := State.exists_indicesOf_eq_cons hk key
  rw [h, allBitsSet, State.testBit_eq, if_neg (State.bitLen_le_of_eq_zero hb i).not_gt]

/-- INSERT and EXIST in a filter of no bits end in FAULT (R276). -/
theorem exec_raisesFault {s : State} {q : Pending} {i : Instr} (hi : i = .insert ∨ i = .exist) (hp : s.pend = some q)
    (hk : keyError s q = none) (hb : s.cfg.bitLen = 0) (hr : s.cfg.hRounds ≠ 0) :
    exec i s = .next (s.raiseFault .indexRange) := by
  rw [exec_pending hp]
  rcases hi with rfl | rfl <;> rw [commandResult]
  · rw [insertKey, hk, setBits_indicesOf_eq_none hb hr]
  · rw [queryKey, hk, allBitsSet_indicesOf_eq_none hb hr]

/-! A faulted block. -/

/-- A faulted block discards a command (R277). -/
theorem State.acceptCmd_of_fault {s : State} (hf : s.fault = true) (v : Word) : s.acceptCmd v = s := if_pos hf

/-- Everything but a reset leaves the registers of a faulted block as they are, its operand registers apart (R277). -/
structure FaultFrame (s t : State) : Prop where
  cfg : t.cfg = s.cfg
  bv : t.bv = s.bv
  busy : t.busy = s.busy
  result : t.result = s.result
  fault : t.fault = s.fault
  ovr : t.ovr = s.ovr
  err : t.err = s.err
  outlen : t.outlen = s.outlen
  pend : t.pend = s.pend

theorem step_faultFrame {s t : State} (hf : s.fault = true) (hreset : s.inbox.head? ≠ some .reset)
    (h : step s = .next t) : FaultFrame s t := by
  cases step_effect h with
  | command _ enabled _ => simp [hf] at enabled
  | observe ho =>
    rw [ho.eq]
    constructor <;> rfl
  | @accept v rest _ =>
    rw [State.acceptCmd_of_fault (s := { s with inbox := rest }) hf]
    constructor <;> rfl
  | operand hr _ => rcases hr with rfl | rfl | rfl <;> constructor <;> rfl
  | buffer _ _ => constructor <;> rfl
  | reset served => simp [served] at hreset

/-! The obligations. -/

/-- Settles O7: `step_fault`. The invariant keeps every index of INSERT and EXIST in range, and nothing else faults. -/
theorem faultIsUnreachable : Obligations.FaultIsUnreachable := by
  unfold Obligations.FaultIsUnreachable
  exact fun s t h hf hstep => step_fault h hf hstep

/-- Settles O16: each report of a command; one that raises FAULT is ruled out. -/
theorem errorsHaveNoOtherEffect : Obligations.ErrorsHaveNoOtherEffect := by
  unfold Obligations.ErrorsHaveNoOtherEffect
  intro i s t hexec _ htf
  cases exec_report hexec with
  | error _ hn => exact ⟨⟨_, rfl⟩, fun hr => by simp at hr, fun _ => ⟨by constructor <;> rfl, rfl, rfl, rfl, hn⟩⟩
  | success hr => exact ⟨⟨.ok, rfl⟩, fun h => ⟨hr h, rfl⟩, fun he => absurd rfl he⟩
  | fault => cases htf

/-- Settles O19: the first check that fails is what is reported. -/
theorem noFilterComesBeforeBadLength : Obligations.NoFilterComesBeforeBadLength := by
  unfold Obligations.NoFilterComesBeforeBadLength
  intro s q hp
  refine ⟨fun hv => ?_, fun hv hlen => exec_of_keyError hp (keyError_of_badLength hv hlen)⟩
  obtain ⟨hinsert, hexist⟩ := exec_of_keyError hp (keyError_of_noFilter hv q)
  exact ⟨hinsert, hexist, exec_serialize_noFilter hp hv⟩

/-- Settles O21: the state of `raiseFault`, field by field. -/
theorem indexOutOfRangeRaisesTheFault : Obligations.IndexOutOfRangeRaisesTheFault := by
  unfold Obligations.IndexOutOfRangeRaisesTheFault
  intro s q i hi hp hv hlen hb hr
  have hframe := raiseFault_frame .indexRange s
  exact ⟨_, exec_raisesFault hi hp (keyError_none.2 ⟨hv, hlen⟩) hb hr, rfl, rfl, rfl, rfl, hframe.arg0, hframe.arg1,
    hframe.arg2, hframe.ovr, hframe.outlen not_false, hframe.xfer not_false, hframe.xferEpoch, hframe.params,
    hframe.inbox, hframe.returned, hframe.raceOpen⟩

/-- Settles O22: the frame of a faulted block's step, and the host's accesses, none of which asks for FAULT. -/
theorem faultIsStickyUntilReset : Obligations.FaultIsStickyUntilReset := by
  unfold Obligations.FaultIsStickyUntilReset
  intro s h hf
  obtain ⟨hpend, -⟩ := h.faulted hf
  have hbusy : s.busy = false := by rw [h.latch, hpend]; rfl
  refine ⟨fun t hstep hreset => ?_, fun v rest hi => (commandAcceptance s v rest h.config hi).1 hf,
    fun o rest ha ho hi => ⟨_, step_loadRegister h.config ha ho hi⟩, fun a rest hw ha hopen hi => ?_,
    fun a v rest hw ha hopen hi => ?_, fun rest hi => ⟨_, step_cons h.config hi, rfl⟩⟩
  · have hframe := step_faultFrame hf hreset hstep
    exact ⟨hframe.fault.trans hf, hframe.pend.trans hpend, hframe.busy.trans hbusy, hframe.ovr, hframe.cfg, hframe.bv,
      hframe.err, hframe.result, hframe.outlen⟩
  · obtain ⟨hdefined, -⟩ := transferBufferAccesses s a 1 0 rest h.config hw ha
    obtain ⟨hload, -⟩ := hdefined ⟨by decide, Nat.mod_one _, ha⟩ hbusy hopen
    rw [hload hi, fromLE_memRead_one]
  · obtain ⟨hdefined, -⟩ := transferBufferAccesses s a 1 v rest h.config hw ha
    obtain ⟨-, hstore⟩ := hdefined ⟨by decide, Nat.mod_one _, ha⟩ hbusy hopen
    obtain ⟨t, hstep, -, hbyte⟩ := hstore hi
    refine ⟨t, hstep, ?_⟩
    rw [hbyte, if_pos (by omega), Nat.sub_self]

end Sys2Proof.Machine
end

section
/-! PROOFS. A reset in a run and the end of a WAIT (70_reset_and_hazards.md R300, R311, R315): a reset leaves the values of
R38 over fresh draws, and a WAIT takes one poll of an idle block, or a poll, the engine's turn and a poll of a busy one. -/

namespace Sys2Proof.Machine

/-! The reset. -/

/-- STATUS reads 0 after a reset (R38). -/
theorem State.status_resetBlock (s : State) : s.resetBlock.status = 0 :=
  BitVec.eq_of_toNat_eq s.resetBlock.status_toNat

/-- Every word of BV is a fresh draw after a reset (R38). -/
theorem State.word_resetBlock (s : State) (j : Nat) : s.resetBlock.bv.word j = Config.bvDraw (s.draws + 1) j := by
  simp [BitStore.word]

/-- Every byte of XFER is a fresh draw after a reset (R38). -/
theorem State.xferByte_resetBlock (s : State) (a : Nat) : s.resetBlock.xferByte a = Config.xferDraw (s.draws + 1) a := rfl

/-! The WAIT. -/

/-- A busy block has a command pending and no FAULT, so that the engine's step is enabled (R35). -/
theorem State.Inv.enabled_of_busy {s : State} (h : s.Inv) (hb : s.busy = true) :
    s.fault = false ∧ ∃ q, s.pend = some q := by
  obtain ⟨q, hq⟩ := Option.isSome_iff_exists.1 (h.latch.symm.trans hb)
  refine ⟨Bool.eq_false_iff.2 fun hf => ?_, q, hq⟩
  obtain ⟨hnone, -⟩ := h.faulted hf
  simp [hnone] at hq

/-- An idle block has no command pending (R35). -/
theorem State.Inv.pend_of_idle {s : State} (h : s.Inv) (hb : s.busy = false) : s.pend = none :=
  Option.isNone_iff_eq_none.1 (Option.isSome_eq_false_iff.1 (h.latch.symm.trans hb))

/-- A WAIT that finds BUSY = 0 is gone after its poll, which ends the interval of R311. -/
theorem step_wait_idle {s : State} {rest : List Input} (hl : s.params.legal = true) (hb : s.busy = false)
    (hi : s.inbox = .wait :: rest) :
    step s = .next (State.returnLoad s.status { s with inbox := rest, raceOpen := false }) :=
  (step_cons hl hi).trans (congrArg Host.Outcome.next (hostWait_idle (s := { s with inbox := rest }) hb))

/-- A WAIT that finds BUSY = 1 polls again after the engine's turn (R315, log entry 6). -/
theorem step_wait_busy {s : State} {rest : List Input} (hl : s.params.legal = true) (hb : s.busy = true)
    (hi : s.inbox = .wait :: rest) :
    step s = .next (State.returnLoad s.status { s with inbox := .engine :: .wait :: rest }) :=
  (step_cons hl hi).trans (congrArg Host.Outcome.next (hostWait_busy (s := { s with inbox := rest }) hb))

/-- The engine's turn on an enabled block retires the command (R96), so that the poll after it finds BUSY = 0. -/
theorem run_engine_wait {s : State} {q : Pending} {rest : List Input} (hl : s.params.legal = true)
    (hf : s.fault = false) (hp : s.pend = some q) (hi : s.inbox = .engine :: .wait :: rest) :
    ∃ t, Host.Core.run Sys2Proof.core 2 s = .next t ∧ t.inbox = rest ∧ t.busy = false ∧ t.pend = none ∧
      t.raceOpen = false := by
  obtain ⟨-, hengine⟩ := step_enabled hl hf hp (.inr ⟨_, hi, rfl⟩)
  have hframe := engineEffect_frame { s with inbox := .wait :: rest } q
  have hpoll := step_wait_idle (s := (engineEffect { s with inbox := .wait :: rest } q).retire)
    ((congrArg Params.legal hframe.params).trans hl) rfl hframe.inbox
  exact ⟨_, run_two hengine hpoll, rfl, rfl, rfl, rfl⟩

/-! The obligations. -/

/-- Settles O2: the step serves the reset, and each field is `resetBlock`'s. -/
theorem resetInARunAbandonsEverything : Obligations.ResetInARunAbandonsEverything := by
  unfold Obligations.ResetInARunAbandonsEverything
  intro s rest hl hi
  exact ⟨State.resetBlock { s with inbox := rest }, step_cons hl hi, rfl, State.status_resetBlock _, rfl, rfl, rfl, rfl, rfl,
    rfl, rfl, rfl, rfl, rfl, rfl, State.word_resetBlock _, State.xferByte_resetBlock _⟩

/-- Settles O15: one step where the poll finds BUSY = 0; else that poll, the engine's turn and the poll that does. -/
theorem waitEndsWithinThreeSteps : Obligations.WaitEndsWithinThreeSteps := by
  unfold Obligations.WaitEndsWithinThreeSteps
  intro s rest h hi
  cases hb : s.busy with
  | false => exact ⟨1, _, by decide, run_succ (step_wait_idle h.config hb hi) 0, rfl, hb, h.pend_of_idle hb, rfl⟩
  | true =>
    obtain ⟨hf, q, hp⟩ := h.enabled_of_busy hb
    have hpoll := step_wait_busy h.config hb hi
    obtain ⟨t, hrun, ht⟩ := run_engine_wait (s := State.returnLoad s.status { s with inbox := .engine :: .wait :: rest })
      h.config hf hp rfl
    exact ⟨3, t, le_rfl, (run_succ hpoll 2).trans hrun, ht⟩

end Sys2Proof.Machine
end
